-- ==== Sys2Proof/Word.lean ====
section
/-! DEFINITION. The word types of the HUFF engine: a register, a command word and a code point are 32 bits
(00_scope.md R8, 10_state.md R21), an entry of `BUF` is 8 bits (10_state.md R34). Everything the spec treats as a
count, a frequency, a pattern or a length is a natural number (00_scope.md R12). -/

namespace Sys2Proof

/-- A 32-bit word: a command word, the `STATUS` register, a code point. -/
abbrev Word := BitVec 32

/-- A byte of the packed stream. -/
abbrev Byte := BitVec 8

end Sys2Proof
end

