-- ==== Sys2Proof/Config.lean ====
section
/-! DEFINITION. The capacity parameters of 00_scope.md R10, the names of the count registers and of the memory
fields (10_state.md R21, R30 to R35), and the free values: what the spec leaves `UNSPECIFIED`. -/

namespace Sys2Proof

/-- Byte order of the multi-byte fields of a serialised code-table record (20_memory.md R68, 30_encoding.md R96). -/
inductive TableByteOrder where
  | bigEndian
  | littleEndian
deriving DecidableEq, Repr

/-- The parameters of 00_scope.md R10 that the model takes as arguments; `none` is "unbounded". -/
structure Params where
  /-- `N_MAX`: entries of `SYM` and of `OUT`. -/
  nMax : Option Nat
  /-- `K_MAX`: entries of `FL` and of `CT`; `NODE` has `2*K_MAX - 1`. -/
  kMax : Option Nat
  /-- `L_MAX`: longest code, in bits, a `CT` entry can hold. -/
  lMax : Option Nat
  /-- `B_MAX`: bytes of `BUF`. -/
  bMax : Option Nat
  /-- `FREQ_W`: bits of a frequency field. -/
  freqW : Option Nat
  /-- `TABLE_BYTE_ORDER`: only the serialised form of `CT` depends on it. -/
  tableByteOrder : TableByteOrder
deriving DecidableEq, Repr

/-- The defaults of 00_scope.md R10: everything unbounded but `L_MAX = 16`, big-endian records. -/
def Params.default : Params where
  nMax := none
  kMax := none
  lMax := some 16
  bMax := none
  freqW := none
  tableByteOrder := .bigEndian

/-- The reference semantics of 00_scope.md R9: every capacity unbounded, `L_MAX` too. -/
def Params.unbounded : Params where
  nMax := none
  kMax := none
  lMax := none
  bMax := none
  freqW := none
  tableByteOrder := .bigEndian

/-- The eight count registers of 10_state.md R21, R22 (`CMD` is no storage register, `STATUS` stands apart). -/
inductive CountReg where
  | symLen | flLen | nodeCnt | root | ctLen | bitLen | bufLen | outLen
deriving DecidableEq, Repr

/-- The six memory spaces of 10_state.md R30 to R35. -/
inductive Space where
  | sym | fl | node | ct | buf | out
deriving DecidableEq, Repr

/-- The fields of the memory spaces: what one access of 20_memory.md R62 reaches, beside an entry index. -/
inductive Column where
  | sym
  | flCp | flFreq
  | nodeLeaf | nodeFreq | nodeSym | nodeLeft | nodeRight
  | ctSym | ctPat | ctLen
  | buf
  | out
deriving DecidableEq, Repr

/-- What a free value stands for. -/
inductive FreeSite where
  /-- an `UNSPECIFIED` field of an entry -/
  | col (c : Column)
  /-- a count register after a hazard (70_reset_and_hazards.md R330) -/
  | reg (r : CountReg)
  /-- how many host moves come before a running command's completion (70_reset_and_hazards.md R334) -/
  | latency
  /-- the value a read inside the hazard window returns -/
  | hazardRead
  /-- the error kind a command reports after a hazard -/
  | errKind
  /-- the `DONE` bit after a hazardous write of `STATUS` -/
  | done
deriving DecidableEq, Repr

/-- The free values (00_scope.md R14, R17: "any value"): what they stand for, the number of the draw, an index.
No body: nothing can evaluate one or prove a value of it. Assumption log 3. -/
opaque Config.freeValue (site : FreeSite) (draw idx : Nat) : Nat

end Sys2Proof
end

