-- ==== Sys2Proof/Syntax.lean ====
section
/-! DEFINITION. The eight commands (30_encoding.md R90, R92), one constructor per row of spec/opcode_table.json.
A command has no operand fields: every operand is implicit (30_encoding.md R91). -/

namespace Sys2Proof

/-- The commands of 30_encoding.md R92. -/
inductive Instr where
  /-- Frequency Counter, 40_count.md R121 -/
  | count
  /-- Tree Builder, 41_build.md R152 -/
  | build
  /-- Code Table Generator, 42_gentab.md R171 -/
  | gentab
  /-- Encoder, 43_pack.md R191 -/
  | pack
  /-- Decoder, 44_unpack.md R211 -/
  | unpack
  /-- code-table validation, 45_chktab.md R241 -/
  | chktab
  /-- boundary operation `encode`, 46_encode_decode.md R256 -/
  | encode
  /-- boundary operation `decode`, 46_encode_decode.md R258 -/
  | decode
deriving DecidableEq, Repr

end Sys2Proof
end

