-- ==== Sys2Proof/Decode.lean ====
section
/-! DEFINITION. Format `C` of 30_encoding.md R91 and the opcode map of R92: the decoder of command words, total
and rejecting by name, and the encoder. -/

namespace Sys2Proof

/-- Why a command word selects no command (30_encoding.md R93). -/
inductive IllegalWord where
  /-- `word[31:8]` is not 0 -/
  | zeroFieldSet
  /-- `opc = 0x00`: a cleared word launches nothing -/
  | clearedWord
  /-- `opc` from 0x09 to 0xFF -/
  | unassignedOpcode (opc : Byte)
deriving DecidableEq, Repr

/-- Field `opc`, bits 7:0 (30_encoding.md R91). -/
def opcField (w : Word) : Byte := w.extractLsb' 0 8

/-- Field `zero`, bits 31:8 (30_encoding.md R91). -/
def zeroField (w : Word) : BitVec 24 := w.extractLsb' 8 24

/-- The opcode map of 30_encoding.md R92. -/
def ofOpc (opc : Byte) : Except IllegalWord Instr :=
  match opc.toNat with
  | 0x00 => .error .clearedWord
  | 0x01 => .ok .count
  | 0x02 => .ok .build
  | 0x03 => .ok .gentab
  | 0x04 => .ok .pack
  | 0x05 => .ok .unpack
  | 0x06 => .ok .chktab
  | 0x07 => .ok .encode
  | 0x08 => .ok .decode
  | _ => .error (.unassignedOpcode opc)

/-- The decoder of 30_encoding.md R92, R93: total, one of the eight commands or a rejection by name. -/
def decode (w : Word) : Except IllegalWord Instr :=
  if zeroField w = 0 then ofOpc (opcField w) else .error .zeroFieldSet

/-- The command code of a command (30_encoding.md R92). -/
def opcOf : Instr → Byte
  | .count => 0x01
  | .build => 0x02
  | .gentab => 0x03
  | .pack => 0x04
  | .unpack => 0x05
  | .chktab => 0x06
  | .encode => 0x07
  | .decode => 0x08

/-- The command word of a command: `zero` above `opc` (30_encoding.md R91). -/
def encode (i : Instr) : Word := (0 : BitVec 24) ++ opcOf i

/-- The word that a command's bits make when only the low `nbits` of `w` are given and every bit above is 0;
`none` where they do not fit the 32 bits of a command word. -/
def tableWord (nbits w : Nat) : Option Word :=
  if w % 2 ^ nbits < 2 ^ 32 then some (BitVec.ofNat 32 (w % 2 ^ nbits)) else none

/-- The instruction the decoder reads from a row of spec/opcode_table.json, its bits numbered as the table numbers
them (bit 0 the least significant bit of the command word). -/
def decodeTableWord (nbits w : Nat) : Option Instr :=
  match tableWord nbits w with
  | none => none
  | some v =>
    match decode v with
    | .ok i => some i
    | .error _ => none

end Sys2Proof
end

