-- ==== Sys2Proof/Machine/State.lean ====
section
/-! DEFINITION. The state of one HUFF engine (10_state.md R20): ten registers, six memory spaces, the internal
state of R38 to R42, and beside them the configuration, the host's moves and the bookkeeping of free values. -/

namespace Sys2Proof.Machine

/-! ## The data model -/

/-- A Symbol of the frequency list: a code point and its count (10_state.md R31). -/
structure Symbol where
  cp : Word
  freq : Nat
deriving DecidableEq, Repr

/-- A TreeNode (10_state.md R32). -/
structure Node where
  leaf : Bool
  freq : Nat
  sym : Word
  left : Nat
  right : Nat
deriving DecidableEq, Repr

/-- A CodeTableEntry: the code `code(pat, len)` of a symbol (10_state.md R33, 00_scope.md R13). -/
structure Entry where
  sym : Word
  pat : Nat
  len : Nat
deriving DecidableEq, Repr

/-- The error kinds of 60_exceptions.md R281; code 7 of `STATUS.ERR` stands for none. -/
inductive ErrKind where
  | ok | emptyInput | symbolNotInTable | truncatedStream | invalidTable | capacityExceeded | illegalCommand
deriving DecidableEq, Repr

/-! ## Memory -/

/-- One field of a memory space over all entry indices: the entries that hold a known value, by strictly rising
index, and the number of the draw that gave every other entry its (free) value. Assumption log 3, 4. -/
structure Col (α : Type) where
  cells : List (Nat × α)
  gen : Nat
deriving DecidableEq, Repr

/-- `FL` (10_state.md R31). -/
structure FlMem where
  cp : Col Word
  freq : Col Nat
deriving DecidableEq, Repr

/-- `NODE` (10_state.md R32). -/
structure NodeMem where
  leaf : Col Bool
  freq : Col Nat
  sym : Col Word
  left : Col Nat
  right : Col Nat
deriving DecidableEq, Repr

/-- `CT` (10_state.md R33). -/
structure CtMem where
  sym : Col Word
  pat : Col Nat
  len : Col Nat
deriving DecidableEq, Repr

/-- The six memory spaces (10_state.md R30 to R35, 20_memory.md R60). The cells of `buf` are `Host.Cell`s. -/
structure Memory where
  sym : Col Word
  fl : FlMem
  node : NodeMem
  ct : CtMem
  buf : Col Byte
  out : Col Word
deriving DecidableEq, Repr

/-- A column in its one canonical form: indices strictly rising. (An entry that reads as a free value is not
listed; a listed entry holds a known value, so no listed entry equals what an unlisted index reads as.) -/
def Col.wf {α : Type} (c : Col α) : Bool := decide ((c.cells.map Prod.fst).Pairwise (· < ·))

/-- Every column of the six spaces is in canonical form. -/
def Memory.wf (m : Memory) : Bool :=
  m.sym.wf && m.fl.cp.wf && m.fl.freq.wf &&
  m.node.leaf.wf && m.node.freq.wf && m.node.sym.wf && m.node.left.wf && m.node.right.wf &&
  m.ct.sym.wf && m.ct.pat.wf && m.ct.len.wf && m.buf.wf && m.out.wf

/-! ## Registers and internal state -/

/-- The eight count registers, naturals (10_state.md R21, R22; assumption log 2). -/
structure Regs where
  symLen : Nat
  flLen : Nat
  nodeCnt : Nat
  root : Nat
  ctLen : Nat
  bitLen : Nat
  bufLen : Nat
  outLen : Nat
deriving DecidableEq, Repr

/-- The key of a node in the priority collection: `(freq, index)`, 41_build.md R149. -/
structure Key where
  freq : Nat
  idx : Nat
deriving DecidableEq, Repr

/-- A triple of the traversal stack (10_state.md R39). -/
structure StackItem where
  node : Nat
  pat : Nat
  len : Nat
deriving DecidableEq, Repr

/-- The states of the decoder's state machine (10_state.md R41, 44_unpack.md R216). -/
inductive DState where
  | accumulating
  | emitted
deriving DecidableEq, Repr

/-- Running `COUNT`: the accumulation map `T` in first-seen order (10_state.md R40) and the symbol index. -/
structure CountWork where
  t : List Symbol
  i : Nat
deriving DecidableEq, Repr

/-- Running `BUILD`: the small-step state `(NODE, PQ, m)` of 41_build.md R161. -/
structure BuildWork where
  nodes : List Node
  pq : List Key
  m : Nat
deriving DecidableEq, Repr

/-- Running `GENTAB`: the stack (10_state.md R39), top first, and the entries emitted so far. -/
structure GentabWork where
  stk : List StackItem
  table : List Entry
deriving DecidableEq, Repr

/-- Running `PACK`: symbol index and running bit-length counter (10_state.md R42), and the bits appended so far. -/
structure PackWork where
  i : Nat
  bl : Nat
  stream : List Bool
deriving DecidableEq, Repr

/-- Running `UNPACK`: accumulator, position, emission count and state (10_state.md R41), and the symbols emitted
so far (44_unpack.md R230). -/
structure UnpackWork where
  accPat : Nat
  accLen : Nat
  pos : Nat
  out : Nat
  dstate : DState
  syms : List Word
deriving DecidableEq, Repr

/-- The internal state of 10_state.md R38 to R42 beside `op`. -/
structure Internal where
  count : CountWork
  build : BuildWork
  gentab : GentabWork
  pack : PackWork
  unpack : UnpackWork
deriving DecidableEq, Repr

/-- The value every item has when the command that uses it starts (10_state.md R38 to R43): empty collections,
counters 0, `dstate = Accumulating`. -/
def Internal.empty : Internal where
  count := { t := [], i := 0 }
  build := { nodes := [], pq := [], m := 0 }
  gentab := { stk := [], table := [] }
  pack := { i := 0, bl := 0, stream := [] }
  unpack := { accPat := 0, accLen := 0, pos := 0, out := 0, dstate := .accumulating, syms := [] }

/-- The latched command `op` (10_state.md R42). -/
inductive Op where
  | command (i : Instr)
  | illegal
deriving DecidableEq, Repr

/-! ## The host -/

/-- A move of the host (30_encoding.md R102), or a reset from outside (70_reset_and_hazards.md R320). -/
inductive HostMove where
  /-- `RD name`: an access of `width` bits at byte offset `offset` of `REG` -/
  | regRead (width offset : Nat)
  /-- `WR name, v`; at offset 0 it is `CMD`: a launch -/
  | regWrite (width offset : Nat) (v : Word)
  /-- `RD S[i].f` -/
  | memRead (c : Column) (i : Nat)
  /-- `WR S[i].f, v` -/
  | memWrite (c : Column) (i : Nat) (v : Nat)
  /-- `WAIT`: read `STATUS` repeatedly until `BUSY = 0` -/
  | wait
  /-- reset -/
  | reset
deriving DecidableEq, Repr

/-! ## The state -/

/-- The state of the engine and of the host that drives it. -/
structure State where
  /-- the capacity parameters: configuration, changed by no step (assumption log 1) -/
  cfg : Params
  /-- `STATUS` (10_state.md R23) -/
  status : Word
  /-- the count registers -/
  regs : Regs
  /-- the memory spaces -/
  mem : Memory
  /-- the latched command -/
  op : Op
  /-- the internal state of a running command -/
  int : Internal
  /-- the host's moves still to come, oldest first (assumption log 8) -/
  inputs : List HostMove
  /-- what the host's reads returned, newest first (assumption log 8) -/
  observed : List Nat
  /-- how many host moves come before the running command's completion (assumption log 9) -/
  latency : Nat
  /-- the window of 70_reset_and_hazards.md R330 is open (assumption log 10) -/
  window : Bool
  /-- a host move broke R330 since the running command's launch (assumption log 11) -/
  hazard : Bool
  /-- how many free values were drawn (assumption log 3, 5) -/
  freeCount : Nat
deriving DecidableEq, Repr

/-- A column none of whose entries holds a known value. -/
def Col.unspecified {α : Type} (gen : Nat) : Col α := { cells := [], gen := gen }

/-- Every entry of every space `UNSPECIFIED`, by the given draw (10_state.md R46). -/
def Memory.unspecified (gen : Nat) : Memory where
  sym := .unspecified gen
  fl := { cp := .unspecified gen, freq := .unspecified gen }
  node :=
    { leaf := .unspecified gen, freq := .unspecified gen, sym := .unspecified gen, left := .unspecified gen,
      right := .unspecified gen }
  ct := { sym := .unspecified gen, pat := .unspecified gen, len := .unspecified gen }
  buf := .unspecified gen
  out := .unspecified gen

/-- All count registers 0 (10_state.md R46). -/
def Regs.zero : Regs where
  symLen := 0
  flLen := 0
  nodeCnt := 0
  root := 0
  ctLen := 0
  bitLen := 0
  bufLen := 0
  outLen := 0

/-- The machine right after reset (10_state.md R46, 70_reset_and_hazards.md R320): all registers 0, every memory
entry `UNSPECIFIED`, idle. The values the spec leaves open are named in assumption log 5 to 11. -/
def State.reset : State where
  cfg := .default
  status := 0
  regs := .zero
  mem := .unspecified 0
  op := .illegal
  int := .empty
  inputs := []
  observed := []
  latency := 0
  window := false
  hazard := false
  freeCount := 1

/-! ## How a step can stop -/

/-- The faults of the engine: none. An error kind ends a command and never stops the engine (60_exceptions.md
R280, R333). Assumption log 27; safe. -/
inductive Fault where
deriving DecidableEq, Repr

/-- What the model refuses, by name. -/
inductive Refusal where
  /-- an instruction without a meaning: raised by a refused arm of `exec` (there is none); safe -/
  | notModelled (mnemonic : String)
  /-- raised by a host access of `REG` that is not 32 bits wide or not at a multiple of 4: the spec does not define
  it and says that a model refuses it (20_memory.md R61, 93_implementation_defined.md U9); safe -/
  | regAccess (width offset : Nat)
  /-- raised by a host access of a memory entry at or above the capacity of its space: the spec does not define it
  and says that a model refuses it (20_memory.md R63, 93_implementation_defined.md U9); safe -/
  | memIndex (c : Column) (i : Nat)
deriving DecidableEq, Repr

end Sys2Proof.Machine
end

