-- ==== Sys2Proof/Machine/Bits.lean ====
section
/-! DEFINITION. Arithmetic on naturals and bit strings (00_scope.md R12, R13; 20_memory.md R64 to R67), and the
capacity checks of 60_exceptions.md R285. -/

namespace Sys2Proof.Machine

/-- `ceil8(n) = (n + 7) div 8` (00_scope.md R12). -/
def ceil8 (n : Nat) : Nat := (n + 7) / 8

/-- `v` passes a finite capacity (60_exceptions.md R285). -/
def exceeds (cap : Option Nat) (v : Nat) : Bool :=
  match cap with
  | none => false
  | some b => b < v

/-- `v` fits a field of the given width; an unbounded field holds every natural. -/
def fits (width : Option Nat) (v : Nat) : Bool :=
  match width with
  | none => true
  | some w => v < 2 ^ w

/-- `v` reduced to a field's width (20_memory.md R62, assumption log 14). -/
def reduceTo (width : Option Nat) (v : Nat) : Nat :=
  match width with
  | none => v
  | some w => v % 2 ^ w

/-- The width of `CT.len`: 8 bits (10_state.md R33); unbounded with an unbounded `L_MAX`, as the code length then is
(90_conflicts.md C2). Assumption log 13. -/
def lenWidth (p : Params) : Option Nat :=
  match p.lMax with
  | none => none
  | some _ => some 8

/-- A code of `len` bits does not fit a `CT` entry: longer than `L_MAX` (42_gentab.md R178), or a length the field
`len` cannot hold (20_memory.md R62). -/
def codeTooLong (p : Params) (len : Nat) : Bool := exceeds p.lMax len || !fits (lenWidth p) len

/-- A stream of `bits` bits is longer than `8 * B_MAX` (43_pack.md R191). -/
def streamTooLong (p : Params) (bits : Nat) : Bool :=
  match p.bMax with
  | none => false
  | some b => 8 * b < bits

/-- The entries of a space: `N_MAX` for `SYM` and `OUT`, `K_MAX` for `FL` and `CT`, `2*K_MAX - 1` for `NODE`,
`B_MAX` for `BUF` (20_memory.md R60). -/
def capacity (p : Params) : Space → Option Nat
  | .sym | .out => p.nMax
  | .fl | .ct => p.kMax
  | .node => p.kMax.map fun k => 2 * k - 1
  | .buf => p.bMax

/-- The bit string `code(pat, len)`: bit `b_i` is `(pat div 2^(len-1-i)) mod 2`, first bit first (00_scope.md R13,
20_memory.md R65). -/
def codeBits (pat : Nat) : Nat → List Bool
  | 0 => []
  | len + 1 => (pat / 2 ^ len % 2 == 1) :: codeBits pat len

/-- The code of an entry. -/
def Entry.code (e : Entry) : List Bool := codeBits e.pat e.len

/-- `(p1,l1)` is a prefix of `(p2,l2)`: `l1 <= l2` and `p2 div 2^(l2-l1) = p1` (00_scope.md R13). -/
def Entry.isPrefixOf (a b : Entry) : Bool := a.len ≤ b.len && b.pat / 2 ^ (b.len - a.len) == a.pat

/-- A byte from its bits, bit 7 first. -/
def byteOf (bit : Nat → Bool) : Byte :=
  BitVec.ofNat 8 ((List.range 8).foldl (fun acc u => 2 * acc + (bit u).toNat) 0)

/-- The bytes of a bit stream: stream bit `q` is bit `7 - (q mod 8)` of byte `q div 8`, `ceil8` bytes, padding 0
(20_memory.md R64, R66, R67). -/
def packBytes (stream : List Bool) : List Byte :=
  (List.range (ceil8 stream.length)).map fun j => byteOf fun u => stream.getD (8 * j + u) false

/-- Stream bit `pos` of the byte that holds it: bit `7 - (pos mod 8)` (20_memory.md R64, 44_unpack.md R212). -/
def bitOf (b : Byte) (pos : Nat) : Nat := b.toNat / 2 ^ (7 - pos % 8) % 2

/-- Entries numbered from `n` up. -/
def numbered {α : Type} (n : Nat) : List α → List (Nat × α)
  | [] => []
  | x :: xs => (n, x) :: numbered (n + 1) xs

end Sys2Proof.Machine
end

