-- ==== Sys2Proof/Machine/Flags.lean ====
section
/-! DEFINITION. The flags of `STATUS` (10_state.md R23, R29) and the codes of the error kinds (60_exceptions.md
R281). -/

namespace Sys2Proof.Machine

/-- The `STATUS.ERR` code of an error kind (60_exceptions.md R281). -/
def ErrKind.code : ErrKind → BitVec 3
  | .ok => 0
  | .emptyInput => 1
  | .symbolNotInTable => 2
  | .truncatedStream => 3
  | .invalidTable => 4
  | .capacityExceeded => 5
  | .illegalCommand => 6

/-- An error kind the spec leaves open: any of the seven, never code 7 (10_state.md R23). -/
def ErrKind.ofFree (n : Nat) : ErrKind :=
  match n % 7 with
  | 0 => .ok
  | 1 => .emptyInput
  | 2 => .symbolNotInTable
  | 3 => .truncatedStream
  | 4 => .invalidTable
  | 5 => .capacityExceeded
  | _ => .illegalCommand

/-- `STATUS` from its fields: `BUSY` bit 0, `DONE` bit 1, `ERR` bits 6:4, the reserved bits 0 (10_state.md R23). -/
def statusWord (busy done : Bool) (err : BitVec 3) : Word :=
  (0 : BitVec 25) ++ err ++ (0 : BitVec 2) ++ BitVec.ofBool done ++ BitVec.ofBool busy

/-- `STATUS.BUSY`. -/
def busyFlag (status : Word) : Bool := status.getLsbD 0

/-- `STATUS.DONE`. -/
def doneFlag (status : Word) : Bool := status.getLsbD 1

/-- `STATUS.ERR`. -/
def errField (status : Word) : BitVec 3 := status.extractLsb' 4 3

/-- `STATUS` after a launch: `BUSY <- 1; DONE <- 0; ERR <- 0` (60_exceptions.md R290). -/
def launchedStatus : Word := statusWord true false 0

/-- `STATUS` after a completion with kind `e`: `ERR <- code(e); BUSY <- 0; DONE <- 1` (60_exceptions.md R287,
R291). -/
def completedStatus (e : ErrKind) : Word := statusWord false true e.code

end Sys2Proof.Machine
end

