-- ==== Sys2Proof/Machine/Ops.lean ====
section
/-! DEFINITION. The named operations over registers and memory, the read and write sets of 10_state.md R45, and the
shared transitions: launch (60_exceptions.md R290), error entry (R287), successful completion (R291), completion
with `UNSPECIFIED` results (70_reset_and_hazards.md R330), reset (R320). -/

namespace Sys2Proof.Machine

/-! ## Registers -/

/-- Reading a count register. -/
def Regs.get (r : Regs) : CountReg → Nat
  | .symLen => r.symLen
  | .flLen => r.flLen
  | .nodeCnt => r.nodeCnt
  | .root => r.root
  | .ctLen => r.ctLen
  | .bitLen => r.bitLen
  | .bufLen => r.bufLen
  | .outLen => r.outLen

/-- Writing a count register. -/
def Regs.set (r : Regs) (n : CountReg) (v : Nat) : Regs :=
  match n with
  | .symLen => { r with symLen := v }
  | .flLen => { r with flLen := v }
  | .nodeCnt => { r with nodeCnt := v }
  | .root => { r with root := v }
  | .ctLen => { r with ctLen := v }
  | .bitLen => { r with bitLen := v }
  | .bufLen => { r with bufLen := v }
  | .outLen => { r with outLen := v }

/-- Writing 0 into each of the named registers (error entry, 60_exceptions.md R287). -/
def Regs.zeroed (r : Regs) (names : List CountReg) : Regs := names.foldl (fun r n => r.set n 0) r

/-- Any 32-bit value in each of the named registers. -/
def Regs.freed (r : Regs) (draw : Nat) (names : List CountReg) : Regs :=
  names.foldl (fun r n => r.set n (Config.freeValue (.reg n) draw 0 % 2 ^ 32)) r

/-! ## Columns -/

/-- The value of an entry: the listed one, or the free value of the draw that left it `UNSPECIFIED`. -/
def Col.read {α : Type} (free : Nat → Nat → α) (c : Col α) (i : Nat) : α :=
  match c.cells.lookup i with
  | some v => v
  | none => free c.gen i

/-- Cells with entry `i` set, in rising order of index. -/
def setCell {α : Type} (i : Nat) (v : α) : List (Nat × α) → List (Nat × α)
  | [] => [(i, v)]
  | (j, w) :: rest =>
    if i < j then (i, v) :: (j, w) :: rest
    else if i = j then (i, v) :: rest
    else (j, w) :: setCell i v rest

/-- Writing an entry. -/
def Col.write {α : Type} (c : Col α) (i : Nat) (v : α) : Col α := { c with cells := setCell i v c.cells }

/-- Entries `0 ..` written with the values of a list, every entry above `UNSPECIFIED` by the given draw. -/
def Col.ofList {α : Type} (gen : Nat) (l : List α) : Col α := { cells := numbered 0 l, gen := gen }

/-! ## Free values of the field widths -/

/-- A 32-bit free value of a field. -/
def freeWord (c : Column) (gen i : Nat) : Word := BitVec.ofNat 32 (Config.freeValue (.col c) gen i)

/-- A free value of a natural field of the given width. -/
def freeNat (c : Column) (width : Option Nat) (gen i : Nat) : Nat :=
  reduceTo width (Config.freeValue (.col c) gen i)

/-- A free bit of a field. -/
def freeBit (c : Column) (gen i : Nat) : Bool := Config.freeValue (.col c) gen i % 2 == 1

/-- A free byte of a field. -/
def freeByte (c : Column) (gen i : Nat) : Byte := BitVec.ofNat 8 (Config.freeValue (.col c) gen i)

/-! ## Reading entries: `MemRead(S, i, f)` of 00_scope.md R14 -/

/-- `SYM[i]`. -/
def State.symAt (s : State) (i : Nat) : Word := s.mem.sym.read (freeWord .sym) i

/-- `FL[i]`. -/
def State.flAt (s : State) (i : Nat) : Symbol where
  cp := s.mem.fl.cp.read (freeWord .flCp) i
  freq := s.mem.fl.freq.read (freeNat .flFreq s.cfg.freqW) i

/-- `NODE[i]`. -/
def State.nodeAt (s : State) (i : Nat) : Node where
  leaf := s.mem.node.leaf.read (freeBit .nodeLeaf) i
  freq := s.mem.node.freq.read (freeNat .nodeFreq s.cfg.freqW) i
  sym := s.mem.node.sym.read (freeWord .nodeSym) i
  left := s.mem.node.left.read (freeNat .nodeLeft none) i
  right := s.mem.node.right.read (freeNat .nodeRight none) i

/-- `CT[i]`. -/
def State.ctAt (s : State) (i : Nat) : Entry where
  sym := s.mem.ct.sym.read (freeWord .ctSym) i
  pat := s.mem.ct.pat.read (freeNat .ctPat s.cfg.lMax) i
  len := s.mem.ct.len.read (freeNat .ctLen (lenWidth s.cfg)) i

/-- `BUF[i]`. -/
def State.bufAt (s : State) (i : Nat) : Byte := s.mem.buf.read (freeByte .buf) i

/-- `OUT[i]`. -/
def State.outAt (s : State) (i : Nat) : Word := s.mem.out.read (freeWord .out) i

/-- One field of one entry as a natural: the value a host read returns (20_memory.md R62). -/
def State.fieldAt (s : State) (c : Column) (i : Nat) : Nat :=
  match c with
  | .sym => (s.symAt i).toNat
  | .flCp => (s.flAt i).cp.toNat
  | .flFreq => (s.flAt i).freq
  | .nodeLeaf => (s.nodeAt i).leaf.toNat
  | .nodeFreq => (s.nodeAt i).freq
  | .nodeSym => (s.nodeAt i).sym.toNat
  | .nodeLeft => (s.nodeAt i).left
  | .nodeRight => (s.nodeAt i).right
  | .ctSym => (s.ctAt i).sym.toNat
  | .ctPat => (s.ctAt i).pat
  | .ctLen => (s.ctAt i).len
  | .buf => (s.bufAt i).toNat
  | .out => (s.outAt i).toNat

/-! ## Writing entries -/

/-- The space a field belongs to. -/
def spaceOf : Column → Space
  | .sym => .sym
  | .flCp | .flFreq => .fl
  | .nodeLeaf | .nodeFreq | .nodeSym | .nodeLeft | .nodeRight => .node
  | .ctSym | .ctPat | .ctLen => .ct
  | .buf => .buf
  | .out => .out

/-- `MemWrite(S, i, f, v)` of 00_scope.md R14: `v` is stored reduced to the field's width (20_memory.md R62). -/
def Memory.writeField (m : Memory) (p : Params) (c : Column) (i v : Nat) : Memory :=
  match c with
  | .sym => { m with sym := m.sym.write i (BitVec.ofNat 32 v) }
  | .flCp => { m with fl := { m.fl with cp := m.fl.cp.write i (BitVec.ofNat 32 v) } }
  | .flFreq => { m with fl := { m.fl with freq := m.fl.freq.write i (reduceTo p.freqW v) } }
  | .nodeLeaf => { m with node := { m.node with leaf := m.node.leaf.write i (v % 2 == 1) } }
  | .nodeFreq => { m with node := { m.node with freq := m.node.freq.write i (reduceTo p.freqW v) } }
  | .nodeSym => { m with node := { m.node with sym := m.node.sym.write i (BitVec.ofNat 32 v) } }
  | .nodeLeft => { m with node := { m.node with left := m.node.left.write i v } }
  | .nodeRight => { m with node := { m.node with right := m.node.right.write i v } }
  | .ctSym => { m with ct := { m.ct with sym := m.ct.sym.write i (BitVec.ofNat 32 v) } }
  | .ctPat => { m with ct := { m.ct with pat := m.ct.pat.write i (reduceTo p.lMax v) } }
  | .ctLen => { m with ct := { m.ct with len := m.ct.len.write i (reduceTo (lenWidth p) v) } }
  | .buf => { m with buf := m.buf.write i (BitVec.ofNat 8 v) }
  | .out => { m with out := m.out.write i (BitVec.ofNat 32 v) }

/-- Every entry of a space becomes `UNSPECIFIED`, by the given draw. -/
def Memory.freeSpace (m : Memory) (draw : Nat) : Space → Memory
  | .sym => { m with sym := .unspecified draw }
  | .fl => { m with fl := { cp := .unspecified draw, freq := .unspecified draw } }
  | .node =>
    { m with
      node :=
        { leaf := .unspecified draw, freq := .unspecified draw, sym := .unspecified draw,
          left := .unspecified draw, right := .unspecified draw } }
  | .ct => { m with ct := { sym := .unspecified draw, pat := .unspecified draw, len := .unspecified draw } }
  | .buf => { m with buf := .unspecified draw }
  | .out => { m with out := .unspecified draw }

/-- Every entry of each of the named spaces becomes `UNSPECIFIED`. -/
def Memory.freed (m : Memory) (draw : Nat) (spaces : List Space) : Memory :=
  spaces.foldl (fun m sp => m.freeSpace draw sp) m

/-! ## Read and write sets (10_state.md R45) -/

/-- The registers a command writes. -/
def writeRegs : Instr → List CountReg
  | .count => [.flLen]
  | .build => [.nodeCnt, .root]
  | .gentab => [.ctLen]
  | .pack => [.bitLen, .bufLen]
  | .unpack => [.outLen]
  | .chktab => []
  | .encode => [.flLen, .nodeCnt, .root, .ctLen, .bitLen, .bufLen]
  | .decode => [.outLen]

/-- The memory spaces a command writes. -/
def writeSpaces : Instr → List Space
  | .count => [.fl]
  | .build => [.node]
  | .gentab => [.ct]
  | .pack => [.buf]
  | .unpack => [.out]
  | .chktab => []
  | .encode => [.fl, .node, .ct, .buf]
  | .decode => [.out]

/-- The registers a command reads. -/
def readRegs : Instr → List CountReg
  | .count => [.symLen]
  | .build => [.flLen]
  | .gentab => [.nodeCnt, .root]
  | .pack => [.symLen, .ctLen]
  | .unpack => [.bitLen, .bufLen, .ctLen]
  | .chktab => [.ctLen]
  | .encode => [.symLen]
  | .decode => [.bitLen, .bufLen, .ctLen]

/-- The memory spaces a command reads. -/
def readSpaces : Instr → List Space
  | .count => [.sym]
  | .build => [.fl]
  | .gentab => [.node]
  | .pack => [.sym, .ct]
  | .unpack => [.buf, .ct]
  | .chktab => [.ct]
  | .encode => [.sym]
  | .decode => [.buf, .ct]

/-- The registers the latched command touches; an illegal word touches nothing (10_state.md R45). -/
def Op.touchedRegs : Op → List CountReg
  | .command i => readRegs i ++ writeRegs i
  | .illegal => []

/-- The memory spaces the latched command touches. -/
def Op.touchedSpaces : Op → List Space
  | .command i => readSpaces i ++ writeSpaces i
  | .illegal => []

/-! ## Launch and completion -/

/-- `STATUS.BUSY` of a state. -/
def State.busy (s : State) : Bool := busyFlag s.status

/-- The effect of a launch on the latched command, `STATUS` and the hazard bookkeeping (60_exceptions.md R290):
one atomic change. -/
def State.latch (s : State) (op : Op) (latency : Nat) : State :=
  { s with op := op, status := launchedStatus, latency := latency, window := true, hazard := false }

/-- The command a word selects (30_encoding.md R92, R93). -/
def opOfWord (w : Word) : Op :=
  match decode w with
  | .ok i => .command i
  | .error _ => .illegal

/-- A launch by the host's write of `w` to `CMD` while `BUSY = 0`; when the command will complete is free
(70_reset_and_hazards.md R334, assumption log 9). -/
def State.launch (s : State) (w : Word) : State :=
  { s.latch (opOfWord w) (Config.freeValue .latency s.freeCount 0) with freeCount := s.freeCount + 1 }

/-- The internal state of a starting command: initialised by the command that uses it (10_state.md R43). -/
def State.start (s : State) : State := { s with int := .empty }

/-- Successful completion (60_exceptions.md R291): the writes stand, the internal state is discarded,
`ERR <- 0; BUSY <- 0; DONE <- 1`. -/
def State.complete (s : State) : State := { s with int := .empty, status := completedStatus .ok }

/-- Error entry, the effect of `raise E` (60_exceptions.md R287), one atomic change from the state at launch:
every register of the write set 0, every memory of the write set `UNSPECIFIED`, everything else kept, the internal
state discarded, `ERR <- code(E); BUSY <- 0; DONE <- 1`. -/
def State.raise (s : State) (regs : List CountReg) (spaces : List Space) (e : ErrKind) : State :=
  { s with
    regs := s.regs.zeroed regs
    mem := s.mem.freed s.freeCount spaces
    int := .empty
    status := completedStatus e
    freeCount := s.freeCount + 1 }

/-- A completion of the given kind with any value in the named registers and spaces. -/
def State.completeFree (s : State) (regs : List CountReg) (spaces : List Space) (e : ErrKind) : State :=
  { s with
    regs := s.regs.freed s.freeCount regs
    mem := s.mem.freed s.freeCount spaces
    int := .empty
    status := completedStatus e
    freeCount := s.freeCount + 1 }

/-- A completion whose result is `UNSPECIFIED`, the error kind too; the engine still completes
(70_reset_and_hazards.md R330). -/
def State.completeUnspecified (s : State) (regs : List CountReg) (spaces : List Space) : State :=
  s.completeFree regs spaces (.ofFree (Config.freeValue .errKind s.freeCount 0))

/-- Where `NODE` holds no tree the command succeeds or, where a table or a code could pass a finite capacity, may
raise `CapacityExceeded`: the kinds 60_exceptions.md R282 leaves `GENTAB` when `NODE_CNT > 0` (assumption log 15). -/
def noTreeRaises (p : Params) (free : Nat) : Bool := (p.lMax.isSome || p.kMax.isSome) && free % 2 == 1

/-- How the work of a command ends early. -/
inductive Abort where
  /-- `raise E` (00_scope.md R14) -/
  | raise (e : ErrKind)
  /-- `NODE` holds no tree of 10_state.md R36: no rule says what `GENTAB` does with it (assumption log 15) -/
  | noTree
deriving DecidableEq, Repr

/-- One stage after another, each complete before the next begins; an early end of a stage ends the whole
(46_encode_decode.md R256, R257). -/
def thenStage (r : Except Abort State) (next : State → Except Abort State) : Except Abort State :=
  match r with
  | .ok s => next s
  | .error a => .error a

/-- The end of command `i` launched in state `s`: completion, error entry on the command's own write set, or, where
no rule says what the traversal gives, either of them by a free choice, a success with any result in the write set
(60_exceptions.md R282, 70_reset_and_hazards.md R333; assumption log 15). -/
def State.finish (s : State) (i : Instr) (r : Except Abort State) : State :=
  match r with
  | .ok t => t.complete
  | .error (.raise e) => s.raise (writeRegs i) (writeSpaces i) e
  | .error .noTree =>
    if noTreeRaises s.cfg (Config.freeValue .errKind s.freeCount 0) then
      s.raise (writeRegs i) (writeSpaces i) .capacityExceeded
    else s.completeFree (writeRegs i) (writeSpaces i) .ok

/-- The completion of an illegal command word: nothing but `STATUS` changes (60_exceptions.md R286). -/
def State.completeIllegal (s : State) : State :=
  { s with int := .empty, status := completedStatus .illegalCommand }

/-- Reset as an event (70_reset_and_hazards.md R320, R322): the state after reset, its memories free anew; the
configuration, the host's further moves and what it has seen are not the engine's to lose (assumption log 21). -/
def State.resetEvent (s : State) : State :=
  { State.reset with
    cfg := s.cfg
    mem := .unspecified s.freeCount
    inputs := s.inputs
    observed := s.observed
    freeCount := s.freeCount + 1 }

end Sys2Proof.Machine
end

