-- ==== Sys2Proof/Machine/Operands.lean ====
section
/-! DEFINITION. The operand forms of the commands: the implicit operands of 10_state.md R45, each a length register
with the entries below it, read as a list; and the results, each a list written to entries `0 ..` with its length
register. Entries at and above a new length become `UNSPECIFIED` (60_exceptions.md R291). -/

namespace Sys2Proof.Machine

/-- `SYM[0..SYM_LEN-1]`, the input in text order (10_state.md R30). -/
def State.symList (s : State) : List Word := (List.range s.regs.symLen).map s.symAt

/-- `FL[0..FL_LEN-1]` in list order (10_state.md R31). -/
def State.flList (s : State) : List Symbol := (List.range s.regs.flLen).map s.flAt

/-- `NODE[0..NODE_CNT-1]` (10_state.md R32). -/
def State.nodeList (s : State) : List Node := (List.range s.regs.nodeCnt).map s.nodeAt

/-- `CT[0..CT_LEN-1]` in table order (10_state.md R33). -/
def State.ctList (s : State) : List Entry := (List.range s.regs.ctLen).map s.ctAt

/-- `BUF[0..BUF_LEN-1]` (10_state.md R34). -/
def State.bufList (s : State) : List Byte := (List.range s.regs.bufLen).map s.bufAt

/-- `OUT[0..OUT_LEN-1]` in emission order (10_state.md R35). -/
def State.outList (s : State) : List Word := (List.range s.regs.outLen).map s.outAt

/-- Writing a frequency list and `FL_LEN`. -/
def State.writeFl (s : State) (l : List Symbol) : State :=
  { s with
    regs := { s.regs with flLen := l.length }
    mem :=
      { s.mem with
        fl :=
          { cp := .ofList s.freeCount (l.map Symbol.cp)
            freq := .ofList s.freeCount (l.map Symbol.freq) } }
    freeCount := s.freeCount + 1 }

/-- Writing a tree, `NODE_CNT` and `ROOT`. -/
def State.writeNodes (s : State) (l : List Node) (root : Nat) : State :=
  { s with
    regs := { s.regs with nodeCnt := l.length, root := root }
    mem :=
      { s.mem with
        node :=
          { leaf := .ofList s.freeCount (l.map Node.leaf)
            freq := .ofList s.freeCount (l.map Node.freq)
            sym := .ofList s.freeCount (l.map Node.sym)
            left := .ofList s.freeCount (l.map Node.left)
            right := .ofList s.freeCount (l.map Node.right) } }
    freeCount := s.freeCount + 1 }

/-- Writing a code table and `CT_LEN`. -/
def State.writeCt (s : State) (l : List Entry) : State :=
  { s with
    regs := { s.regs with ctLen := l.length }
    mem :=
      { s.mem with
        ct :=
          { sym := .ofList s.freeCount (l.map Entry.sym)
            pat := .ofList s.freeCount (l.map Entry.pat)
            len := .ofList s.freeCount (l.map Entry.len) } }
    freeCount := s.freeCount + 1 }

/-- Writing a packed stream of `bitLen` bits, `BIT_LEN` and `BUF_LEN = ceil8(BIT_LEN)` (20_memory.md R67). -/
def State.writeStream (s : State) (bytes : List Byte) (bitLen : Nat) : State :=
  { s with
    regs := { s.regs with bitLen := bitLen, bufLen := ceil8 bitLen }
    mem := { s.mem with buf := .ofList s.freeCount bytes }
    freeCount := s.freeCount + 1 }

/-- Writing the decoded symbols and `OUT_LEN`. -/
def State.writeOut (s : State) (l : List Word) : State :=
  { s with
    regs := { s.regs with outLen := l.length }
    mem := { s.mem with out := .ofList s.freeCount l }
    freeCount := s.freeCount + 1 }

end Sys2Proof.Machine
end

