-- ==== Sys2Proof/Machine/Build.lean ====
section
/-! DEFINITION. `BUILD`, the Tree Builder (41_build.md): a priority collection ordered by `(freq, index)`, merged two
at a time. The collection is a sorted sequence with ordered insertion (41_build.md R148,
93_implementation_defined.md F1). -/

namespace Sys2Proof.Machine

/-- `key(a) <= key(b)`: lexicographic, `freq` first, then the insertion rank, which is the index (41_build.md R141,
R149). -/
abbrev Key.le (a b : Key) : Prop := a.freq < b.freq ∨ (a.freq = b.freq ∧ a.idx ≤ b.idx)

/-- Insertion into the priority collection. -/
def pqInsert (k : Key) (pq : List Key) : List Key := pq.orderedInsert Key.le k

/-- The leaf of a Symbol (41_build.md R142, R152); the unused fields are written 0 (10_state.md R32). -/
def leafOf (x : Symbol) : Node := { leaf := true, freq := x.freq, sym := x.cp, left := 0, right := 0 }

/-- Wrapping the list as leaves, inserted in list order: the leaf of `FL[i]` is `NODE[i]` (41_build.md R142,
R149). -/
def buildLeaves : List Symbol → BuildWork → BuildWork
  | [], w => w
  | x :: xs, w =>
    buildLeaves xs
      { nodes := w.nodes ++ [leafOf x], pq := pqInsert { freq := x.freq, idx := w.m } w.pq, m := w.m + 1 }

/-- One pass of the merge loop (41_build.md R143, R152, R161), `none` when at most one node remains: the two lowest
nodes leave the collection, their parent gets the sum of their frequencies and the next index, and enters it. -/
def buildPass (p : Params) (w : BuildWork) : Option (Except Abort BuildWork) :=
  match w.pq with
  | a :: b :: rest =>
    let f := a.freq + b.freq
    if fits p.freqW f then
      some (.ok
        { nodes := w.nodes ++ [{ leaf := false, freq := f, sym := 0, left := a.idx, right := b.idx }]
          pq := pqInsert { freq := f, idx := w.m } rest
          m := w.m + 1 })
    else some (.error (.raise .capacityExceeded))
  | _ => none

/-- The merge loop. Each pass takes one node off the collection, so as many passes as there are leaves are enough
(41_build.md R146). -/
def buildLoop (p : Params) : Nat → BuildWork → Except Abort BuildWork
  | 0, w => .ok w
  | n + 1, w =>
    match buildPass p w with
    | none => .ok w
    | some (.ok w') => buildLoop p n w'
    | some (.error e) => .error e

/-- The one element of the collection at the end: the root (41_build.md R144). -/
def rootOf (pq : List Key) : Nat :=
  match pq with
  | [] => 0
  | k :: _ => k.idx

/-- The pseudocode of 41_build.md R152. -/
def buildStage (s : State) : Except Abort State :=
  let s := s.start
  if exceeds s.cfg.kMax s.regs.flLen then .error (.raise .capacityExceeded)
  else if s.regs.flLen = 0 then .error (.raise .emptyInput)
  else
    match buildLoop s.cfg s.regs.flLen (buildLeaves s.flList s.int.build) with
    | .error e => .error e
    | .ok w => .ok (s.writeNodes w.nodes (rootOf w.pq))

/-- `BUILD`, 41_build.md R152. -/
def execBuild (s : State) : Host.Outcome State Fault Refusal := .next (s.finish .build (buildStage s))

end Sys2Proof.Machine
end

