-- ==== Sys2Proof/Machine/Chktab.lean ====
section
/-! DEFINITION. `CHKTAB`, validation of a code table (45_chktab.md). -/

namespace Sys2Proof.Machine

/-- A malformed record: `len > L_MAX`, or a bit of `pat` set at or above position `len` (45_chktab.md R243). -/
def malformedEntry (p : Params) (e : Entry) : Bool := exceeds p.lMax e.len || 2 ^ e.len ≤ e.pat

/-- Two entries at different indices, one a prefix of the other (45_chktab.md R242). -/
def prefixClash : List Entry → Bool
  | [] => false
  | e :: rest => rest.any (fun f => e.isPrefixOf f || f.isPrefixOf e) || prefixClash rest

/-- The table is malformed: R243, a zero-length entry in a table of two or more (R244), or R242. Only the verdict is
observable (45_chktab.md R246, R247). -/
def malformedTable (p : Params) (table : List Entry) : Bool :=
  table.any (malformedEntry p) || (2 ≤ table.length && table.any fun e => e.len == 0) || prefixClash table

/-- The pseudocode of 45_chktab.md R241. -/
def chktabStage (s : State) : Except Abort State :=
  let s := s.start
  if exceeds s.cfg.kMax s.regs.ctLen then .error (.raise .capacityExceeded)
  else if malformedTable s.cfg s.ctList then .error (.raise .invalidTable)
  else .ok s

/-- `CHKTAB`, 45_chktab.md R241. -/
def execChktab (s : State) : Host.Outcome State Fault Refusal := .next (s.finish .chktab (chktabStage s))

end Sys2Proof.Machine
end

