-- ==== Sys2Proof/Machine/Count.lean ====
section
/-! DEFINITION. `COUNT`, the Frequency Counter (40_count.md). -/

namespace Sys2Proof.Machine

/-- One symbol into the map `T`, listed in first-seen order: its entry's count goes up by 1, or `(c, 1)` is appended
(40_count.md R121, R122). A count that would not fit `FREQ_W` raises `CapacityExceeded` (R121 Errors). -/
def countSymbol (p : Params) (c : Word) : List Symbol → Except Abort (List Symbol)
  | [] => if fits p.freqW 1 then .ok [{ cp := c, freq := 1 }] else .error (.raise .capacityExceeded)
  | x :: xs =>
    if x.cp = c then
      if fits p.freqW (x.freq + 1) then .ok ({ x with freq := x.freq + 1 } :: xs)
      else .error (.raise .capacityExceeded)
    else
      match countSymbol p c xs with
      | .ok ys => .ok (x :: ys)
      | .error e => .error e

/-- The loop of 40_count.md R121 over the input, in text order. -/
def countLoop (p : Params) : List Word → CountWork → Except Abort CountWork
  | [], w => .ok w
  | c :: cs, w =>
    match countSymbol p c w.t with
    | .ok t => countLoop p cs { t := t, i := w.i + 1 }
    | .error e => .error e

/-- `stable_sort_ascending_by_freq(T)` (40_count.md R124): ascending by `freq`, equal frequencies in first-seen
order. The method is free (93_implementation_defined.md F6): insertion from the right, before equal keys. -/
def sortByFreq (t : List Symbol) : List Symbol := t.insertionSort fun a b => a.freq ≤ b.freq

/-- The pseudocode of 40_count.md R121. -/
def countStage (s : State) : Except Abort State :=
  let s := s.start
  if exceeds s.cfg.nMax s.regs.symLen then .error (.raise .capacityExceeded)
  else if s.regs.symLen = 0 then .error (.raise .emptyInput)
  else
    match countLoop s.cfg s.symList s.int.count with
    | .error e => .error e
    | .ok w =>
      if exceeds s.cfg.kMax w.t.length then .error (.raise .capacityExceeded)
      else .ok (s.writeFl (sortByFreq w.t))

/-- `COUNT`, 40_count.md R121. -/
def execCount (s : State) : Host.Outcome State Fault Refusal := .next (s.finish .count (countStage s))

end Sys2Proof.Machine
end

