-- ==== Sys2Proof/Machine/Gentab.lean ====
section
/-! DEFINITION. `GENTAB`, the Code Table Generator (42_gentab.md). -/

namespace Sys2Proof.Machine

/-- One pass of the traversal loop (42_gentab.md R171): pop a triple; a leaf is emitted, an internal node pushes its
right child (bit 1) and then its left child (bit 0). `NODE[0..NODE_CNT-1]` is all there is to read (10_state.md R45):
a child outside it is no tree of 10_state.md R36. -/
def gentabPass (s : State) (top : StackItem) (w : GentabWork) : Except Abort GentabWork :=
  if s.regs.nodeCnt ≤ top.node then .error .noTree
  else
    let n := s.nodeAt top.node
    if n.leaf then
      if codeTooLong s.cfg top.len then .error (.raise .capacityExceeded)
      else .ok { w with table := w.table ++ [{ sym := n.sym, pat := top.pat, len := top.len }] }
    else
      .ok
        { w with
          stk :=
            { node := n.left, pat := 2 * top.pat, len := top.len + 1 } ::
              { node := n.right, pat := 2 * top.pat + 1, len := top.len + 1 } :: w.stk }

/-- The traversal loop. On a tree of 10_state.md R36 each node is popped once, so `NODE_CNT` passes empty the stack
(42_gentab.md R176); a stack that is not empty then came from no such tree (assumption log 15). -/
def gentabLoop (s : State) : Nat → GentabWork → Except Abort GentabWork
  | fuel, w =>
    match w.stk with
    | [] => .ok w
    | top :: rest =>
      match fuel with
      | 0 => .error .noTree
      | n + 1 =>
        match gentabPass s top { w with stk := rest } with
        | .ok w' => gentabLoop s n w'
        | .error e => .error e

/-- The pseudocode of 42_gentab.md R171; a root that is a leaf gets the code `0` of length 1 (R173), which like any
code must fit a `CT` entry (R177, R178, assumption log 28). R171 has no test of `NODE_CNT` against the capacity, while
20_memory.md R63 says that every command tests its count and raises `CapacityExceeded`: the model tests it, after the
test for 0 (assumption log 29). -/
def gentabStage (s : State) : Except Abort State :=
  let s := s.start
  if s.regs.nodeCnt = 0 then .error (.raise .emptyInput)
  else if exceeds (capacity s.cfg .node) s.regs.nodeCnt then .error (.raise .capacityExceeded)
  else if s.regs.nodeCnt ≤ s.regs.root then .error .noTree
  else if (s.nodeAt s.regs.root).leaf then
    if codeTooLong s.cfg 1 then .error (.raise .capacityExceeded)
    else .ok (s.writeCt [{ sym := (s.nodeAt s.regs.root).sym, pat := 0, len := 1 }])
  else
    match gentabLoop s s.regs.nodeCnt { s.int.gentab with stk := [{ node := s.regs.root, pat := 0, len := 0 }] } with
    | .error e => .error e
    | .ok w => .ok (s.writeCt w.table)

/-- `GENTAB`, 42_gentab.md R171. -/
def execGentab (s : State) : Host.Outcome State Fault Refusal := .next (s.finish .gentab (gentabStage s))

end Sys2Proof.Machine
end

