-- ==== Sys2Proof/Machine/Pack.lean ====
section
/-! DEFINITION. `PACK`, the Encoder (43_pack.md). -/

namespace Sys2Proof.Machine

/-- The entry of a symbol: the lowest index with that `sym` (43_pack.md R192, R197). -/
def entryOf (table : List Entry) (c : Word) : Option Entry := table.find? fun e => e.sym == c

/-- One symbol: its code's bits appended, first bit first, the counter advanced (43_pack.md R191, R193); bits of
`pat` at and above `len` are ignored (R198). -/
def packSymbol (p : Params) (table : List Entry) (c : Word) (w : PackWork) : Except Abort PackWork :=
  match entryOf table c with
  | none => .error (.raise .symbolNotInTable)
  | some e =>
    if streamTooLong p (w.bl + e.len) then .error (.raise .capacityExceeded)
    else .ok { i := w.i + 1, bl := w.bl + e.len, stream := w.stream ++ e.code }

/-- The loop of 43_pack.md R191 over the input, in sequence order. -/
def packLoop (p : Params) (table : List Entry) : List Word → PackWork → Except Abort PackWork
  | [], w => .ok w
  | c :: cs, w =>
    match packSymbol p table c w with
    | .ok w' => packLoop p table cs w'
    | .error e => .error e

/-- The pseudocode of 43_pack.md R191. -/
def packStage (s : State) : Except Abort State :=
  let s := s.start
  if exceeds s.cfg.nMax s.regs.symLen || exceeds s.cfg.kMax s.regs.ctLen then .error (.raise .capacityExceeded)
  else if s.regs.symLen = 0 then .error (.raise .emptyInput)
  else
    match packLoop s.cfg s.ctList s.symList s.int.pack with
    | .error e => .error e
    | .ok w => .ok (s.writeStream (packBytes w.stream) w.bl)

/-- `PACK`, 43_pack.md R191. -/
def execPack (s : State) : Host.Outcome State Fault Refusal := .next (s.finish .pack (packStage s))

end Sys2Proof.Machine
end

