-- ==== Sys2Proof/Machine/Unpack.lean ====
section
/-! DEFINITION. `UNPACK`, the Decoder (44_unpack.md). -/

namespace Sys2Proof.Machine

/-- The match: the lowest index whose pair `(len, pat)` equals the accumulator (44_unpack.md R214, R225). -/
def matchOf (table : List Entry) (accPat accLen : Nat) : Option Entry :=
  table.find? fun e => e.len == accLen && e.pat == accPat

/-- The transition Accumulating→Emitted on a match: the symbol is emitted and the accumulator emptied
(44_unpack.md R215, R216). -/
def emitSymbol (p : Params) (e : Entry) (w : UnpackWork) : Except Abort UnpackWork :=
  let w := { w with dstate := .emitted }
  if exceeds p.nMax (w.out + 1) then .error (.raise .capacityExceeded)
  else
    .ok
      { w with
        syms := w.syms ++ [e.sym]
        out := w.out + 1
        accPat := 0
        accLen := 0
        dstate := .accumulating }

/-- One pass of the loop of 44_unpack.md R211 (its small step R230): one bit is consumed, a missing byte is
`TruncatedStream` (R222), a match emits. -/
def unpackPass (s : State) (table : List Entry) (w : UnpackWork) : Except Abort UnpackWork :=
  if s.regs.bufLen ≤ w.pos / 8 then .error (.raise .truncatedStream)
  else
    let bit := bitOf (s.bufAt (w.pos / 8)) w.pos
    let w := { w with pos := w.pos + 1, accPat := 2 * w.accPat + bit, accLen := w.accLen + 1 }
    match matchOf table w.accPat w.accLen with
    | none => .ok w
    | some e => emitSymbol s.cfg e w

/-- The loop `while pos < BIT_LEN`: each pass consumes a bit, so `BIT_LEN` passes are enough (44_unpack.md R217,
R219). -/
def unpackLoop (s : State) (table : List Entry) : Nat → UnpackWork → Except Abort UnpackWork
  | 0, w => .ok w
  | n + 1, w =>
    if w.pos < s.regs.bitLen then
      match unpackPass s table w with
      | .ok w' => unpackLoop s table n w'
      | .error e => .error e
    else .ok w

/-- The pseudocode of 44_unpack.md R211; a non-empty accumulator at the end is `TruncatedStream` (R218). -/
def unpackStage (s : State) : Except Abort State :=
  let s := s.start
  if exceeds s.cfg.bMax s.regs.bufLen || exceeds s.cfg.kMax s.regs.ctLen then .error (.raise .capacityExceeded)
  else
    match unpackLoop s s.ctList s.regs.bitLen s.int.unpack with
    | .error e => .error e
    | .ok w => if w.accLen ≠ 0 then .error (.raise .truncatedStream) else .ok (s.writeOut w.syms)

/-- `UNPACK`, 44_unpack.md R211. -/
def execUnpack (s : State) : Host.Outcome State Fault Refusal := .next (s.finish .unpack (unpackStage s))

end Sys2Proof.Machine
end

