-- ==== Sys2Proof/Machine/Boundary.lean ====
section
/-! DEFINITION. The boundary operations `ENCODE` and `DECODE` (46_encode_decode.md). -/

namespace Sys2Proof.Machine

/-- The pseudocode of 46_encode_decode.md R256: the four stages in order. -/
def encodeStage (s : State) : Except Abort State :=
  thenStage (thenStage (thenStage (countStage s) buildStage) gentabStage) packStage

/-- The pseudocode of 46_encode_decode.md R258: the empty decode succeeds before anything is checked (R259). -/
def decodeStage (s : State) : Except Abort State :=
  if s.regs.bitLen = 0 then .ok (s.writeOut []) else thenStage (chktabStage s) unpackStage

/-- `ENCODE`, 46_encode_decode.md R256. -/
def execEncode (s : State) : Host.Outcome State Fault Refusal := .next (s.finish .encode (encodeStage s))

/-- `DECODE`, 46_encode_decode.md R258. -/
def execDecode (s : State) : Host.Outcome State Fault Refusal := .next (s.finish .decode (decodeStage s))

end Sys2Proof.Machine
end

