-- ==== Sys2Proof/WellFormed.lean ====
section
/-! DEFINITION. What is well-formed: commands (no operand field, so nothing to check beyond their word),
parameters (00_scope.md R10), code-table entries (00_scope.md R13, 30_encoding.md R97), host moves (20_memory.md
R61, R63) and host scripts (30_encoding.md R102). -/

namespace Sys2Proof

/-- A command is its constructor: format `C` has no operand field (30_encoding.md R91). -/
def Instr.wf (_ : Instr) : Bool := true

/-- The bounds 00_scope.md R10 puts on finite parameters. -/
def Params.legal (p : Params) : Bool :=
  p.nMax.all (· < 2 ^ 32) && p.kMax.all (· < 2 ^ 31) && p.bMax.all (· < 2 ^ 29) && p.freqW.all (· == 32)

namespace Machine

/-- The pair `(pat, len)` denotes a bit string: `pat < 2^len` (00_scope.md R13). -/
def Entry.wf (e : Entry) : Bool := e.pat < 2 ^ e.len

/-- A `REG` access the spec defines: 32 bits wide, at a multiple of 4 (20_memory.md R61). -/
def regAccessWf (width offset : Nat) : Bool := width == 32 && offset % 4 == 0

/-- A write of `REG.CMD`. -/
def HostMove.isCmd : HostMove → Bool
  | .regWrite width offset _ => width == 32 && offset == 0x00
  | .regRead _ _ | .memRead _ _ | .memWrite _ _ _ | .wait | .reset => false

/-- `WAIT` comes before any line other than `RD STATUS` (30_encoding.md R102). -/
def awaits : List HostMove → Bool
  | .wait :: _ => true
  | .regRead width offset :: rest => width == 32 && offset == 0x04 && awaits rest
  | _ => false

/-- Every `CMD` of a host script is followed by `WAIT` before any line other than `RD STATUS`
(30_encoding.md R102). -/
def scriptWf : List HostMove → Bool
  | [] => true
  | m :: rest => (!m.isCmd || awaits rest) && scriptWf rest

end Machine

end Sys2Proof
end

