-- ==== Sys2Proof/Machine/HostMoves.lean ====
section
/-! DEFINITION. The host's moves (10_state.md R21 to R26, 20_memory.md R60 to R63, R70 to R74,
70_reset_and_hazards.md R330, R331): register and memory accesses, the launch, `WAIT`, reset. -/

namespace Sys2Proof.Machine

/-- The value a read of the register at a byte offset returns: `CMD` and reserved offsets read 0
(10_state.md R21). -/
def regValue (s : State) (offset : Nat) : Nat :=
  match offset with
  | 0x04 => s.status.toNat
  | 0x08 => s.regs.symLen
  | 0x0C => s.regs.flLen
  | 0x10 => s.regs.nodeCnt
  | 0x14 => s.regs.root
  | 0x18 => s.regs.ctLen
  | 0x1C => s.regs.bitLen
  | 0x20 => s.regs.bufLen
  | 0x24 => s.regs.outLen
  | _ => 0

/-- The count register at a byte offset (10_state.md R21). -/
def countRegAt (offset : Nat) : Option CountReg :=
  match offset with
  | 0x08 => some .symLen
  | 0x0C => some .flLen
  | 0x10 => some .nodeCnt
  | 0x14 => some .root
  | 0x18 => some .ctLen
  | 0x1C => some .bitLen
  | 0x20 => some .bufLen
  | 0x24 => some .outLen
  | _ => none

/-- The host may write the register: access `RW` of 10_state.md R21. -/
def hostWritesReg : CountReg → Bool
  | .symLen | .flLen | .ctLen | .bitLen | .bufLen => true
  | .nodeCnt | .root | .outLen => false

/-- The host may write the space: access `RW` of 20_memory.md R60. -/
def hostWritesSpace : Space → Bool
  | .sym | .fl | .ct | .buf => true
  | .node | .out => false

/-- A value returned to the host. -/
def State.observe (s : State) (v : Nat) : State := { s with observed := v :: s.observed }

/-- A host write of a register other than `CMD`: `RO` and reserved registers ignore it (10_state.md R21). -/
def State.writeReg (s : State) (offset : Nat) (v : Word) : State :=
  match countRegAt offset with
  | none => s
  | some r => if hostWritesReg r then { s with regs := s.regs.set r v.toNat } else s

/-- A host write of a memory field: `RO` spaces ignore it (20_memory.md R60, assumption log 12). -/
def State.writeMem (s : State) (c : Column) (i v : Nat) : State :=
  if hostWritesSpace (spaceOf c) then { s with mem := s.mem.writeField s.cfg c i v } else s

/-! ## Inside the hazard window -/

/-- `STATUS` after an access inside the window has made its `ERR` any value. `BUSY` keeps its value, since the engine
still completes (70_reset_and_hazards.md R330). -/
def State.freeStatus (s : State) (done : Bool) : Word :=
  statusWord s.busy done (ErrKind.ofFree (Config.freeValue .errKind s.freeCount 0)).code

/-- An access inside the window: the running command's result is lost, or, where it has completed but the host has not
seen it, its results and `ERR` are any value now. `DONE` keeps the value it has, 1 from the completion or any value
from a write of `STATUS` inside the window. What the access itself touches becomes any value after that
(70_reset_and_hazards.md R330, assumption log 10, 11). -/
def State.spoil (s : State) : State :=
  if s.busy then { s with hazard := true, freeCount := s.freeCount + 1 }
  else
    { s.completeUnspecified s.op.touchedRegs s.op.touchedSpaces with status := s.freeStatus (doneFlag s.status) }

/-- Any value in the register an access inside the window touches, by a draw of its own (`STATUS` but for its `BUSY`);
`CMD` and the reserved offsets hold nothing. -/
def State.freeReg (s : State) (offset : Nat) : State :=
  let t := { s with freeCount := s.freeCount + 1 }
  match countRegAt offset with
  | some r => { t with regs := s.regs.set r (Config.freeValue (.reg r) s.freeCount 0 % 2 ^ 32) }
  | none =>
    if offset = 0x04 then { t with status := s.freeStatus (Config.freeValue .done s.freeCount 0 % 2 == 1) } else t

/-- Any value in the memory field an access inside the window touches, by a draw of its own. -/
def State.freeField (s : State) (c : Column) (i : Nat) : State :=
  { s with
    mem := s.mem.writeField s.cfg c i (Config.freeValue (.col c) s.freeCount i)
    freeCount := s.freeCount + 1 }

/-- Any value as what a read inside the window returns. -/
def State.observeFree (s : State) : State := s.observe (Config.freeValue .hazardRead s.freeCount 0)

/-! ## The moves -/

/-- A write of `REG.CMD`: a launch while `BUSY = 0`, dropped while `BUSY = 1` (10_state.md R24,
70_reset_and_hazards.md R331; assumption log 23). -/
def State.writeCmd (s : State) (w : Word) : State := if s.busy then s else s.launch w

/-- A read of `STATUS`: one that returns `BUSY = 0` closes the hazard window (70_reset_and_hazards.md R330). -/
def State.readStatus (s : State) : State :=
  { s.observe s.status.toNat with window := s.window && s.busy }

/-- A read of a defined register access. -/
def State.readRegMove (s : State) (offset : Nat) : State :=
  if offset = 0x04 then s.readStatus
  else if s.window then (s.spoil.freeReg offset).observeFree
  else s.observe (regValue s offset)

/-- A write of a defined register access. -/
def State.writeRegMove (s : State) (offset : Nat) (v : Word) : State :=
  if offset = 0x00 then s.writeCmd v
  else if s.window then s.spoil.freeReg offset
  else s.writeReg offset v

/-- A read of a memory field. -/
def State.readMemMove (s : State) (c : Column) (i : Nat) : State :=
  if s.window then (s.spoil.freeField c i).observeFree else s.observe (s.fieldAt c i)

/-- A write of a memory field. -/
def State.writeMemMove (s : State) (c : Column) (i v : Nat) : State :=
  if s.window then s.spoil.freeField c i else s.writeMem c i v

/-- `WAIT`: read `STATUS`; while it shows `BUSY = 1`, wait again (30_encoding.md R102, assumption log 25). -/
def State.waitMove (s : State) : State :=
  if s.busy then { s with inputs := .wait :: s.inputs } else { s with window := false }

/-- The entry exists: below the capacity of its space (20_memory.md R63). -/
def memIndexWf (p : Params) (c : Column) (i : Nat) : Bool :=
  match capacity p (spaceOf c) with
  | none => true
  | some n => i < n

/-- The next move of the host, already taken off `inputs`. What the spec does not define is refused (20_memory.md
R61, R63). -/
def hostMove (m : HostMove) (s : State) : Host.Outcome State Fault Refusal :=
  match m with
  | .regRead width offset =>
    if regAccessWf width offset then .next (s.readRegMove offset) else .refused (.regAccess width offset)
  | .regWrite width offset v =>
    if regAccessWf width offset then .next (s.writeRegMove offset v) else .refused (.regAccess width offset)
  | .memRead c i => if memIndexWf s.cfg c i then .next (s.readMemMove c i) else .refused (.memIndex c i)
  | .memWrite c i v => if memIndexWf s.cfg c i then .next (s.writeMemMove c i v) else .refused (.memIndex c i)
  | .wait => .next s.waitMove
  | .reset => .next s.resetEvent

end Sys2Proof.Machine
end

