-- ==== Sys2Proof/Machine/Engine.lean ====
section
/-! DEFINITION. The engine's one move, "complete the running command" (20_memory.md R74, 60_exceptions.md R291), and
whose turn it is. -/

namespace Sys2Proof.Machine

/-- The engine moves next: a command runs, and no further host move comes before its completion (assumption
log 9). -/
def engineTurn (s : State) : Bool := s.busy && (s.latency == 0 || s.inputs.isEmpty)

/-- Completion of the running command: its meaning, `IllegalCommand` for an illegal word, `UNSPECIFIED` results
after a hazard (70_reset_and_hazards.md R330). -/
def engineMove (s : State) : Host.Outcome State Fault Refusal :=
  if s.hazard then
    .next { s.completeUnspecified s.op.touchedRegs s.op.touchedSpaces with hazard := false }
  else
    match s.op with
    | .illegal => .next s.completeIllegal
    | .command i => exec i s

/-- The host moves next, if it has a move to make; else the idle engine keeps all state (60_exceptions.md R299,
assumption log 17). -/
def hostTurn (s : State) : Host.Outcome State Fault Refusal :=
  match s.inputs with
  | [] => .next s
  | m :: rest => hostMove m { s with inputs := rest, latency := s.latency - 1 }

/-- The state right after the launch of an instruction given by its opcode-table bits, its completion the next step:
where this machine takes its next instruction from is the command latched by a write of `CMD` (10_state.md R27, R42;
assumption log 18). -/
def fetchOp (nbits w : Nat) : Op :=
  match tableWord nbits w with
  | none => .illegal
  | some v => opOfWord v

end Sys2Proof.Machine
end

