-- ==== Sys2Proof/Machine/Step.lean ====
section
/-! DEFINITION. One step of the machine: the engine's completion of the running command, or the host's next move. -/

namespace Sys2Proof.Machine

/-- One step (20_memory.md R74). -/
def step (s : State) : Host.Outcome State Fault Refusal := if engineTurn s then engineMove s else hostTurn s

/-- `s` with the instruction of the given opcode-table bits latched, so that the very next step runs it (assumption
log 18). -/
def State.withFetchWord (s : State) (nbits w : Nat) : State := s.latch (fetchOp nbits w) 0

end Sys2Proof.Machine
end

