-- ==== Sys2Proof/Machine/Record.lean ====
section
/-! DEFINITION. The serialised code table (30_encoding.md R95 to R97, 20_memory.md R68): records of 7 bytes, no
header, no padding, no terminator. The engine never embeds it in `BUF`; it is the form in which a host stores or
sends `CT[0..CT_LEN-1]`. -/

namespace Sys2Proof.Machine

/-- The `n` bytes of a field, least significant byte first. -/
def fieldBytes : Nat → Nat → List Byte
  | 0, _ => []
  | n + 1, v => BitVec.ofNat 8 v :: fieldBytes n (v / 256)

/-- The value of a field from its bytes, least significant byte first. -/
def fieldValue : List Byte → Nat
  | [] => 0
  | b :: bs => b.toNat + 256 * fieldValue bs

/-- A multi-byte field in the given byte order (20_memory.md R68). -/
def orderedBytes (order : TableByteOrder) (leastFirst : List Byte) : List Byte :=
  match order with
  | .bigEndian => leastFirst.reverse
  | .littleEndian => leastFirst

/-- One record: 4 bytes `sym`, 2 bytes `pat`, 1 byte `len` (30_encoding.md R96); a record is at most 16 pattern bits
and 8 length bits wide (assumption log 26). -/
def recordBytes (order : TableByteOrder) (e : Entry) : List Byte :=
  orderedBytes order (fieldBytes 4 e.sym.toNat) ++ orderedBytes order (fieldBytes 2 e.pat) ++ fieldBytes 1 e.len

/-- The entry of one record of 7 bytes. -/
def entryOfRecord (order : TableByteOrder) (bytes : List Byte) : Entry where
  sym := BitVec.ofNat 32 (fieldValue (orderedBytes order (bytes.take 4)))
  pat := fieldValue (orderedBytes order ((bytes.drop 4).take 2))
  len := fieldValue ((bytes.drop 6).take 1)

/-- A serialised table: the records in table order (30_encoding.md R95). -/
def tableBytes (order : TableByteOrder) (table : List Entry) : List Byte := table.flatMap (recordBytes order)

/-- The table read from its serialised form; the number of records is given beside it (30_encoding.md R95). No rule says
what fewer than 7 bytes for each record read as: the model reads the bytes that are there, as a shorter field, and a
field without bytes as 0; bytes after the last record are ignored (assumption log 31). -/
def tableOfBytes (order : TableByteOrder) : Nat → List Byte → List Entry
  | 0, _ => []
  | n + 1, bytes => entryOfRecord order (bytes.take 7) :: tableOfBytes order n (bytes.drop 7)

/-- The serialised form of the engine's code table. -/
def State.serialisedTable (s : State) : List Byte := tableBytes s.cfg.tableByteOrder s.ctList

end Sys2Proof.Machine
end

