-- ==== Sys2Proof/Machine/Script.lean ====
section
/-! DEFINITION. Host-script lines and pseudo-lines as moves (30_encoding.md R102, R103). -/

namespace Sys2Proof.Machine

/-- The byte offset of a count register (10_state.md R21). -/
def offsetOf : CountReg → Nat
  | .symLen => 0x08
  | .flLen => 0x0C
  | .nodeCnt => 0x10
  | .root => 0x14
  | .ctLen => 0x18
  | .bitLen => 0x1C
  | .bufLen => 0x20
  | .outLen => 0x24

/-- `WR name, v`. A register write carries a 32-bit word (20_memory.md R61) and no rule says what a line with a number
of 2^32 or more does: the model writes the number modulo 2^32 (assumption log 30). -/
def lineWr (r : CountReg) (v : Nat) : HostMove := .regWrite 32 (offsetOf r) (BitVec.ofNat 32 v)

/-- `RD name`. -/
def lineRd (r : CountReg) : HostMove := .regRead 32 (offsetOf r)

/-- `RD STATUS`. -/
def lineRdStatus : HostMove := .regRead 32 0x04

/-- `CMD 0xhhhhhhhh`. -/
def lineCmdWord (w : Word) : HostMove := .regWrite 32 0x00 w

/-- `CMD m`. -/
def lineCmd (i : Instr) : HostMove := lineCmdWord (encode i)

/-- `RUN m`: `CMD m` then `WAIT`. -/
def pseudoRun (i : Instr) : List HostMove := [lineCmd i, .wait]

/-- Writes of one field of entries `0 ..`. -/
def lineWrColumn (c : Column) (vs : List Nat) : List HostMove := (numbered 0 vs).map fun x => .memWrite c x.1 x.2

/-- `SYMS v0, v1, ...`. -/
def pseudoSyms (vs : List Word) : List HostMove :=
  lineWrColumn .sym (vs.map BitVec.toNat) ++ [lineWr .symLen vs.length]

/-- `TEXT "c0c1..."`: the code points of the characters. -/
def pseudoText (t : String) : List HostMove := pseudoSyms (t.toList.map fun c => BitVec.ofNat 32 c.toNat)

/-- `FREQS (c0,f0), ...`: `cp` and `freq` of each entry in turn, then `FL_LEN`. -/
def pseudoFreqs (fs : List Symbol) : List HostMove :=
  ((numbered 0 fs).flatMap fun x => [.memWrite .flCp x.1 x.2.cp.toNat, .memWrite .flFreq x.1 x.2.freq]) ++
    [lineWr .flLen fs.length]

/-- `TABLE (s0,p0,l0), ...`: `sym`, `pat`, `len` of each entry in turn, then `CT_LEN`. -/
def pseudoTable (es : List Entry) : List HostMove :=
  ((numbered 0 es).flatMap fun x =>
    [.memWrite .ctSym x.1 x.2.sym.toNat, .memWrite .ctPat x.1 x.2.pat, .memWrite .ctLen x.1 x.2.len]) ++
    [lineWr .ctLen es.length]

/-- `STREAM bl, b0 b1 ...`: the bytes, then `BUF_LEN`, then `BIT_LEN`. -/
def pseudoStream (bl : Nat) (bs : List Byte) : List HostMove :=
  lineWrColumn .buf (bs.map BitVec.toNat) ++ [lineWr .bufLen bs.length, lineWr .bitLen bl]

/-- `EXPECT kind`: the read of `STATUS`; that it returns `DONE = 1`, `BUSY = 0`, `ERR = kind` is the script's
statement. -/
def pseudoExpect : List HostMove := [lineRdStatus]

/-- The value `EXPECT kind` states for that read. -/
def expectedStatus (e : ErrKind) : Nat := (completedStatus e).toNat

end Sys2Proof.Machine
end

