-- ==== Sys2Proof/Safety.lean ====
section
/-! DEFINITION. What counts as a safe run, and the terms in which claims are stated: the end of a command, the tree
of 10_state.md R36, codes and streams, agreement on read sets and results, and the invariants of a step. -/

namespace Sys2Proof.Machine

/-! ## The end of a command -/

/-- The command ended with this kind: `BUSY = 0`, `DONE = 1`, `ERR` its code, every reserved bit 0
(60_exceptions.md R287, R291). -/
abbrev State.endsWith (t : State) (e : ErrKind) : Prop := t.status = completedStatus e

/-- Every entry of a column at and above `n` is `UNSPECIFIED`, by the given draw. -/
def Col.freeFrom {α : Type} (c : Col α) (draw n : Nat) : Prop := c.gen = draw ∧ ∀ i, n ≤ i → c.cells.lookup i = none

/-- Every entry of a space at and above `n` is `UNSPECIFIED`, by the given draw (60_exceptions.md R291). -/
def Memory.freeFrom (m : Memory) (draw n : Nat) : Space → Prop
  | .sym => m.sym.freeFrom draw n
  | .fl => m.fl.cp.freeFrom draw n ∧ m.fl.freq.freeFrom draw n
  | .node =>
    m.node.leaf.freeFrom draw n ∧ m.node.freq.freeFrom draw n ∧ m.node.sym.freeFrom draw n ∧
      m.node.left.freeFrom draw n ∧ m.node.right.freeFrom draw n
  | .ct => m.ct.sym.freeFrom draw n ∧ m.ct.pat.freeFrom draw n ∧ m.ct.len.freeFrom draw n
  | .buf => m.buf.freeFrom draw n
  | .out => m.out.freeFrom draw n

/-- Every entry of a space is `UNSPECIFIED`, by one draw. -/
def Memory.spaceFree (m : Memory) (draw : Nat) : Space → Prop
  | .sym => m.sym = .unspecified draw
  | .fl => m.fl.cp = .unspecified draw ∧ m.fl.freq = .unspecified draw
  | .node =>
    m.node.leaf = .unspecified draw ∧ m.node.freq = .unspecified draw ∧ m.node.sym = .unspecified draw ∧
      m.node.left = .unspecified draw ∧ m.node.right = .unspecified draw
  | .ct => m.ct.sym = .unspecified draw ∧ m.ct.pat = .unspecified draw ∧ m.ct.len = .unspecified draw
  | .buf => m.buf = .unspecified draw
  | .out => m.out = .unspecified draw

/-! ## Runs the spec defines -/

/-- A host move that 70_reset_and_hazards.md R330 allows while its window is open. -/
def HostMove.allowedInWindow : HostMove → Bool
  | .regRead _ offset => offset == 0x04
  | .regWrite _ offset _ => offset == 0x00
  | .memRead _ _ | .memWrite _ _ _ => false
  | .wait | .reset => true

/-- The count registers with their offsets, and whether the host may write them (10_state.md R21). -/
def registerMap : List (Nat × CountReg × Bool) :=
  [(0x08, .symLen, true), (0x0C, .flLen, true), (0x10, .nodeCnt, false), (0x14, .root, false), (0x18, .ctLen, true),
    (0x1C, .bitLen, true), (0x20, .bufLen, true), (0x24, .outLen, false)]

/-- The move is one the spec defines: a register access by 20_memory.md R61, a memory access by R63. -/
def HostMove.defined (p : Params) : HostMove → Bool
  | .regRead width offset | .regWrite width offset _ => regAccessWf width offset
  | .memRead c i | .memWrite c i _ => memIndexWf p c i
  | .wait | .reset => true

/-- The move reads or writes `STATUS`. -/
def HostMove.accessesStatus : HostMove → Bool
  | .regRead _ offset | .regWrite _ offset _ => offset == 0x04
  | .memRead _ _ | .memWrite _ _ _ | .wait | .reset => false

/-- The move reads or writes this count register. -/
def HostMove.accessesReg (r : CountReg) : HostMove → Bool
  | .regRead _ offset | .regWrite _ offset _ => registerMap.any fun x => x.1 == offset && x.2.1 == r
  | .memRead _ _ | .memWrite _ _ _ | .wait | .reset => false

/-- The move reads or writes this field of this entry. -/
def HostMove.accessesField (c : Column) (k : Nat) : HostMove → Bool
  | .memRead d i | .memWrite d i _ => d == c && i == k
  | .regRead _ _ | .regWrite _ _ _ | .wait | .reset => false

/-- The width of a field; `none` is unbounded (20_memory.md R60; a node index has no stated width,
assumption log 24). -/
def fieldWidth (p : Params) : Column → Option Nat
  | .sym | .flCp | .nodeSym | .ctSym | .out => some 32
  | .flFreq | .nodeFreq => p.freqW
  | .nodeLeaf => some 1
  | .nodeLeft | .nodeRight => none
  | .ctPat => p.lMax
  | .ctLen => if p.lMax = none then none else some 8
  | .buf => some 8

/-- The host may write the field's space (20_memory.md R60). -/
def hostWritable : Column → Bool
  | .sym | .flCp | .flFreq | .ctSym | .ctPat | .ctLen | .buf => true
  | .nodeLeaf | .nodeFreq | .nodeSym | .nodeLeft | .nodeRight | .out => false

/-- Every capacity is unbounded: the reference semantics (00_scope.md R9). -/
abbrev noCapacity (p : Params) : Prop :=
  p.nMax = none ∧ p.kMax = none ∧ p.lMax = none ∧ p.bMax = none ∧ p.freqW = none

/-- The host has kept to 70_reset_and_hazards.md R330 since the launch, and its next move keeps to it. -/
def hostKeepsRules (s : State) : Prop :=
  s.hazard = false ∧ (s.window = true → ∀ m, s.inputs.head? = some m → m.allowedInWindow = true)

/-- A step the spec defines: no hazard, and no access a model refuses (93_implementation_defined.md U9). -/
def safeStep (s : State) : Prop := hostKeepsRules s ∧ ∃ t, step s = .next t

/-! ## Trees -/

/-- `j` is a child of the internal node `q`. -/
abbrev isChild (s : State) (q j : Nat) : Prop :=
  (s.nodeAt q).leaf = false ∧ ((s.nodeAt q).left = j ∨ (s.nodeAt q).right = j)

/-- The tree invariants of 10_state.md R36, for `NODE_CNT > 0`, in a `NODE` that has room for the tree (R22). -/
abbrev TreeOk (s : State) : Prop :=
  s.regs.nodeCnt % 2 = 1 ∧
  s.regs.root + 1 = s.regs.nodeCnt ∧
  (∀ j < s.regs.nodeCnt, (s.nodeAt j).leaf = true ↔ j < (s.regs.nodeCnt + 1) / 2) ∧
  (∀ j < s.regs.nodeCnt, (s.nodeAt j).leaf = false →
    (s.nodeAt j).left < j ∧ (s.nodeAt j).right < j ∧ (s.nodeAt j).left ≠ (s.nodeAt j).right ∧
    (s.nodeAt j).freq = (s.nodeAt (s.nodeAt j).left).freq + (s.nodeAt (s.nodeAt j).right).freq) ∧
  (∀ j < s.regs.nodeCnt, j ≠ s.regs.root →
    ∃ q < s.regs.nodeCnt, isChild s q j ∧ ∀ q' < s.regs.nodeCnt, isChild s q' j → q' = q) ∧
  (∀ q < s.regs.nodeCnt, ¬ isChild s q s.regs.root) ∧
  exceeds (capacity s.cfg .node) s.regs.nodeCnt = false

/-- 10_state.md R36: whenever `NODE_CNT > 0`, `NODE` holds a tree. -/
def TreeInv (s : State) : Prop := 0 < s.regs.nodeCnt → TreeOk s

/-- Node `x` is still in the collection when node `j` is made: it exists and is no child of an earlier node
(41_build.md R161). -/
abbrev aliveAt (s : State) (j x : Nat) : Prop := x < j ∧ ∀ q < j, ¬ isChild s q x

/-- `key(x) <= key(y)` for the keys `(freq, index)` of 41_build.md R149. -/
abbrev keyLe (s : State) (x y : Nat) : Prop :=
  (s.nodeAt x).freq < (s.nodeAt y).freq ∨ ((s.nodeAt x).freq = (s.nodeAt y).freq ∧ x ≤ y)

/-- Descending from node `j` along a bit string: 0 to the left child, 1 to the right child; `none` when a leaf is
met before the string ends (42_gentab.md R172). -/
def walk (s : State) : Nat → List Bool → Option Nat
  | j, [] => some j
  | j, b :: bs =>
    if (s.nodeAt j).leaf then none else walk s (if b then (s.nodeAt j).right else (s.nodeAt j).left) bs

/-! ## Streams -/

/-- Stream bit `q`: bit `7 - (q mod 8)` of `BUF[q div 8]` (20_memory.md R64). -/
def State.streamBit (s : State) (q : Nat) : Bool := (s.bufAt (q / 8)).getLsbD (7 - q % 8)

/-- The stream in `BUF`: bits `0 .. BIT_LEN-1` (20_memory.md R64). -/
def State.streamBits (s : State) : List Bool := (List.range s.regs.bitLen).map s.streamBit

/-- The entry an encoder uses for a symbol: the lowest index with that `sym` (43_pack.md R192, R197). -/
def State.codeOf (s : State) (c : Word) : Option Entry := s.ctList.find? fun e => e.sym == c

/-- A table `CHKTAB` accepts (45_chktab.md R241 to R244), read off its entries. -/
def tableValid (p : Params) (table : List Entry) : Prop :=
  (∀ e ∈ table, exceeds p.lMax e.len = false ∧ e.pat < 2 ^ e.len) ∧
  (2 ≤ table.length → ∀ e ∈ table, e.len ≠ 0) ∧
  (∀ i j, (hi : i < table.length) → (hj : j < table.length) → i ≠ j →
    ¬ (table[i].len ≤ table[j].len ∧ table[j].pat / 2 ^ (table[j].len - table[i].len) = table[i].pat))

/-- The decoder emits this entry when its code comes next: no lower index has its pair, and no entry's code is a
proper, non-empty prefix of its code (44_unpack.md R214, R215, R225). For a table `CHKTAB` accepts: every entry of
length 1 or more. -/
def emits (table : List Entry) (e : Entry) : Prop :=
  0 < e.len ∧ e.pat < 2 ^ e.len ∧
    (∃ i, ∃ h : i < table.length, table[i] = e ∧
      ∀ j, (hj : j < i) → ¬ (table[j].len = e.len ∧ table[j].pat = e.pat)) ∧
    ∀ f ∈ table, 0 < f.len → f.len < e.len → e.pat / 2 ^ (e.len - f.len) ≠ f.pat

/-- The stream decodes: every bit lies in the buffer, the bits are a concatenation of codes the decoder can emit, and
`OUT` has room for their symbols (44_unpack.md R217, R218, R222, R228). -/
def State.decodesStream (s : State) : Prop :=
  s.regs.bitLen ≤ 8 * s.regs.bufLen ∧
    ∃ es : List Entry, (∀ e ∈ es, emits s.ctList e) ∧ es.flatMap Entry.code = s.streamBits ∧
      exceeds s.cfg.nMax es.length = false

/-- The stream overflows `OUT`: it begins with more than `N_MAX` codes the decoder can emit, all of whose bits lie in
the buffer, whatever comes after them (44_unpack.md R228, 60_exceptions.md R289). -/
def State.overflowsOut (s : State) : Prop :=
  ∃ es : List Entry, (∀ e ∈ es, emits s.ctList e) ∧ es.flatMap Entry.code <+: s.streamBits ∧
    (es.map Entry.len).sum ≤ 8 * s.regs.bufLen ∧ exceeds s.cfg.nMax es.length = true

/-! ## Agreement on what a command reads and writes -/

/-- Two states hold the same valid entries of a space: those below its length register. -/
def spaceAgrees (s t : State) : Space → Prop
  | .sym => s.symList = t.symList
  | .fl => s.flList = t.flList
  | .node => s.nodeList = t.nodeList
  | .ct => s.ctList = t.ctList
  | .buf => s.bufList = t.bufList
  | .out => s.outList = t.outList

/-- Two states agree on the read set of a command (10_state.md R45). -/
def agreeOnReads (i : Instr) (s t : State) : Prop :=
  (∀ r ∈ readRegs i, s.regs.get r = t.regs.get r) ∧ ∀ sp ∈ readSpaces i, spaceAgrees s t sp

/-- Two completions of a command report the same kind and the same results. -/
def sameResults (i : Instr) (s t : State) : Prop :=
  s.status = t.status ∧ (∀ r ∈ writeRegs i, s.regs.get r = t.regs.get r) ∧
    ∀ sp ∈ writeSpaces i, spaceAgrees s t sp

/-- `ENCODE` ends with kind `e`, its whole write set given up (46_encode_decode.md R257, 60_exceptions.md R287). -/
def encodeFails (s : State) (e : ErrKind) : Prop :=
  ∃ t, exec .encode s = .next t ∧ t.endsWith e ∧ (∀ r ∈ writeRegs .encode, t.regs.get r = 0) ∧
    ∀ sp ∈ writeSpaces .encode, t.mem.spaceFree s.freeCount sp

/-- The error kinds a command can report (60_exceptions.md R282), `CapacityExceeded` included. -/
def kindsOf : Instr → List ErrKind
  | .count => [.ok, .emptyInput, .capacityExceeded]
  | .build => [.ok, .emptyInput, .capacityExceeded]
  | .gentab => [.ok, .emptyInput, .capacityExceeded]
  | .pack => [.ok, .emptyInput, .symbolNotInTable, .capacityExceeded]
  | .unpack => [.ok, .truncatedStream, .capacityExceeded]
  | .chktab => [.ok, .invalidTable, .capacityExceeded]
  | .encode => [.ok, .emptyInput, .capacityExceeded]
  | .decode => [.ok, .invalidTable, .truncatedStream, .capacityExceeded]

/-! ## Invariants of a step -/

/-- `STATUS` as 10_state.md R23 says it reads: the reserved bits 3:2 and 31:7 are 0, code 7 is never written. -/
def statusLegal (w : Word) : Prop := w.extractLsb' 2 2 = 0 ∧ w.extractLsb' 7 25 = 0 ∧ errField w ≠ 7

/-- Every `UNSPECIFIED` entry stands for a free value that was drawn: the next draw is new. -/
def drawsPast (s : State) : Prop :=
  s.mem.sym.gen < s.freeCount ∧ s.mem.fl.cp.gen < s.freeCount ∧ s.mem.fl.freq.gen < s.freeCount ∧
  s.mem.node.leaf.gen < s.freeCount ∧ s.mem.node.freq.gen < s.freeCount ∧ s.mem.node.sym.gen < s.freeCount ∧
  s.mem.node.left.gen < s.freeCount ∧ s.mem.node.right.gen < s.freeCount ∧ s.mem.ct.sym.gen < s.freeCount ∧
  s.mem.ct.pat.gen < s.freeCount ∧ s.mem.ct.len.gen < s.freeCount ∧ s.mem.buf.gen < s.freeCount ∧
  s.mem.out.gen < s.freeCount

/-- The engine's invariant: memory canonical, `STATUS` legal, free draws new; a running command's window is open and
only a running command is spoiled; and, unless the host broke R330, `STATUS` shows `DONE = 0`, `ERR = 0` while
`BUSY = 1` (10_state.md R23, 20_memory.md R74). -/
def EngineInv (s : State) : Prop :=
  s.mem.wf = true ∧ statusLegal s.status ∧ drawsPast s ∧
  (s.busy = true → s.window = true) ∧
  (s.hazard = true → s.busy = true) ∧
  (s.busy = true → s.hazard = false → doneFlag s.status = false ∧ errField s.status = 0)

/-- Every natural field holds a value of its width (20_memory.md R62). -/
def FieldsFit (s : State) : Prop :=
  ∀ i, fits s.cfg.freqW (s.flAt i).freq = true ∧ fits s.cfg.freqW (s.nodeAt i).freq = true ∧
    fits s.cfg.lMax (s.ctAt i).pat = true ∧ fits (lenWidth s.cfg) (s.ctAt i).len = true

/-- Every count register holds a 32-bit value (10_state.md R22). -/
def RegsFit (s : State) : Prop := ∀ r, s.regs.get r < 2 ^ 32

/-- The parameters that bound a count register are finite and legal (00_scope.md R10). -/
def finiteParams (p : Params) : Prop :=
  p.legal = true ∧ p.nMax ≠ none ∧ p.kMax ≠ none ∧ p.bMax ≠ none

end Sys2Proof.Machine
end

