-- ==== Sys2Proof/Certificates/Slice0/Obligations.lean ====
section
/-! DEFINITION. The statements for the provers, from the numbered rules of spec/. A completion is always
`exec i s = .next t`; what the parameters bound is said with `exceeds`, `fits`, `codeTooLong` and `streamTooLong`
of Sys2Proof/Machine/Bits.lean (00_scope.md R10). -/

open Sys2Proof Sys2Proof.Machine

/-! ## Encodings -/

/-- 30_encoding.md R92: a word selects a command exactly when it is one of the eight words of the opcode map. -/
def Obligations.OpcodeMap : Prop :=
  ∀ w : Word,
    (decode w = .ok .count ↔ w.extractLsb' 8 24 = 0 ∧ w.extractLsb' 0 8 = 0x01) ∧
    (decode w = .ok .build ↔ w.extractLsb' 8 24 = 0 ∧ w.extractLsb' 0 8 = 0x02) ∧
    (decode w = .ok .gentab ↔ w.extractLsb' 8 24 = 0 ∧ w.extractLsb' 0 8 = 0x03) ∧
    (decode w = .ok .pack ↔ w.extractLsb' 8 24 = 0 ∧ w.extractLsb' 0 8 = 0x04) ∧
    (decode w = .ok .unpack ↔ w.extractLsb' 8 24 = 0 ∧ w.extractLsb' 0 8 = 0x05) ∧
    (decode w = .ok .chktab ↔ w.extractLsb' 8 24 = 0 ∧ w.extractLsb' 0 8 = 0x06) ∧
    (decode w = .ok .encode ↔ w.extractLsb' 8 24 = 0 ∧ w.extractLsb' 0 8 = 0x07) ∧
    (decode w = .ok .decode ↔ w.extractLsb' 8 24 = 0 ∧ w.extractLsb' 0 8 = 0x08)

/-- 30_encoding.md R92, R93: the decoder undoes the encoder, and every word it accepts is an encoder's word, so
every other word is illegal. -/
def Obligations.DecodeEncodeAgree : Prop :=
  (∀ i : Instr, i.wf = true → decode (encode i) = .ok i) ∧
    ∀ (w : Word) (i : Instr), decode w = .ok i → w = encode i

/-- 30_encoding.md R92, R93: a few words, written out from the opcode map, and three illegal ones. -/
def Obligations.WordsDecode : Prop :=
  decode 0x00000001 = .ok .count ∧ decode 0x00000004 = .ok .pack ∧ decode 0x00000008 = .ok .decode ∧
    decode 0x00000000 = .error .clearedWord ∧ decode 0x00000009 = .error (.unassignedOpcode 0x09) ∧
    decode 0x00000101 = .error .zeroFieldSet

/-- 30_encoding.md R96: the seven bytes of a record, in both byte orders, and one record after another without
padding. -/
def Obligations.RecordLayout : Prop :=
  (∀ (order : TableByteOrder) (e : Entry) (rest : List Entry),
      tableBytes order (e :: rest) = recordBytes order e ++ tableBytes order rest) ∧
  ∀ (sym : Word) (pat : BitVec 16) (len : Byte),
    let e : Entry := { sym := sym, pat := pat.toNat, len := len.toNat }
    recordBytes .bigEndian e =
        [sym.extractLsb' 24 8, sym.extractLsb' 16 8, sym.extractLsb' 8 8, sym.extractLsb' 0 8,
          pat.extractLsb' 8 8, pat.extractLsb' 0 8, len] ∧
      recordBytes .littleEndian e =
        [sym.extractLsb' 0 8, sym.extractLsb' 8 8, sym.extractLsb' 16 8, sym.extractLsb' 24 8,
          pat.extractLsb' 0 8, pat.extractLsb' 8 8, len]

/-- 30_encoding.md R95, R96: a serialised table of records that fit (16 pattern bits, 8 length bits) has 7 bytes for
each entry and reads back as the same table, in either byte order. -/
def Obligations.TableRoundTrip : Prop :=
  ∀ (order : TableByteOrder) (table : List Entry), (∀ e ∈ table, e.pat < 2 ^ 16 ∧ e.len < 2 ^ 8) →
    (tableBytes order table).length = 7 * table.length ∧
      tableOfBytes order table.length (tableBytes order table) = table

/-! ## STATUS, reset, launch -/

/-- 10_state.md R23, 60_exceptions.md R281: the places of `BUSY`, `DONE`, `ERR` and the codes of the kinds. -/
def Obligations.StatusLayout : Prop :=
  (∀ (busy done : Bool) (err : BitVec 3),
      (statusWord busy done err).toNat = busy.toNat + 2 * done.toNat + 16 * err.toNat) ∧
    ErrKind.ok.code = 0 ∧ ErrKind.emptyInput.code = 1 ∧ ErrKind.symbolNotInTable.code = 2 ∧
    ErrKind.truncatedStream.code = 3 ∧ ErrKind.invalidTable.code = 4 ∧ ErrKind.capacityExceeded.code = 5 ∧
    ErrKind.illegalCommand.code = 6

/-- 10_state.md R46: every register reads 0 after reset, and no memory entry holds a known value. -/
def Obligations.ResetValues : Prop :=
  (∀ offset, regValue State.reset offset = 0) ∧ State.reset.busy = false ∧ (∀ r, State.reset.regs.get r = 0) ∧
    State.reset.mem = .unspecified 0

/-- 70_reset_and_hazards.md R320 to R322: the reset event zeroes every register, leaves every memory entry
`UNSPECIFIED` by a new draw, and abandons a running command. -/
def Obligations.ResetEvent : Prop :=
  ∀ (s : State) (rest : List HostMove), s.inputs = .reset :: rest → engineTurn s = false →
    ∃ t, step s = .next t ∧ t.inputs = rest ∧ (∀ offset, regValue t offset = 0) ∧ t.busy = false ∧
      t.mem = .unspecified s.freeCount ∧ t.cfg = s.cfg ∧ engineTurn t = false

/-- 60_exceptions.md R290: a write of `CMD` while `BUSY = 0` latches the command and writes `BUSY`, `DONE`, `ERR`
in one atomic change, and changes nothing else the engine holds. -/
def Obligations.LaunchLatches : Prop :=
  ∀ (s : State) (w : Word) (rest : List HostMove), s.inputs = .regWrite 32 0x00 w :: rest → s.busy = false →
    ∃ t, step s = .next t ∧ t.op = opOfWord w ∧ busyFlag t.status = true ∧ doneFlag t.status = false ∧
      errField t.status = 0 ∧ t.regs = s.regs ∧ t.mem = s.mem ∧ t.inputs = rest ∧ t.window = true ∧
      t.hazard = false

/-- 70_reset_and_hazards.md R331: a write of `CMD` while `BUSY = 1` is dropped: the move is taken off the host's
list and changes nothing the engine holds. -/
def Obligations.CmdWhileBusyDropped : Prop :=
  ∀ (s : State) (w : Word) (rest : List HostMove), s.inputs = .regWrite 32 0x00 w :: rest → s.busy = true →
    engineTurn s = false →
    ∃ t, step s = .next t ∧ t.inputs = rest ∧ t.status = s.status ∧ t.op = s.op ∧ t.int = s.int ∧
      t.regs = s.regs ∧ t.mem = s.mem ∧ t.window = s.window ∧ t.hazard = s.hazard ∧ t.observed = s.observed

/-- 60_exceptions.md R286, 30_encoding.md R93: the launch of an illegal word completes with `IllegalCommand` and
changes no register but `STATUS` and no memory. -/
def Obligations.IllegalWordChangesOnlyStatus : Prop :=
  ∀ (s : State) (w : Word) (r : IllegalWord), decode w = .error r → engineTurn (s.launch w) = true →
    ∃ t, step (s.launch w) = .next t ∧ t.endsWith .illegalCommand ∧ t.regs = s.regs ∧ t.mem = s.mem

/-- 20_memory.md R74: when it is the engine's turn and the host broke no rule, a step runs the latched command; and
a word's instruction, latched, is what the next step runs (assumption log 18). -/
def Obligations.StepRunsDecodedCommand : Prop :=
  (∀ (s : State) (i : Instr), engineTurn s = true → s.hazard = false → s.op = .command i →
      step s = exec i s) ∧
    (∀ (w : Word) (i : Instr), decode w = .ok i → opOfWord w = .command i) ∧
    (∀ (s : State) (nbits w : Nat) (i : Instr), decodeTableWord nbits w = some i →
      step (s.withFetchWord nbits w) = exec i (s.withFetchWord nbits w) ∧
        (s.withFetchWord nbits w).regs = s.regs ∧ (s.withFetchWord nbits w).mem = s.mem)

/-! ## The host's accesses -/

/-- 10_state.md R21, 20_memory.md R70, R73, 70_reset_and_hazards.md R330: with `BUSY = 0` a read of an aligned register
returns its value and changes no register and no memory: of `STATUS` always, and that read closes the hazard window; of
another register outside the window. `CMD` and the reserved offsets read 0. -/
def Obligations.RegisterReads : Prop :=
  ∀ (s : State) (offset : Nat) (rest : List HostMove), s.inputs = .regRead 32 offset :: rest →
    offset % 4 = 0 → s.busy = false → (s.window = true → offset = 0x04) →
    ∃ t v, step s = .next t ∧ t.observed = v :: s.observed ∧ t.inputs = rest ∧ t.status = s.status ∧
      t.regs = s.regs ∧ t.mem = s.mem ∧ t.window = false ∧
      (offset = 0x04 → v = s.status.toNat) ∧
      (∀ x ∈ registerMap, offset = x.1 → v = s.regs.get x.2.1) ∧
      (offset = 0x00 ∨ 0x28 ≤ offset → v = 0)

/-- 10_state.md R21: outside the hazard window a write of an aligned register other than `CMD` writes that register
when the table says `RW`, and is ignored when it says `RO` or reserves the offset. -/
def Obligations.RegisterWrites : Prop :=
  ∀ (s : State) (offset : Nat) (v : Word) (rest : List HostMove), s.inputs = .regWrite 32 offset v :: rest →
    offset % 4 = 0 → offset ≠ 0 → s.busy = false → s.window = false →
    ∃ t, step s = .next t ∧ t.inputs = rest ∧ t.status = s.status ∧ t.mem = s.mem ∧ t.op = s.op ∧
      ∀ x ∈ registerMap,
        t.regs.get x.2.1 = if offset = x.1 ∧ x.2.2 = true then v.toNat else s.regs.get x.2.1

/-- 20_memory.md R60, R62, R70: outside the hazard window a write of one field of one entry stores the value reduced
to the field's width when the space is `RW`, is ignored when it is `RO`, and changes no other field. The model's own
readings: an `RO` space ignores the write (assumption log 12); `CT.len` has no finite width when `L_MAX` has none (log
13), though R60 and 10_state.md R33 give it 8 bits; a field without a finite width keeps the natural (log 14). -/
def Obligations.MemoryWrites : Prop :=
  ∀ (s : State) (c : Column) (i v : Nat) (rest : List HostMove), s.inputs = .memWrite c i v :: rest →
    memIndexWf s.cfg c i = true → s.busy = false → s.window = false →
    ∃ t, step s = .next t ∧ t.inputs = rest ∧ t.status = s.status ∧ t.regs = s.regs ∧
      (hostWritable c = true → t.fieldAt c i = reduceTo (fieldWidth s.cfg c) v) ∧
      ∀ d k, (hostWritable c = false ∨ d ≠ c ∨ k ≠ i) → t.fieldAt d k = s.fieldAt d k

/-- 20_memory.md R62, R70: outside the hazard window a read of one field returns its value, which fits the field's
width if every field does, and changes nothing else. The width of `CT.len` is the model's when `L_MAX` is unbounded
(assumption log 13). -/
def Obligations.MemoryReads : Prop :=
  ∀ (s : State) (c : Column) (i : Nat) (rest : List HostMove), s.inputs = .memRead c i :: rest →
    memIndexWf s.cfg c i = true → s.busy = false → s.window = false →
    ∃ t, step s = .next t ∧ t.inputs = rest ∧ t.observed = s.fieldAt c i :: s.observed ∧ t.status = s.status ∧
      t.regs = s.regs ∧ t.mem = s.mem ∧ (FieldsFit s → fits (fieldWidth s.cfg c) (s.fieldAt c i) = true)

/-- 20_memory.md R61, R63: the accesses the spec does not define are refused, by name, and only those. -/
def Obligations.UndefinedAccessRefused : Prop :=
  (∀ (s : State) (width offset : Nat),
      hostMove (.regRead width offset) s = .refused (.regAccess width offset) ↔ width ≠ 32 ∨ offset % 4 ≠ 0) ∧
    (∀ (s : State) (width offset : Nat) (v : Word),
      hostMove (.regWrite width offset v) s = .refused (.regAccess width offset) ↔ width ≠ 32 ∨ offset % 4 ≠ 0) ∧
    (∀ (s : State) (c : Column) (i v : Nat),
      (hostMove (.memRead c i) s = .refused (.memIndex c i) ↔ ∃ n, capacity s.cfg (spaceOf c) = some n ∧ n ≤ i) ∧
      (hostMove (.memWrite c i v) s = .refused (.memIndex c i) ↔
        ∃ n, capacity s.cfg (spaceOf c) = some n ∧ n ≤ i))

/-- 20_memory.md R74: a read of `STATUS` while a command runs returns `BUSY = 1`, `DONE = 0`, `ERR = 0` and
disturbs nothing. -/
def Obligations.StatusReadWhileBusy : Prop :=
  ∀ (s : State) (rest : List HostMove), EngineInv s → s.busy = true → s.hazard = false →
    engineTurn s = false → s.inputs = .regRead 32 0x04 :: rest →
    ∃ t, step s = .next t ∧ t.observed = 1 :: s.observed ∧ t.inputs = rest ∧ t.status = s.status ∧ t.op = s.op ∧
      t.regs = s.regs ∧ t.mem = s.mem ∧ t.window = true ∧ t.hazard = false

/-- 70_reset_and_hazards.md R330: whatever the host did, when it is the engine's turn the running command completes;
after a hazard only what the command touches may differ from the state before. -/
def Obligations.EngineAlwaysCompletes : Prop :=
  ∀ s : State, engineTurn s = true →
    ∃ t, step s = .next t ∧ t.busy = false ∧ doneFlag t.status = true ∧ t.inputs = s.inputs ∧
      (s.hazard = true →
        t.hazard = false ∧ (∀ r ∉ s.op.touchedRegs, t.regs.get r = s.regs.get r) ∧
          ∀ c k, spaceOf c ∉ s.op.touchedSpaces → t.fieldAt c k = s.fieldAt c k)

/-- 93_implementation_defined.md U8 as the model reads it (assumption log 10, 11): what an access that breaks
70_reset_and_hazards.md R330 leaves alone. `BUSY`, the latched command and the open window stay, and `DONE` unless
`STATUS` itself is accessed. While the command runs only the accessed location changes at once; after its completion
also what the command touches, and `ERR`. -/
def Obligations.HazardTouchesOnly : Prop :=
  ∀ (s : State) (m : HostMove) (rest : List HostMove), s.inputs = m :: rest → engineTurn s = false →
    s.window = true → m.allowedInWindow = false → m.defined s.cfg = true →
    ∃ t, step s = .next t ∧ t.inputs = rest ∧ t.cfg = s.cfg ∧ t.busy = s.busy ∧ t.op = s.op ∧ t.window = true ∧
      (s.busy = true → t.hazard = true) ∧
      (m.accessesStatus = false →
        doneFlag t.status = doneFlag s.status ∧ (s.busy = true → t.status = s.status)) ∧
      (∀ r, m.accessesReg r = false → s.busy = true ∨ r ∉ s.op.touchedRegs → t.regs.get r = s.regs.get r) ∧
      ∀ c k, m.accessesField c k = false → s.busy = true ∨ spaceOf c ∉ s.op.touchedSpaces →
        t.fieldAt c k = s.fieldAt c k

/-- 70_reset_and_hazards.md R334, 30_encoding.md R102: a host that waits sees `BUSY = 0` after finitely many steps,
at most two more than the free latency of the launch. -/
def Obligations.WaitEnds : Prop :=
  ∀ (s : State) (rest : List HostMove), s.busy = true → s.inputs = .wait :: rest →
    ∃ n t, n ≤ s.latency + 2 ∧ core.run n s = .next t ∧ t.inputs = rest ∧ t.busy = false ∧
      doneFlag t.status = true ∧ t.window = false

/-- 30_encoding.md R103, 20_memory.md R73: `RUN m` on an idle engine ends, after finitely many steps, in the results
of the command on the registers and memories it found. -/
def Obligations.RunLineRunsCommand : Prop :=
  ∀ (s : State) (i : Instr) (rest : List HostMove), s.busy = false → s.inputs = pseudoRun i ++ rest →
    ∃ n t u, core.run n s = .next t ∧ exec i (s.launch (encode i)) = .next u ∧ t.inputs = rest ∧
      t.status = u.status ∧ t.regs = u.regs ∧ t.mem = u.mem ∧ t.window = false

/-- 30_encoding.md R103: `SYMS v0, v1, ...` on an idle engine whose window is closed leaves the sequence in `SYM`
with its length in `SYM_LEN`. -/
def Obligations.SymsLineLoads : Prop :=
  ∀ (s : State) (vs : List Word) (rest : List HostMove), s.busy = false → s.window = false →
    vs.length < 2 ^ 32 → exceeds s.cfg.nMax vs.length = false → s.inputs = pseudoSyms vs ++ rest →
    ∃ t, core.run (vs.length + 1) s = .next t ∧ t.symList = vs ∧ t.inputs = rest ∧ t.status = s.status ∧
      (∀ r ≠ .symLen, t.regs.get r = s.regs.get r) ∧ ∀ c ≠ .sym, ∀ k, t.fieldAt c k = s.fieldAt c k

/-! ## Every command -/

/-- 10_state.md R45, 70_reset_and_hazards.md R333: every command completes, with `BUSY = 0` and `DONE = 1`, and
changes no register and no memory outside its write set, nor the configuration and the host's moves. Beside that the
model's own: the latched command stays (assumption log 6, where the spec discards it), and so does the bookkeeping of
the hazard window (log 10, 11). -/
def Obligations.CommandFrame : Prop :=
  ∀ (i : Instr) (s : State), ∃ t, exec i s = .next t ∧ busyFlag t.status = false ∧ doneFlag t.status = true ∧
    (∀ r ∉ writeRegs i, t.regs.get r = s.regs.get r) ∧
    (∀ c k, spaceOf c ∉ writeSpaces i → t.fieldAt c k = s.fieldAt c k) ∧
    t.op = s.op ∧ t.cfg = s.cfg ∧ t.inputs = s.inputs ∧ t.observed = s.observed ∧ t.window = s.window ∧
    t.hazard = s.hazard

/-- 60_exceptions.md R282, R285, 70_reset_and_hazards.md R333: in every state each command reports one of the kinds the
table gives it, and never `CapacityExceeded` when every capacity is unbounded. (Where `NODE` holds no tree, which of
`GENTAB`'s kinds is free: assumption log 15.) -/
def Obligations.KindsReported : Prop :=
  ∀ (i : Instr) (s : State),
    ∃ t e, exec i s = .next t ∧ t.endsWith e ∧ e ∈ kindsOf i ∧ (noCapacity s.cfg → e ≠ .capacityExceeded)

/-- 60_exceptions.md R287: error entry. Every register of the write set is 0, every memory of it `UNSPECIFIED` by a
new draw, everything else as at launch, the internal state discarded, `STATUS` by `endsWith`; an illegal word's write
set is empty. -/
def Obligations.ErrorEntry : Prop :=
  (∀ (i : Instr) (s t : State) (e : ErrKind), exec i s = .next t → t.endsWith e → e ≠ .ok →
      (∀ r ∈ writeRegs i, t.regs.get r = 0) ∧ (∀ sp ∈ writeSpaces i, t.mem.spaceFree s.freeCount sp) ∧
      (∀ r ∉ writeRegs i, t.regs.get r = s.regs.get r) ∧
      (∀ c k, spaceOf c ∉ writeSpaces i → t.fieldAt c k = s.fieldAt c k) ∧ t.int = .empty) ∧
    ∀ s : State, s.op = .illegal → s.hazard = false → engineTurn s = true →
      ∃ t, step s = .next t ∧ t.endsWith .illegalCommand ∧ t.regs = s.regs ∧ t.mem = s.mem ∧ t.int = .empty

/-- 10_state.md R45, 00_scope.md R17: a command's result depends on nothing but its read set. Two states that agree
on it complete with the same kind and the same results. -/
def Obligations.ResultDependsOnReadSet : Prop :=
  ∀ (i : Instr) (s s' t t' : State), s.cfg = s'.cfg → TreeInv s → TreeInv s' → agreeOnReads i s s' →
    exec i s = .next t → exec i s' = .next t' → sameResults i t t'

/-- 00_scope.md R9, 60_exceptions.md R285: every success with finite capacities is a success of the reference
semantics with the same result. -/
def Obligations.CapacitiesOnlyRefuse : Prop :=
  ∀ (i : Instr) (s s' t t' : State), noCapacity s'.cfg → TreeInv s → TreeInv s' → agreeOnReads i s s' →
    exec i s = .next t → t.endsWith .ok → exec i s' = .next t' → sameResults i t t'

/-! ## COUNT -/

/-- 40_count.md R125: the output contract of a `COUNT` within capacity; entries of `FL` at and above `FL_LEN` are
`UNSPECIFIED` (60_exceptions.md R291). -/
def Obligations.CountResult : Prop :=
  ∀ s : State, 0 < s.regs.symLen → exceeds s.cfg.nMax s.regs.symLen = false →
    (∀ c ∈ s.symList, fits s.cfg.freqW (s.symList.count c) = true) →
    exceeds s.cfg.kMax s.symList.dedup.length = false →
    ∃ t, exec .count s = .next t ∧ t.endsWith .ok ∧ 1 ≤ t.regs.flLen ∧ t.regs.flLen ≤ s.regs.symLen ∧
      t.regs.flLen = s.symList.dedup.length ∧ (t.flList.map Symbol.cp).Nodup ∧
      (∀ c, c ∈ t.flList.map Symbol.cp ↔ c ∈ s.symList) ∧ (∀ x ∈ t.flList, x.freq = s.symList.count x.cp) ∧
      (t.flList.Pairwise fun x y =>
        x.freq < y.freq ∨ (x.freq = y.freq ∧ s.symList.idxOf x.cp < s.symList.idxOf y.cp)) ∧
      t.mem.freeFrom s.freeCount t.regs.flLen .fl

/-- 40_count.md R121, R126, 60_exceptions.md R289: when `COUNT` fails, and in which order the kinds are tested. -/
def Obligations.CountErrors : Prop :=
  ∀ s : State,
    (exceeds s.cfg.nMax s.regs.symLen = true → ∃ t, exec .count s = .next t ∧ t.endsWith .capacityExceeded) ∧
    (exceeds s.cfg.nMax s.regs.symLen = false → s.regs.symLen = 0 →
      ∃ t, exec .count s = .next t ∧ t.endsWith .emptyInput) ∧
    (exceeds s.cfg.nMax s.regs.symLen = false → s.regs.symLen ≠ 0 →
      ((∃ c ∈ s.symList, fits s.cfg.freqW (s.symList.count c) = false) ∨
        exceeds s.cfg.kMax s.symList.dedup.length = true) →
      ∃ t, exec .count s = .next t ∧ t.endsWith .capacityExceeded)

/-! ## BUILD -/

/-- 41_build.md R142, R143, R149, R153: `BUILD` within capacity. The leaves stand in list order; each internal node's
children are the two lowest nodes of the collection at its creation, left below right; the root is the last node
and holds the sum of all frequencies; the tree invariants of 10_state.md R36 hold; entries at and above `NODE_CNT` are
`UNSPECIFIED` (60_exceptions.md R291). -/
def Obligations.BuildMergesLowest : Prop :=
  ∀ s : State, 0 < s.regs.flLen → exceeds s.cfg.kMax s.regs.flLen = false →
    (s.regs.flLen = 1 ∨ fits s.cfg.freqW (s.flList.map Symbol.freq).sum = true) →
    ∃ t, exec .build s = .next t ∧ t.endsWith .ok ∧ t.regs.nodeCnt = 2 * s.regs.flLen - 1 ∧
      t.regs.root = 2 * s.regs.flLen - 2 ∧
      (∀ j < s.regs.flLen, t.nodeAt j =
        { leaf := true, freq := (s.flAt j).freq, sym := (s.flAt j).cp, left := 0, right := 0 }) ∧
      (∀ j, s.regs.flLen ≤ j → j < t.regs.nodeCnt →
        (t.nodeAt j).leaf = false ∧ (t.nodeAt j).sym = 0 ∧
        aliveAt t j (t.nodeAt j).left ∧ aliveAt t j (t.nodeAt j).right ∧ (t.nodeAt j).left ≠ (t.nodeAt j).right ∧
        (t.nodeAt j).freq = (t.nodeAt (t.nodeAt j).left).freq + (t.nodeAt (t.nodeAt j).right).freq ∧
        (∀ x, aliveAt t j x → keyLe t (t.nodeAt j).left x) ∧
        (∀ x, aliveAt t j x → x ≠ (t.nodeAt j).left → keyLe t (t.nodeAt j).right x)) ∧
      (t.nodeAt t.regs.root).freq = (s.flList.map Symbol.freq).sum ∧ TreeOk t ∧
      t.mem.freeFrom s.freeCount t.regs.nodeCnt .node

/-- 41_build.md R155: two symbols, one merge. -/
def Obligations.BuildTwoSymbols : Prop :=
  ∀ s : State, s.regs.flLen = 2 → exceeds s.cfg.kMax 2 = false →
    fits s.cfg.freqW ((s.flAt 0).freq + (s.flAt 1).freq) = true →
    ∃ t, exec .build s = .next t ∧ t.endsWith .ok ∧ t.regs.nodeCnt = 3 ∧ t.regs.root = 2 ∧
      t.nodeAt 2 =
        { leaf := false, freq := (s.flAt 0).freq + (s.flAt 1).freq, sym := 0,
          left := if (s.flAt 0).freq ≤ (s.flAt 1).freq then 0 else 1,
          right := if (s.flAt 0).freq ≤ (s.flAt 1).freq then 1 else 0 }

/-- 41_build.md R150, R152, 60_exceptions.md R289: when `BUILD` fails, and in which order the kinds are tested. -/
def Obligations.BuildErrors : Prop :=
  ∀ s : State,
    (exceeds s.cfg.kMax s.regs.flLen = true → ∃ t, exec .build s = .next t ∧ t.endsWith .capacityExceeded) ∧
    (exceeds s.cfg.kMax s.regs.flLen = false → s.regs.flLen = 0 →
      ∃ t, exec .build s = .next t ∧ t.endsWith .emptyInput) ∧
    (exceeds s.cfg.kMax s.regs.flLen = false → 2 ≤ s.regs.flLen →
      fits s.cfg.freqW (s.flList.map Symbol.freq).sum = false →
      ∃ t, exec .build s = .next t ∧ t.endsWith .capacityExceeded)

/-! ## GENTAB -/

/-- 42_gentab.md R171, R172, R174, R177: `GENTAB` on a tree whose codes all fit. One entry for each leaf; an entry's
code is the path from the root to its leaf; the entries stand in ascending order of their codes, no code a prefix
of another; entries of `CT` at and above `CT_LEN` are `UNSPECIFIED` (60_exceptions.md R291). -/
def Obligations.GentabWritesPaths : Prop :=
  ∀ s : State, TreeOk s → (s.nodeAt s.regs.root).leaf = false →
    (∀ bs j, walk s s.regs.root bs = some j → (s.nodeAt j).leaf = true → codeTooLong s.cfg bs.length = false) →
    ∃ (t : State) (leaves : List Nat), exec .gentab s = .next t ∧ t.endsWith .ok ∧ t.regs.ctLen = (s.regs.nodeCnt + 1) / 2 ∧
      leaves.Perm (List.range t.regs.ctLen) ∧
      (∀ i < t.regs.ctLen, ∃ j, leaves[i]? = some j ∧ (s.nodeAt j).leaf = true ∧
        walk s s.regs.root (t.ctAt i).code = some j ∧ (t.ctAt i).sym = (s.nodeAt j).sym ∧
        (t.ctAt i).pat < 2 ^ (t.ctAt i).len ∧ 1 ≤ (t.ctAt i).len ∧ exceeds s.cfg.lMax (t.ctAt i).len = false) ∧
      (∀ k < t.regs.ctLen, ∀ i < k,
        ∃ c x y, (t.ctAt i).code = c ++ false :: x ∧ (t.ctAt k).code = c ++ true :: y) ∧
      t.mem.freeFrom s.freeCount t.regs.ctLen .ct

/-- 42_gentab.md R173: a root that is a leaf gets the code `0` with length 1; every other entry of `CT` is `UNSPECIFIED`
(60_exceptions.md R291). -/
def Obligations.GentabSingleLeaf : Prop :=
  ∀ s : State, TreeOk s → (s.nodeAt s.regs.root).leaf = true → codeTooLong s.cfg 1 = false →
    ∃ t, exec .gentab s = .next t ∧ t.endsWith .ok ∧ t.regs.ctLen = 1 ∧
      t.ctAt 0 = { sym := (s.nodeAt s.regs.root).sym, pat := 0, len := 1 } ∧ t.mem.freeFrom s.freeCount 1 .ct

/-- 42_gentab.md R178, R179, 20_memory.md R62, R63, 60_exceptions.md R289: no tree is `EmptyInput`; a leaf whose code
does not fit is `CapacityExceeded`. The model's own readings: with a finite `L_MAX` a code of more than 255 bits does not
fit (assumption log 13), a single leaf's code of length 1 must fit too (log 28), and `NODE_CNT` above the capacity of
`NODE` is `CapacityExceeded` (log 29). -/
def Obligations.GentabErrors : Prop :=
  ∀ s : State,
    (s.regs.nodeCnt = 0 → ∃ t, exec .gentab s = .next t ∧ t.endsWith .emptyInput) ∧
    (TreeOk s → (s.nodeAt s.regs.root).leaf = false →
      (∃ bs j, walk s s.regs.root bs = some j ∧ (s.nodeAt j).leaf = true ∧ codeTooLong s.cfg bs.length = true) →
      ∃ t, exec .gentab s = .next t ∧ t.endsWith .capacityExceeded) ∧
    (TreeOk s → (s.nodeAt s.regs.root).leaf = true → codeTooLong s.cfg 1 = true →
      ∃ t, exec .gentab s = .next t ∧ t.endsWith .capacityExceeded) ∧
    (exceeds (capacity s.cfg .node) s.regs.nodeCnt = true →
      ∃ t, exec .gentab s = .next t ∧ t.endsWith (if s.regs.nodeCnt = 0 then .emptyInput else .capacityExceeded))

/-! ## PACK -/

/-- 43_pack.md R194: the result of a `PACK` within capacity all of whose symbols have entries: the stream is the
concatenation of their codes, most significant bit first; `BIT_LEN` its length; `BUF_LEN = ceil8(BIT_LEN)`; the
padding is 0; bytes at and above `BUF_LEN` are `UNSPECIFIED`; `CT` is as before. -/
def Obligations.PackResult : Prop :=
  ∀ (s : State) (es : List Entry), 0 < s.regs.symLen → exceeds s.cfg.nMax s.regs.symLen = false →
    exceeds s.cfg.kMax s.regs.ctLen = false → s.symList.map s.codeOf = es.map some →
    streamTooLong s.cfg (es.map Entry.len).sum = false →
    ∃ t, exec .pack s = .next t ∧ t.endsWith .ok ∧ t.regs.bitLen = (es.map Entry.len).sum ∧
      t.regs.bufLen = (t.regs.bitLen + 7) / 8 ∧ t.streamBits = es.flatMap Entry.code ∧
      (∀ q, t.regs.bitLen ≤ q → q < 8 * t.regs.bufLen → t.streamBit q = false) ∧
      t.mem.freeFrom s.freeCount t.regs.bufLen .buf ∧
      t.mem.ct = s.mem.ct ∧ t.regs.ctLen = s.regs.ctLen

/-- 43_pack.md R195, 60_exceptions.md R289: when `PACK` fails, and in which order the kinds are tested. `es` are the
entries of the symbols before the first one that decides. -/
def Obligations.PackErrors : Prop :=
  ∀ s : State,
    ((exceeds s.cfg.nMax s.regs.symLen = true ∨ exceeds s.cfg.kMax s.regs.ctLen = true) →
      ∃ t, exec .pack s = .next t ∧ t.endsWith .capacityExceeded) ∧
    (exceeds s.cfg.nMax s.regs.symLen = false → exceeds s.cfg.kMax s.regs.ctLen = false → s.regs.symLen = 0 →
      ∃ t, exec .pack s = .next t ∧ t.endsWith .emptyInput) ∧
    (exceeds s.cfg.nMax s.regs.symLen = false → exceeds s.cfg.kMax s.regs.ctLen = false →
      ∀ (i : Nat) (es : List Entry), i < s.regs.symLen → (s.symList.take i).map s.codeOf = es.map some →
        (s.codeOf (s.symAt i) = none → streamTooLong s.cfg (es.map Entry.len).sum = false →
          ∃ t, exec .pack s = .next t ∧ t.endsWith .symbolNotInTable) ∧
        (∀ e, s.codeOf (s.symAt i) = some e → streamTooLong s.cfg ((es.map Entry.len).sum + e.len) = true →
          ∃ t, exec .pack s = .next t ∧ t.endsWith .capacityExceeded))

/-! ## UNPACK -/

/-- 44_unpack.md R215, R221, R225, 46_encode_decode.md R258: a stream that is the concatenation of codes the decoder
can emit decodes to their symbols, in order: by `UNPACK` whatever else the table holds, by `DECODE` when the table is
valid; entries of `OUT` at and above `OUT_LEN` are `UNSPECIFIED` (60_exceptions.md R291). -/
def Obligations.ConcatenationDecodes : Prop :=
  ∀ (i : Instr) (s : State) (es : List Entry), (i = .unpack ∨ (i = .decode ∧ tableValid s.cfg s.ctList)) →
    exceeds s.cfg.bMax s.regs.bufLen = false → exceeds s.cfg.kMax s.regs.ctLen = false →
    s.regs.bitLen ≤ 8 * s.regs.bufLen → (∀ e ∈ es, emits s.ctList e) →
    es.flatMap Entry.code = s.streamBits → exceeds s.cfg.nMax es.length = false →
    ∃ t, exec i s = .next t ∧ t.endsWith .ok ∧ t.regs.outLen = es.length ∧ t.outList = es.map Entry.sym ∧
      t.mem.freeFrom s.freeCount t.regs.outLen .out

/-- 44_unpack.md R221: in a table `CHKTAB` accepts, at most one entry matches the accumulator at any moment and the
decoder's match is that one; and a stream that is a concatenation of the table's codes, each of length 1 or more,
decodes to exactly the symbols whose codes were concatenated, in order. -/
def Obligations.ValidTableEmitsAll : Prop :=
  ∀ s t : State, exec .chktab s = .next t → t.endsWith .ok →
    (∀ (j : Nat) (e : Entry), s.ctList[j]? = some e →
      matchOf s.ctList e.pat e.len = some e ∧
        ∀ (j' : Nat) (e' : Entry), s.ctList[j']? = some e' → e'.len = e.len → e'.pat = e.pat → j' = j) ∧
    ∀ (i : Instr) (es : List Entry), (i = .unpack ∨ i = .decode) → (∀ e ∈ es, e ∈ s.ctList ∧ 0 < e.len) →
      es.flatMap Entry.code = s.streamBits → s.regs.bitLen ≤ 8 * s.regs.bufLen →
      exceeds s.cfg.bMax s.regs.bufLen = false → exceeds s.cfg.nMax es.length = false →
      ∃ u, exec i s = .next u ∧ u.endsWith .ok ∧ u.outList = es.map Entry.sym

/-- 44_unpack.md R218, R222, R225, R228, R230, 60_exceptions.md R289: how `UNPACK` ends, for any table and any stream
within `B_MAX` and `K_MAX`: `Ok` when the stream decodes, `CapacityExceeded` when it overflows `OUT` (also when a byte is
missing after that), `TruncatedStream` in every other case. -/
def Obligations.UnpackSucceedsIff : Prop :=
  ∀ s : State, exceeds s.cfg.bMax s.regs.bufLen = false → exceeds s.cfg.kMax s.regs.ctLen = false →
    ∃ t, exec .unpack s = .next t ∧
      (s.decodesStream → t.endsWith .ok) ∧ (s.overflowsOut → t.endsWith .capacityExceeded) ∧
      (¬ s.decodesStream → ¬ s.overflowsOut → t.endsWith .truncatedStream)

/-- 44_unpack.md R211, R228, 60_exceptions.md R289: `CapacityExceeded` comes first for `BUF_LEN` and `CT_LEN`; a
stream with more symbols than `OUT` holds is `CapacityExceeded`, whatever comes after them, a missing byte included. -/
def Obligations.UnpackCapacity : Prop :=
  ∀ s : State,
    ((exceeds s.cfg.bMax s.regs.bufLen = true ∨ exceeds s.cfg.kMax s.regs.ctLen = true) →
      ∃ t, exec .unpack s = .next t ∧ t.endsWith .capacityExceeded) ∧
    ∀ es : List Entry, (es.map Entry.len).sum ≤ 8 * s.regs.bufLen → (∀ e ∈ es, emits s.ctList e) →
      es.flatMap Entry.code <+: s.streamBits → exceeds s.cfg.nMax es.length = true →
      ∃ t, exec .unpack s = .next t ∧ t.endsWith .capacityExceeded

/-- 44_unpack.md R219: no more symbols than bits. -/
def Obligations.OutLenAtMostBitLen : Prop :=
  ∀ (i : Instr) (s t : State), i = .unpack ∨ i = .decode → exec i s = .next t → t.regs.outLen ≤ s.regs.bitLen

/-- 44_unpack.md R223, 20_memory.md R66: bits at and above `BIT_LEN` do not influence the result, nor does how far
`BUF_LEN` goes beyond them. -/
def Obligations.PaddingIgnored : Prop :=
  ∀ s s' t t' : State, s.cfg = s'.cfg → s.ctList = s'.ctList → s.streamBits = s'.streamBits →
    s.regs.bitLen ≤ 8 * s.regs.bufLen → s'.regs.bitLen ≤ 8 * s'.regs.bufLen →
    exceeds s.cfg.bMax s.regs.bufLen = false → exceeds s.cfg.bMax s'.regs.bufLen = false →
    exec .unpack s = .next t → exec .unpack s' = .next t' → sameResults .unpack t t'

/-! ## CHKTAB -/

/-- 45_chktab.md R247, R250: the verdict is `InvalidTable` exactly when one of R242, R243, R244 finds a fault, and
nothing but `STATUS` changes; a table longer than `CT` is `CapacityExceeded` before that. -/
def Obligations.ChktabVerdict : Prop :=
  ∀ s : State, ∃ t, exec .chktab s = .next t ∧ t.regs = s.regs ∧ t.mem = s.mem ∧
    (exceeds s.cfg.kMax s.regs.ctLen = false →
      (tableValid s.cfg s.ctList → t.endsWith .ok) ∧ (¬ tableValid s.cfg s.ctList → t.endsWith .invalidTable)) ∧
    (exceeds s.cfg.kMax s.regs.ctLen = true → t.endsWith .capacityExceeded)

/-- 45_chktab.md R249: a table a successful `GENTAB` writes from a tree is accepted by `CHKTAB`. -/
def Obligations.GeneratedTableAccepted : Prop :=
  ∀ s t : State, TreeInv s → exec .gentab s = .next t → t.endsWith .ok →
    ∃ u, exec .chktab t = .next u ∧ u.endsWith .ok ∧ u.ctList = t.ctList

/-! ## ENCODE and DECODE -/

/-- 46_encode_decode.md R263: for a non-empty sequence within capacity (every capacity unbounded, or `ENCODE` does
not report one passed), `ENCODE` succeeds and `DECODE` gives the sequence back. -/
def Obligations.EncodeDecodeRoundTrip : Prop :=
  ∀ s : State, 1 ≤ s.regs.symLen →
    (noCapacity s.cfg ∨ ∃ t, exec .encode s = .next t ∧ ¬ t.endsWith .capacityExceeded) →
    ∃ t u, exec .encode s = .next t ∧ t.endsWith .ok ∧ exec .decode t = .next u ∧ u.endsWith .ok ∧
      u.regs.outLen = s.regs.symLen ∧ ∀ i < s.regs.symLen, u.outAt i = s.symAt i

/-- 42_gentab.md R178, 46_encode_decode.md R256: with `L_MAX` the only capacity, `ENCODE` of a non-empty sequence with
at most `L_MAX + 1` distinct symbols succeeds: a tree of `k` leaves is at most `k - 1` deep. -/
def Obligations.EncodeWithinCodeLength : Prop :=
  ∀ (s : State) (l : Nat), s.cfg.nMax = none → s.cfg.kMax = none → s.cfg.bMax = none → s.cfg.freqW = none →
    s.cfg.lMax = some l → 1 ≤ l → l ≤ 255 → 1 ≤ s.regs.symLen → s.symList.dedup.length ≤ l + 1 →
    ∃ t, exec .encode s = .next t ∧ t.endsWith .ok ∧ t.regs.flLen = s.symList.dedup.length ∧
      t.regs.ctLen = s.symList.dedup.length ∧ ∀ e ∈ t.ctList, 1 ≤ e.len ∧ e.len ≤ l

/-- 46_encode_decode.md R265: the bit length is the sum over the frequency list of frequency times code length. -/
def Obligations.BitAccounting : Prop :=
  ∀ s t : State, exec .encode s = .next t → t.endsWith .ok →
    (∀ x ∈ t.flList, ∃ e, t.codeOf x.cp = some e) ∧
      t.regs.bitLen = (t.flList.map fun x => x.freq * ((t.codeOf x.cp).map Entry.len).getD 0).sum

/-- 46_encode_decode.md R262: when none fails, the four stage commands one after another end in the state `ENCODE`
ends in. R262 says so with `UNSPECIFIED` entries aside; that those agree too, and the count of draws, is the model's own
numbering of draws (assumption log 3, 5). -/
def Obligations.EncodeIsFourStages : Prop :=
  ∀ s a b c d : State, exec .count s = .next a → a.endsWith .ok → exec .build a = .next b → b.endsWith .ok →
    exec .gentab b = .next c → c.endsWith .ok → exec .pack c = .next d → d.endsWith .ok →
    exec .encode s = .next d

/-- 46_encode_decode.md R257: a stage that ends with an error kind ends `ENCODE` with that kind, and the whole write set
of `ENCODE` is given up, not the stage's. Each stage starts where the stage before it ended. -/
def Obligations.EncodeFailsWithStage : Prop :=
  ∀ s a : State, exec .count s = .next a →
    (∀ e ≠ .ok, a.endsWith e → encodeFails s e) ∧
    (a.endsWith .ok → ∀ b, exec .build a = .next b →
      (∀ e ≠ .ok, b.endsWith e → encodeFails s e) ∧
      (b.endsWith .ok → ∀ c, exec .gentab b = .next c →
        (∀ e ≠ .ok, c.endsWith e → encodeFails s e) ∧
        (c.endsWith .ok → ∀ d, exec .pack c = .next d → ∀ e ≠ .ok, d.endsWith e → encodeFails s e)))

/-- 46_encode_decode.md R258, R261, 60_exceptions.md R289: within capacity `DECODE` is `UNPACK` for a valid table and for
`BIT_LEN = 0`. With `BIT_LEN > 0` the order of its checks is `CT_LEN` above `K_MAX`, then a malformed table (whatever
`BUF_LEN` is), then `BUF_LEN` above `B_MAX`. -/
def Obligations.DecodeIsCheckedUnpack : Prop :=
  ∀ s : State,
    (exceeds s.cfg.bMax s.regs.bufLen = false → exceeds s.cfg.kMax s.regs.ctLen = false →
      (tableValid s.cfg s.ctList ∨ s.regs.bitLen = 0) → exec .decode s = exec .unpack s) ∧
    (0 < s.regs.bitLen →
      (exceeds s.cfg.kMax s.regs.ctLen = true → ∃ t, exec .decode s = .next t ∧ t.endsWith .capacityExceeded) ∧
      (exceeds s.cfg.kMax s.regs.ctLen = false → ¬ tableValid s.cfg s.ctList →
        ∃ t, exec .decode s = .next t ∧ t.endsWith .invalidTable) ∧
      (exceeds s.cfg.kMax s.regs.ctLen = false → tableValid s.cfg s.ctList →
        exceeds s.cfg.bMax s.regs.bufLen = true →
        ∃ t, exec .decode s = .next t ∧ t.endsWith .capacityExceeded))

/-- 46_encode_decode.md R270: `ENCODE` of nothing is `EmptyInput`; `DECODE` with `BIT_LEN = 0` yields the empty
sequence, whatever the buffer and the table hold. -/
def Obligations.EmptyInputs : Prop :=
  ∀ s : State,
    (s.regs.symLen = 0 → ∃ t, exec .encode s = .next t ∧ t.endsWith .emptyInput) ∧
    (s.regs.bitLen = 0 → ∃ t, exec .decode s = .next t ∧ t.endsWith .ok ∧ t.regs.outLen = 0)

/-- 46_encode_decode.md R266: `n` copies of one symbol. One entry of length 1, `n` bits, every bit of the buffer 0;
`DECODE` gives the copies back. -/
def Obligations.CopiesOfOneSymbol : Prop :=
  ∀ (s t : State) (c : Word) (n : Nat), s.symList = List.replicate n c → exec .encode s = .next t →
    t.endsWith .ok →
    t.flList = [{ cp := c, freq := n }] ∧ t.regs.nodeCnt = 1 ∧ t.ctList = [{ sym := c, pat := 0, len := 1 }] ∧
      t.regs.bitLen = n ∧ t.regs.bufLen = (n + 7) / 8 ∧ (∀ q < 8 * t.regs.bufLen, t.streamBit q = false) ∧
      ∃ u, exec .decode t = .next u ∧ u.endsWith .ok ∧ u.outList = List.replicate n c

/-- 46_encode_decode.md R269: the last byte of an encoded buffer cut off, the bit length kept: both decoders report
`TruncatedStream`. The bit length cut to where the code of symbol `m` begins, the buffer to any length that still
holds those bits: both give the first `m` symbols. Whatever the two lengths, both complete. -/
def Obligations.CutStream : Prop :=
  ∀ s t : State, exec .encode s = .next t → t.endsWith .ok →
    ∀ i : Instr, i = .unpack ∨ i = .decode →
      (∃ u, exec i { t with regs := { t.regs with bufLen := t.regs.bufLen - 1 } } = .next u ∧
        u.endsWith .truncatedStream) ∧
      (∀ (m bits nb : Nat) (es : List Entry), m ≤ s.regs.symLen → (s.symList.take m).map t.codeOf = es.map some →
        bits = (es.map Entry.len).sum → bits ≤ 8 * nb → nb ≤ t.regs.bufLen →
        ∃ u, exec i { t with regs := { t.regs with bitLen := bits, bufLen := nb } } = .next u ∧
          u.endsWith .ok ∧ u.outList = s.symList.take m) ∧
      ∀ bits nb : Nat, ∃ u, exec i { t with regs := { t.regs with bitLen := bits, bufLen := nb } } = .next u ∧
        busyFlag u.status = false ∧ doneFlag u.status = true

/-! ## Invariants -/

/-- The invariants that every step keeps hold after reset (10_state.md R46): the engine's, the tree's, the widths of the
registers and of the memory fields; and memory is in canonical form. The values they speak of beyond the spec's are the
model's own (assumption log 5 to 11). -/
def Obligations.ResetMeetsInvariants : Prop :=
  EngineInv State.reset ∧ TreeInv State.reset ∧ RegsFit State.reset ∧ FieldsFit State.reset ∧
    State.reset.mem.wf = true

/-- Every step keeps the engine's invariant (memory canonical; `STATUS` legal, 10_state.md R23; `DONE = 0`, `ERR = 0`
while an undisturbed command runs, 20_memory.md R74) and the configuration (00_scope.md R17). -/
def Obligations.StepKeepsEngineInv : Prop :=
  ∀ s t : State, EngineInv s → step s = .next t → EngineInv t ∧ t.cfg = s.cfg

/-- 10_state.md R36, R26: every step of a run in which the host keeps to 70_reset_and_hazards.md R330 keeps the tree
invariants. -/
def Obligations.StepKeepsTree : Prop :=
  ∀ s t : State, hostKeepsRules s → TreeInv s → step s = .next t → TreeInv t

/-- 20_memory.md R62: every step keeps every field within its width. -/
def Obligations.StepKeepsFieldWidths : Prop :=
  ∀ s t : State, FieldsFit s → step s = .next t → FieldsFit t

/-- 10_state.md R22: with finite capacities every step keeps every count register within 32 bits. -/
def Obligations.StepKeepsRegisterWidths : Prop :=
  ∀ s t : State, finiteParams s.cfg → RegsFit s → step s = .next t → RegsFit t
end

