-- ==== Sys2Proof/Laws/State.lean ====
section
/-! SUPPORT. The state's updates, field by field: each lemma is true by `rfl` and tagged `simp`, so that no later
proof unfolds a record update. -/

namespace Sys2Proof.Machine

variable (r : Regs) (n m : CountReg) (v : Nat)

theorem get_set (h : n = m) : (r.set n v).get m = v := by subst h; cases n <;> rfl

theorem get_set_other (h : n ≠ m) : (r.set n v).get m = r.get m := by
  cases n <;> cases m <;> first | rfl | exact absurd rfl h

@[simp] theorem start_cfg (s : State) : s.start.cfg = s.cfg := rfl
@[simp] theorem start_status (s : State) : s.start.status = s.status := rfl
@[simp] theorem start_regs (s : State) : s.start.regs = s.regs := rfl
@[simp] theorem start_mem (s : State) : s.start.mem = s.mem := rfl
@[simp] theorem start_op (s : State) : s.start.op = s.op := rfl
@[simp] theorem start_int (s : State) : s.start.int = .empty := rfl
@[simp] theorem start_inputs (s : State) : s.start.inputs = s.inputs := rfl
@[simp] theorem start_observed (s : State) : s.start.observed = s.observed := rfl
@[simp] theorem start_latency (s : State) : s.start.latency = s.latency := rfl
@[simp] theorem start_window (s : State) : s.start.window = s.window := rfl
@[simp] theorem start_hazard (s : State) : s.start.hazard = s.hazard := rfl
@[simp] theorem start_freeCount (s : State) : s.start.freeCount = s.freeCount := rfl

@[simp] theorem latch_cfg (s : State) (o : Op) (n : Nat) : (s.latch o n).cfg = s.cfg := rfl
@[simp] theorem latch_status (s : State) (o : Op) (n : Nat) : (s.latch o n).status = launchedStatus := rfl
@[simp] theorem latch_regs (s : State) (o : Op) (n : Nat) : (s.latch o n).regs = s.regs := rfl
@[simp] theorem latch_mem (s : State) (o : Op) (n : Nat) : (s.latch o n).mem = s.mem := rfl
@[simp] theorem latch_op (s : State) (o : Op) (n : Nat) : (s.latch o n).op = o := rfl
@[simp] theorem latch_int (s : State) (o : Op) (n : Nat) : (s.latch o n).int = s.int := rfl
@[simp] theorem latch_inputs (s : State) (o : Op) (n : Nat) : (s.latch o n).inputs = s.inputs := rfl
@[simp] theorem latch_observed (s : State) (o : Op) (n : Nat) : (s.latch o n).observed = s.observed := rfl
@[simp] theorem latch_latency (s : State) (o : Op) (n : Nat) : (s.latch o n).latency = n := rfl
@[simp] theorem latch_window (s : State) (o : Op) (n : Nat) : (s.latch o n).window = true := rfl
@[simp] theorem latch_hazard (s : State) (o : Op) (n : Nat) : (s.latch o n).hazard = false := rfl
@[simp] theorem latch_freeCount (s : State) (o : Op) (n : Nat) : (s.latch o n).freeCount = s.freeCount := rfl

@[simp] theorem launch_cfg (s : State) (w : Word) : (s.launch w).cfg = s.cfg := rfl
@[simp] theorem launch_status (s : State) (w : Word) : (s.launch w).status = launchedStatus := rfl
@[simp] theorem launch_regs (s : State) (w : Word) : (s.launch w).regs = s.regs := rfl
@[simp] theorem launch_mem (s : State) (w : Word) : (s.launch w).mem = s.mem := rfl
@[simp] theorem launch_op (s : State) (w : Word) : (s.launch w).op = opOfWord w := rfl
@[simp] theorem launch_int (s : State) (w : Word) : (s.launch w).int = s.int := rfl
@[simp] theorem launch_inputs (s : State) (w : Word) : (s.launch w).inputs = s.inputs := rfl
@[simp] theorem launch_observed (s : State) (w : Word) : (s.launch w).observed = s.observed := rfl
@[simp] theorem launch_latency (s : State) (w : Word) :
    (s.launch w).latency =
      Config.freeValue .latency s.freeCount 0 := rfl
@[simp] theorem launch_window (s : State) (w : Word) : (s.launch w).window = true := rfl
@[simp] theorem launch_hazard (s : State) (w : Word) : (s.launch w).hazard = false := rfl
@[simp] theorem launch_freeCount (s : State) (w : Word) : (s.launch w).freeCount = s.freeCount + 1 := rfl

@[simp] theorem complete_cfg (s : State) : s.complete.cfg = s.cfg := rfl
@[simp] theorem complete_status (s : State) : s.complete.status = completedStatus .ok := rfl
@[simp] theorem complete_regs (s : State) : s.complete.regs = s.regs := rfl
@[simp] theorem complete_mem (s : State) : s.complete.mem = s.mem := rfl
@[simp] theorem complete_op (s : State) : s.complete.op = s.op := rfl
@[simp] theorem complete_int (s : State) : s.complete.int = .empty := rfl
@[simp] theorem complete_inputs (s : State) : s.complete.inputs = s.inputs := rfl
@[simp] theorem complete_observed (s : State) : s.complete.observed = s.observed := rfl
@[simp] theorem complete_latency (s : State) : s.complete.latency = s.latency := rfl
@[simp] theorem complete_window (s : State) : s.complete.window = s.window := rfl
@[simp] theorem complete_hazard (s : State) : s.complete.hazard = s.hazard := rfl
@[simp] theorem complete_freeCount (s : State) : s.complete.freeCount = s.freeCount := rfl

@[simp] theorem raise_cfg (s : State) (rs : List CountReg) (sps : List Space) (e : ErrKind) :
    (s.raise rs sps e).cfg =
      s.cfg := rfl
@[simp] theorem raise_status (s : State) (rs : List CountReg) (sps : List Space) (e : ErrKind) :
    (s.raise rs sps e).status =
      completedStatus e := rfl
@[simp] theorem raise_regs (s : State) (rs : List CountReg) (sps : List Space) (e : ErrKind) :
    (s.raise rs sps e).regs =
      s.regs.zeroed rs := rfl
@[simp] theorem raise_mem (s : State) (rs : List CountReg) (sps : List Space) (e : ErrKind) :
    (s.raise rs sps e).mem =
      s.mem.freed s.freeCount sps := rfl
@[simp] theorem raise_op (s : State) (rs : List CountReg) (sps : List Space) (e : ErrKind) :
    (s.raise rs sps e).op =
      s.op := rfl
@[simp] theorem raise_int (s : State) (rs : List CountReg) (sps : List Space) (e : ErrKind) :
    (s.raise rs sps e).int =
      .empty := rfl
@[simp] theorem raise_inputs (s : State) (rs : List CountReg) (sps : List Space) (e : ErrKind) :
    (s.raise rs sps e).inputs =
      s.inputs := rfl
@[simp] theorem raise_observed (s : State) (rs : List CountReg) (sps : List Space) (e : ErrKind) :
    (s.raise rs sps e).observed =
      s.observed := rfl
@[simp] theorem raise_latency (s : State) (rs : List CountReg) (sps : List Space) (e : ErrKind) :
    (s.raise rs sps e).latency =
      s.latency := rfl
@[simp] theorem raise_window (s : State) (rs : List CountReg) (sps : List Space) (e : ErrKind) :
    (s.raise rs sps e).window =
      s.window := rfl
@[simp] theorem raise_hazard (s : State) (rs : List CountReg) (sps : List Space) (e : ErrKind) :
    (s.raise rs sps e).hazard =
      s.hazard := rfl
@[simp] theorem raise_freeCount (s : State) (rs : List CountReg) (sps : List Space) (e : ErrKind) :
    (s.raise rs sps e).freeCount =
      s.freeCount + 1 := rfl

@[simp] theorem completeFree_cfg (s : State) (rs : List CountReg) (sps : List Space) (e : ErrKind) :
    (s.completeFree rs sps e).cfg =
      s.cfg := rfl
@[simp] theorem completeFree_status (s : State) (rs : List CountReg) (sps : List Space) (e : ErrKind) :
    (s.completeFree rs sps e).status =
      completedStatus e := rfl
@[simp] theorem completeFree_regs (s : State) (rs : List CountReg) (sps : List Space) (e : ErrKind) :
    (s.completeFree rs sps e).regs =
      s.regs.freed s.freeCount rs := rfl
@[simp] theorem completeFree_mem (s : State) (rs : List CountReg) (sps : List Space) (e : ErrKind) :
    (s.completeFree rs sps e).mem =
      s.mem.freed s.freeCount sps := rfl
@[simp] theorem completeFree_op (s : State) (rs : List CountReg) (sps : List Space) (e : ErrKind) :
    (s.completeFree rs sps e).op =
      s.op := rfl
@[simp] theorem completeFree_int (s : State) (rs : List CountReg) (sps : List Space) (e : ErrKind) :
    (s.completeFree rs sps e).int =
      .empty := rfl
@[simp] theorem completeFree_inputs (s : State) (rs : List CountReg) (sps : List Space) (e : ErrKind) :
    (s.completeFree rs sps e).inputs =
      s.inputs := rfl
@[simp] theorem completeFree_observed (s : State) (rs : List CountReg) (sps : List Space) (e : ErrKind) :
    (s.completeFree rs sps e).observed =
      s.observed := rfl
@[simp] theorem completeFree_latency (s : State) (rs : List CountReg) (sps : List Space) (e : ErrKind) :
    (s.completeFree rs sps e).latency =
      s.latency := rfl
@[simp] theorem completeFree_window (s : State) (rs : List CountReg) (sps : List Space) (e : ErrKind) :
    (s.completeFree rs sps e).window =
      s.window := rfl
@[simp] theorem completeFree_hazard (s : State) (rs : List CountReg) (sps : List Space) (e : ErrKind) :
    (s.completeFree rs sps e).hazard =
      s.hazard := rfl
@[simp] theorem completeFree_freeCount (s : State) (rs : List CountReg) (sps : List Space) (e : ErrKind) :
    (s.completeFree rs sps e).freeCount =
      s.freeCount + 1 := rfl
@[simp] theorem completeUnspecified_cfg (s : State) (rs : List CountReg) (sps : List Space) :
    (s.completeUnspecified rs sps).cfg =
      s.cfg := rfl
@[simp] theorem completeUnspecified_status (s : State) (rs : List CountReg) (sps : List Space) :
    (s.completeUnspecified rs sps).status =
      completedStatus (.ofFree (Config.freeValue .errKind s.freeCount 0)) := rfl
@[simp] theorem completeUnspecified_regs (s : State) (rs : List CountReg) (sps : List Space) :
    (s.completeUnspecified rs sps).regs =
      s.regs.freed s.freeCount rs := rfl
@[simp] theorem completeUnspecified_mem (s : State) (rs : List CountReg) (sps : List Space) :
    (s.completeUnspecified rs sps).mem =
      s.mem.freed s.freeCount sps := rfl
@[simp] theorem completeUnspecified_op (s : State) (rs : List CountReg) (sps : List Space) :
    (s.completeUnspecified rs sps).op =
      s.op := rfl
@[simp] theorem completeUnspecified_int (s : State) (rs : List CountReg) (sps : List Space) :
    (s.completeUnspecified rs sps).int =
      .empty := rfl
@[simp] theorem completeUnspecified_inputs (s : State) (rs : List CountReg) (sps : List Space) :
    (s.completeUnspecified rs sps).inputs =
      s.inputs := rfl
@[simp] theorem completeUnspecified_observed (s : State) (rs : List CountReg) (sps : List Space) :
    (s.completeUnspecified rs sps).observed =
      s.observed := rfl
@[simp] theorem completeUnspecified_latency (s : State) (rs : List CountReg) (sps : List Space) :
    (s.completeUnspecified rs sps).latency =
      s.latency := rfl
@[simp] theorem completeUnspecified_window (s : State) (rs : List CountReg) (sps : List Space) :
    (s.completeUnspecified rs sps).window =
      s.window := rfl
@[simp] theorem completeUnspecified_hazard (s : State) (rs : List CountReg) (sps : List Space) :
    (s.completeUnspecified rs sps).hazard =
      s.hazard := rfl
@[simp] theorem completeUnspecified_freeCount (s : State) (rs : List CountReg) (sps : List Space) :
    (s.completeUnspecified rs sps).freeCount =
      s.freeCount + 1 := rfl

@[simp] theorem completeIllegal_cfg (s : State) : s.completeIllegal.cfg = s.cfg := rfl
@[simp] theorem completeIllegal_status (s : State) : s.completeIllegal.status = completedStatus .illegalCommand := rfl
@[simp] theorem completeIllegal_regs (s : State) : s.completeIllegal.regs = s.regs := rfl
@[simp] theorem completeIllegal_mem (s : State) : s.completeIllegal.mem = s.mem := rfl
@[simp] theorem completeIllegal_op (s : State) : s.completeIllegal.op = s.op := rfl
@[simp] theorem completeIllegal_int (s : State) : s.completeIllegal.int = .empty := rfl
@[simp] theorem completeIllegal_inputs (s : State) : s.completeIllegal.inputs = s.inputs := rfl
@[simp] theorem completeIllegal_observed (s : State) : s.completeIllegal.observed = s.observed := rfl
@[simp] theorem completeIllegal_latency (s : State) : s.completeIllegal.latency = s.latency := rfl
@[simp] theorem completeIllegal_window (s : State) : s.completeIllegal.window = s.window := rfl
@[simp] theorem completeIllegal_hazard (s : State) : s.completeIllegal.hazard = s.hazard := rfl
@[simp] theorem completeIllegal_freeCount (s : State) : s.completeIllegal.freeCount = s.freeCount := rfl

@[simp] theorem resetEvent_cfg (s : State) : s.resetEvent.cfg = s.cfg := rfl
@[simp] theorem resetEvent_status (s : State) : s.resetEvent.status = 0 := rfl
@[simp] theorem resetEvent_regs (s : State) : s.resetEvent.regs = .zero := rfl
@[simp] theorem resetEvent_mem (s : State) : s.resetEvent.mem = .unspecified s.freeCount := rfl
@[simp] theorem resetEvent_op (s : State) : s.resetEvent.op = .illegal := rfl
@[simp] theorem resetEvent_int (s : State) : s.resetEvent.int = .empty := rfl
@[simp] theorem resetEvent_inputs (s : State) : s.resetEvent.inputs = s.inputs := rfl
@[simp] theorem resetEvent_observed (s : State) : s.resetEvent.observed = s.observed := rfl
@[simp] theorem resetEvent_latency (s : State) : s.resetEvent.latency = 0 := rfl
@[simp] theorem resetEvent_window (s : State) : s.resetEvent.window = false := rfl
@[simp] theorem resetEvent_hazard (s : State) : s.resetEvent.hazard = false := rfl
@[simp] theorem resetEvent_freeCount (s : State) : s.resetEvent.freeCount = s.freeCount + 1 := rfl

@[simp] theorem observe_cfg (s : State) (v : Nat) : (s.observe v).cfg = s.cfg := rfl
@[simp] theorem observe_status (s : State) (v : Nat) : (s.observe v).status = s.status := rfl
@[simp] theorem observe_regs (s : State) (v : Nat) : (s.observe v).regs = s.regs := rfl
@[simp] theorem observe_mem (s : State) (v : Nat) : (s.observe v).mem = s.mem := rfl
@[simp] theorem observe_op (s : State) (v : Nat) : (s.observe v).op = s.op := rfl
@[simp] theorem observe_int (s : State) (v : Nat) : (s.observe v).int = s.int := rfl
@[simp] theorem observe_inputs (s : State) (v : Nat) : (s.observe v).inputs = s.inputs := rfl
@[simp] theorem observe_observed (s : State) (v : Nat) : (s.observe v).observed = v :: s.observed := rfl
@[simp] theorem observe_latency (s : State) (v : Nat) : (s.observe v).latency = s.latency := rfl
@[simp] theorem observe_window (s : State) (v : Nat) : (s.observe v).window = s.window := rfl
@[simp] theorem observe_hazard (s : State) (v : Nat) : (s.observe v).hazard = s.hazard := rfl
@[simp] theorem observe_freeCount (s : State) (v : Nat) : (s.observe v).freeCount = s.freeCount := rfl

@[simp] theorem writeFl_cfg (s : State) (l : List Symbol) : (s.writeFl l).cfg = s.cfg := rfl
@[simp] theorem writeFl_status (s : State) (l : List Symbol) : (s.writeFl l).status = s.status := rfl
@[simp] theorem writeFl_regs (s : State) (l : List Symbol) :
    (s.writeFl l).regs =
      { s.regs with flLen := l.length } := rfl
@[simp] theorem writeFl_mem (s : State) (l : List Symbol) :
    (s.writeFl l).mem =
      { s.mem with fl := { cp := .ofList s.freeCount (l.map Symbol.cp), freq := .ofList s.freeCount (l.map Symbol.freq) } } := rfl
@[simp] theorem writeFl_op (s : State) (l : List Symbol) : (s.writeFl l).op = s.op := rfl
@[simp] theorem writeFl_int (s : State) (l : List Symbol) : (s.writeFl l).int = s.int := rfl
@[simp] theorem writeFl_inputs (s : State) (l : List Symbol) : (s.writeFl l).inputs = s.inputs := rfl
@[simp] theorem writeFl_observed (s : State) (l : List Symbol) : (s.writeFl l).observed = s.observed := rfl
@[simp] theorem writeFl_latency (s : State) (l : List Symbol) : (s.writeFl l).latency = s.latency := rfl
@[simp] theorem writeFl_window (s : State) (l : List Symbol) : (s.writeFl l).window = s.window := rfl
@[simp] theorem writeFl_hazard (s : State) (l : List Symbol) : (s.writeFl l).hazard = s.hazard := rfl
@[simp] theorem writeFl_freeCount (s : State) (l : List Symbol) : (s.writeFl l).freeCount = s.freeCount + 1 := rfl

@[simp] theorem writeNodes_cfg (s : State) (l : List Node) (r : Nat) : (s.writeNodes l r).cfg = s.cfg := rfl
@[simp] theorem writeNodes_status (s : State) (l : List Node) (r : Nat) : (s.writeNodes l r).status = s.status := rfl
@[simp] theorem writeNodes_regs (s : State) (l : List Node) (r : Nat) :
    (s.writeNodes l r).regs =
      { s.regs with nodeCnt := l.length, root := r } := rfl
@[simp] theorem writeNodes_mem (s : State) (l : List Node) (r : Nat) :
    (s.writeNodes l r).mem =
      { s.mem with
      node :=
        { leaf := .ofList s.freeCount (l.map Node.leaf), freq := .ofList s.freeCount (l.map Node.freq)
          sym := .ofList s.freeCount (l.map Node.sym), left := .ofList s.freeCount (l.map Node.left)
          right := .ofList s.freeCount (l.map Node.right) } } := rfl
@[simp] theorem writeNodes_op (s : State) (l : List Node) (r : Nat) : (s.writeNodes l r).op = s.op := rfl
@[simp] theorem writeNodes_int (s : State) (l : List Node) (r : Nat) : (s.writeNodes l r).int = s.int := rfl
@[simp] theorem writeNodes_inputs (s : State) (l : List Node) (r : Nat) : (s.writeNodes l r).inputs = s.inputs := rfl
@[simp] theorem writeNodes_observed (s : State) (l : List Node) (r : Nat) :
    (s.writeNodes l r).observed =
      s.observed := rfl
@[simp] theorem writeNodes_latency (s : State) (l : List Node) (r : Nat) :
    (s.writeNodes l r).latency =
      s.latency := rfl
@[simp] theorem writeNodes_window (s : State) (l : List Node) (r : Nat) : (s.writeNodes l r).window = s.window := rfl
@[simp] theorem writeNodes_hazard (s : State) (l : List Node) (r : Nat) : (s.writeNodes l r).hazard = s.hazard := rfl
@[simp] theorem writeNodes_freeCount (s : State) (l : List Node) (r : Nat) :
    (s.writeNodes l r).freeCount =
      s.freeCount + 1 := rfl

@[simp] theorem writeCt_cfg (s : State) (l : List Entry) : (s.writeCt l).cfg = s.cfg := rfl
@[simp] theorem writeCt_status (s : State) (l : List Entry) : (s.writeCt l).status = s.status := rfl
@[simp] theorem writeCt_regs (s : State) (l : List Entry) :
    (s.writeCt l).regs =
      { s.regs with ctLen := l.length } := rfl
@[simp] theorem writeCt_mem (s : State) (l : List Entry) :
    (s.writeCt l).mem =
      { s.mem with ct := { sym := .ofList s.freeCount (l.map Entry.sym), pat := .ofList s.freeCount (l.map Entry.pat), len := .ofList s.freeCount (l.map Entry.len) } } := rfl
@[simp] theorem writeCt_op (s : State) (l : List Entry) : (s.writeCt l).op = s.op := rfl
@[simp] theorem writeCt_int (s : State) (l : List Entry) : (s.writeCt l).int = s.int := rfl
@[simp] theorem writeCt_inputs (s : State) (l : List Entry) : (s.writeCt l).inputs = s.inputs := rfl
@[simp] theorem writeCt_observed (s : State) (l : List Entry) : (s.writeCt l).observed = s.observed := rfl
@[simp] theorem writeCt_latency (s : State) (l : List Entry) : (s.writeCt l).latency = s.latency := rfl
@[simp] theorem writeCt_window (s : State) (l : List Entry) : (s.writeCt l).window = s.window := rfl
@[simp] theorem writeCt_hazard (s : State) (l : List Entry) : (s.writeCt l).hazard = s.hazard := rfl
@[simp] theorem writeCt_freeCount (s : State) (l : List Entry) : (s.writeCt l).freeCount = s.freeCount + 1 := rfl

@[simp] theorem writeStream_cfg (s : State) (l : List Byte) (n : Nat) : (s.writeStream l n).cfg = s.cfg := rfl
@[simp] theorem writeStream_status (s : State) (l : List Byte) (n : Nat) :
    (s.writeStream l n).status =
      s.status := rfl
@[simp] theorem writeStream_regs (s : State) (l : List Byte) (n : Nat) :
    (s.writeStream l n).regs =
      { s.regs with bitLen := n, bufLen := ceil8 n } := rfl
@[simp] theorem writeStream_mem (s : State) (l : List Byte) (n : Nat) :
    (s.writeStream l n).mem =
      { s.mem with buf := .ofList s.freeCount l } := rfl
@[simp] theorem writeStream_op (s : State) (l : List Byte) (n : Nat) : (s.writeStream l n).op = s.op := rfl
@[simp] theorem writeStream_int (s : State) (l : List Byte) (n : Nat) : (s.writeStream l n).int = s.int := rfl
@[simp] theorem writeStream_inputs (s : State) (l : List Byte) (n : Nat) :
    (s.writeStream l n).inputs =
      s.inputs := rfl
@[simp] theorem writeStream_observed (s : State) (l : List Byte) (n : Nat) :
    (s.writeStream l n).observed =
      s.observed := rfl
@[simp] theorem writeStream_latency (s : State) (l : List Byte) (n : Nat) :
    (s.writeStream l n).latency =
      s.latency := rfl
@[simp] theorem writeStream_window (s : State) (l : List Byte) (n : Nat) :
    (s.writeStream l n).window =
      s.window := rfl
@[simp] theorem writeStream_hazard (s : State) (l : List Byte) (n : Nat) :
    (s.writeStream l n).hazard =
      s.hazard := rfl
@[simp] theorem writeStream_freeCount (s : State) (l : List Byte) (n : Nat) :
    (s.writeStream l n).freeCount =
      s.freeCount + 1 := rfl

@[simp] theorem writeOut_cfg (s : State) (l : List Word) : (s.writeOut l).cfg = s.cfg := rfl
@[simp] theorem writeOut_status (s : State) (l : List Word) : (s.writeOut l).status = s.status := rfl
@[simp] theorem writeOut_regs (s : State) (l : List Word) :
    (s.writeOut l).regs =
      { s.regs with outLen := l.length } := rfl
@[simp] theorem writeOut_mem (s : State) (l : List Word) :
    (s.writeOut l).mem =
      { s.mem with out := .ofList s.freeCount l } := rfl
@[simp] theorem writeOut_op (s : State) (l : List Word) : (s.writeOut l).op = s.op := rfl
@[simp] theorem writeOut_int (s : State) (l : List Word) : (s.writeOut l).int = s.int := rfl
@[simp] theorem writeOut_inputs (s : State) (l : List Word) : (s.writeOut l).inputs = s.inputs := rfl
@[simp] theorem writeOut_observed (s : State) (l : List Word) : (s.writeOut l).observed = s.observed := rfl
@[simp] theorem writeOut_latency (s : State) (l : List Word) : (s.writeOut l).latency = s.latency := rfl
@[simp] theorem writeOut_window (s : State) (l : List Word) : (s.writeOut l).window = s.window := rfl
@[simp] theorem writeOut_hazard (s : State) (l : List Word) : (s.writeOut l).hazard = s.hazard := rfl
@[simp] theorem writeOut_freeCount (s : State) (l : List Word) : (s.writeOut l).freeCount = s.freeCount + 1 := rfl

end Sys2Proof.Machine
end

