-- ==== Sys2Proof/Laws/Memory.lean ====
section
/-! SUPPORT. The laws of columns and memory: read after write, the canonical form is kept, and a list written to a
space is the list read back from it. -/

namespace Sys2Proof.Machine

/-! ## Cells -/

theorem lookup_setCell_same {α : Type} (i : Nat) (v : α) (l : List (Nat × α)) :
    (setCell i v l).lookup i = some v := by
  induction l with
  | nil => simp [setCell]
  | cons c rest ih =>
    obtain ⟨j, w⟩ := c
    unfold setCell
    split_ifs with h1 h2
    · simp
    · simp
    · rw [List.lookup_cons, show (i == j) = false from by simpa using h2]
      exact ih

theorem lookup_setCell_other {α : Type} {i k : Nat} (h : k ≠ i) (v : α) (l : List (Nat × α)) :
    (setCell i v l).lookup k = l.lookup k := by
  induction l with
  | nil => simp [setCell, h]
  | cons c rest ih =>
    obtain ⟨j, w⟩ := c
    unfold setCell
    split_ifs with h1 h2
    · rw [List.lookup_cons, show (k == i) = false from by simpa using h]
    · subst h2
      rw [List.lookup_cons, List.lookup_cons, show (k == i) = false from by simpa using h]
    · rw [List.lookup_cons, List.lookup_cons, ih]

theorem mem_keys_setCell {α : Type} {i k : Nat} {v : α} {l : List (Nat × α)} :
    k ∈ (setCell i v l).map Prod.fst → k = i ∨ k ∈ l.map Prod.fst := by
  induction l with
  | nil => simp [setCell]
  | cons c rest ih =>
    obtain ⟨j, w⟩ := c
    unfold setCell
    split_ifs with h1 h2
    · simp
    · subst h2; simp
    · simp only [List.map_cons, List.mem_cons]
      rintro (h | h)
      · exact .inr (.inl h)
      · exact (ih h).imp id .inr

theorem rising_setCell {α : Type} (i : Nat) (v : α) (l : List (Nat × α))
    (h : (l.map Prod.fst).Pairwise (· < ·)) : ((setCell i v l).map Prod.fst).Pairwise (· < ·) := by
  induction l with
  | nil => simp [setCell]
  | cons c rest ih =>
    obtain ⟨j, w⟩ := c
    simp only [List.map_cons, List.pairwise_cons] at h
    unfold setCell
    split_ifs with h1 h2
    · simp only [List.map_cons, List.pairwise_cons, List.mem_cons]
      exact ⟨fun k hk => hk.elim (fun e => e ▸ h1) (fun hk => lt_trans h1 (h.1 k hk)), h⟩
    · subst h2
      simpa using h
    · simp only [List.map_cons, List.pairwise_cons]
      refine ⟨fun k hk => ?_, ih h.2⟩
      rcases mem_keys_setCell hk with rfl | hk
      · omega
      · exact h.1 k hk

theorem keys_numbered {α : Type} (l : List α) (n : Nat) :
    (numbered n l).map Prod.fst = List.range' n l.length := by
  induction l generalizing n with
  | nil => rfl
  | cons x xs ih => simp [numbered, ih, List.range'_succ]

theorem lookup_numbered {α : Type} (l : List α) (n i : Nat) :
    (numbered n l).lookup (n + i) = l[i]? := by
  induction l generalizing n i with
  | nil => simp [numbered]
  | cons x xs ih =>
    rw [numbered, List.lookup_cons]
    cases i with
    | zero => simp
    | succ k =>
      rw [show (n + (k + 1) == n) = false from by simp]
      rw [show n + (k + 1) = (n + 1) + k from by omega, ih]
      simp

/-! ## Columns -/

@[simp] theorem read_write_same {α : Type} (f : Nat → Nat → α) (c : Col α) (i : Nat) (v : α) :
    (c.write i v).read f i = v := by
  simp [Col.read, Col.write, lookup_setCell_same]

theorem read_write_other {α : Type} (f : Nat → Nat → α) (c : Col α) {i k : Nat} (v : α) (h : k ≠ i) :
    (c.write i v).read f k = c.read f k := by
  simp [Col.read, Col.write, lookup_setCell_other h]

theorem read_ofList {α : Type} (f : Nat → Nat → α) (g : Nat) (l : List α) (i : Nat) (h : i < l.length) :
    (Col.ofList g l).read f i = l[i] := by
  have := lookup_numbered l 0 i
  rw [Nat.zero_add] at this
  simp [Col.read, Col.ofList, this, h]

theorem wf_write {α : Type} (c : Col α) (i : Nat) (v : α) (h : c.wf = true) : (c.write i v).wf = true := by
  simp only [Col.wf, decide_eq_true_eq] at h ⊢
  exact rising_setCell i v c.cells h

@[simp] theorem wf_ofList {α : Type} (g : Nat) (l : List α) : (Col.ofList g l).wf = true := by
  simp [Col.wf, Col.ofList, keys_numbered, List.pairwise_lt_range']

@[simp] theorem wf_unspecified {α : Type} (g : Nat) : (Col.unspecified (α := α) g).wf = true := rfl

/-! ## The six spaces -/

theorem memory_wf_iff (m : Memory) : m.wf = true ↔
    m.sym.wf = true ∧ m.fl.cp.wf = true ∧ m.fl.freq.wf = true ∧ m.node.leaf.wf = true ∧ m.node.freq.wf = true ∧
    m.node.sym.wf = true ∧ m.node.left.wf = true ∧ m.node.right.wf = true ∧ m.ct.sym.wf = true ∧
    m.ct.pat.wf = true ∧ m.ct.len.wf = true ∧ m.buf.wf = true ∧ m.out.wf = true := by
  simp [Memory.wf, and_assoc]

theorem wf_writeField (m : Memory) (p : Params) (c : Column) (i v : Nat) (h : m.wf = true) :
    (m.writeField p c i v).wf = true := by
  rw [memory_wf_iff] at h ⊢
  obtain ⟨h1, h2, h3, h4, h5, h6, h7, h8, h9, h10, h11, h12, h13⟩ := h
  cases c <;> simp [Memory.writeField, wf_write, *]

theorem wf_freeSpace (m : Memory) (draw : Nat) (sp : Space) (h : m.wf = true) :
    (m.freeSpace draw sp).wf = true := by
  rw [memory_wf_iff] at h ⊢
  cases sp <;> simp [Memory.freeSpace, h]

theorem wf_freed (m : Memory) (draw : Nat) (sps : List Space) (h : m.wf = true) :
    (m.freed draw sps).wf = true := by
  unfold Memory.freed
  induction sps generalizing m with
  | nil => exact h
  | cons sp rest ih => exact ih _ (wf_freeSpace m draw sp h)

@[simp] theorem wf_memory_unspecified (draw : Nat) : (Memory.unspecified draw).wf = true := rfl

theorem wf_writeFl (s : State) (l : List Symbol) (h : s.mem.wf = true) : (s.writeFl l).mem.wf = true := by
  rw [memory_wf_iff] at h ⊢; simp [h]

theorem wf_writeNodes (s : State) (l : List Node) (r : Nat) (h : s.mem.wf = true) :
    (s.writeNodes l r).mem.wf = true := by
  rw [memory_wf_iff] at h ⊢; simp [h]

theorem wf_writeCt (s : State) (l : List Entry) (h : s.mem.wf = true) : (s.writeCt l).mem.wf = true := by
  rw [memory_wf_iff] at h ⊢; simp [h]

theorem wf_writeStream (s : State) (l : List Byte) (n : Nat) (h : s.mem.wf = true) :
    (s.writeStream l n).mem.wf = true := by
  rw [memory_wf_iff] at h ⊢; simp [h]

theorem wf_writeOut (s : State) (l : List Word) (h : s.mem.wf = true) : (s.writeOut l).mem.wf = true := by
  rw [memory_wf_iff] at h ⊢; simp [h]

/-! ## What is written is read back -/

theorem map_range_getElem {α : Type} (l : List α) (f : Nat → α) (h : ∀ i (hi : i < l.length), f i = l[i]) :
    (List.range l.length).map f = l := by
  apply List.ext_getElem
  · simp
  · intro i h1 h2
    simpa using h i (by simpa using h2)

theorem flList_writeFl (s : State) (l : List Symbol) : (s.writeFl l).flList = l := by
  refine map_range_getElem l _ fun i hi => ?_
  simp [State.flAt, read_ofList, hi]

theorem nodeList_writeNodes (s : State) (l : List Node) (r : Nat) : (s.writeNodes l r).nodeList = l := by
  refine map_range_getElem l _ fun i hi => ?_
  simp [State.nodeAt, read_ofList, hi]

theorem ctList_writeCt (s : State) (l : List Entry) : (s.writeCt l).ctList = l := by
  refine map_range_getElem l _ fun i hi => ?_
  simp [State.ctAt, read_ofList, hi]

theorem bufList_writeStream (s : State) (l : List Byte) (n : Nat) (h : l.length = ceil8 n) :
    (s.writeStream l n).bufList = l := by
  have : (s.writeStream l n).bufList = (List.range l.length).map (s.writeStream l n).bufAt := by
    simp [State.bufList, h]
  rw [this]
  refine map_range_getElem l _ fun i hi => ?_
  simp [State.bufAt, read_ofList, hi]

theorem outList_writeOut (s : State) (l : List Word) : (s.writeOut l).outList = l := by
  refine map_range_getElem l _ fun i hi => ?_
  simp [State.outAt, read_ofList, hi]

theorem nodeAt_writeNodes (s : State) (l : List Node) (r i : Nat) (hi : i < l.length) :
    (s.writeNodes l r).nodeAt i = l[i] := by
  simp [State.nodeAt, read_ofList, hi]

theorem bufAt_writeStream (s : State) (l : List Byte) (n i : Nat) (hi : i < l.length) :
    (s.writeStream l n).bufAt i = l[i] := by
  simp [State.bufAt, read_ofList, hi]

/-! ## Writing entries leaves the rest of the space `UNSPECIFIED` (60_exceptions.md R291) -/

theorem freeFrom_ofList {α : Type} (g : Nat) (l : List α) : (Col.ofList g l).freeFrom g l.length := by
  refine ⟨rfl, fun i hi => ?_⟩
  have h := lookup_numbered l 0 i
  rw [Nat.zero_add] at h
  exact h.trans (List.getElem?_eq_none hi)

theorem freeFrom_map {α β : Type} (g : Nat) (f : α → β) (l : List α) : (Col.ofList g (l.map f)).freeFrom g l.length := by
  simpa using freeFrom_ofList g (l.map f)

theorem freeFrom_writeFl (s : State) (l : List Symbol) : (s.writeFl l).mem.freeFrom s.freeCount l.length .fl :=
  ⟨freeFrom_map _ _ l, freeFrom_map _ _ l⟩

theorem freeFrom_writeNodes (s : State) (l : List Node) (r : Nat) :
    (s.writeNodes l r).mem.freeFrom s.freeCount l.length .node :=
  ⟨freeFrom_map _ _ l, freeFrom_map _ _ l, freeFrom_map _ _ l, freeFrom_map _ _ l, freeFrom_map _ _ l⟩

theorem freeFrom_writeCt (s : State) (l : List Entry) : (s.writeCt l).mem.freeFrom s.freeCount l.length .ct :=
  ⟨freeFrom_map _ _ l, freeFrom_map _ _ l, freeFrom_map _ _ l⟩

theorem freeFrom_writeStream (s : State) (l : List Byte) (n : Nat) :
    (s.writeStream l n).mem.freeFrom s.freeCount l.length .buf := freeFrom_ofList _ l

theorem freeFrom_writeOut (s : State) (l : List Word) : (s.writeOut l).mem.freeFrom s.freeCount l.length .out :=
  freeFrom_ofList _ l

/-! ## Writing one field -/

/-- A field write changes that field of that entry and no other (20_memory.md R62, R70). -/
theorem fieldAt_writeField_other (s : State) (c d : Column) (i k v : Nat) (h : d ≠ c ∨ k ≠ i) :
    State.fieldAt { s with mem := s.mem.writeField s.cfg c i v } d k = s.fieldAt d k := by
  cases c <;> cases d <;> first
    | rfl
    | (simp only [State.fieldAt, State.symAt, State.flAt, State.nodeAt, State.ctAt, State.bufAt, State.outAt,
        Memory.writeField]
       rw [read_write_other _ _ _ (by simpa using h)])

end Sys2Proof.Machine
end

