-- ==== Sys2Proof/Laws/Status.lean ====
section
/-! SUPPORT. The fields of `STATUS` as launch and completion write them (10_state.md R23). -/

namespace Sys2Proof.Machine

@[simp] theorem busyFlag_statusWord (b d : Bool) (e : BitVec 3) : busyFlag (statusWord b d e) = b := by
  revert b d e; decide

@[simp] theorem doneFlag_statusWord (b d : Bool) (e : BitVec 3) : doneFlag (statusWord b d e) = d := by
  revert b d e; decide

@[simp] theorem errField_statusWord (b d : Bool) (e : BitVec 3) : errField (statusWord b d e) = e := by
  revert b d e; decide

theorem code_ne_seven (e : ErrKind) : e.code ≠ 7 := by cases e <;> decide

theorem code_injective {e f : ErrKind} (h : e.code = f.code) : e = f := by
  cases e <;> cases f <;> first | rfl | exact absurd h (by decide)

theorem statusLegal_statusWord (b d : Bool) (e : ErrKind) : statusLegal (statusWord b d e.code) := by
  refine ⟨?_, ?_, by rw [errField_statusWord]; exact code_ne_seven e⟩ <;>
    (cases b <;> cases d <;> cases e <;> decide)

theorem statusLegal_completed (e : ErrKind) : statusLegal (completedStatus e) := statusLegal_statusWord false true e

theorem statusLegal_launched : statusLegal launchedStatus := statusLegal_statusWord true false .ok

@[simp] theorem busyFlag_completed (e : ErrKind) : busyFlag (completedStatus e) = false :=
  busyFlag_statusWord _ _ _

@[simp] theorem doneFlag_completed (e : ErrKind) : doneFlag (completedStatus e) = true :=
  doneFlag_statusWord _ _ _

@[simp] theorem errField_completed (e : ErrKind) : errField (completedStatus e) = e.code :=
  errField_statusWord _ _ _

@[simp] theorem busyFlag_launched : busyFlag launchedStatus = true := busyFlag_statusWord _ _ _

@[simp] theorem doneFlag_launched : doneFlag launchedStatus = false := doneFlag_statusWord _ _ _

@[simp] theorem errField_launched : errField launchedStatus = 0 := errField_statusWord _ _ _

theorem completedStatus_injective {e f : ErrKind} (h : completedStatus e = completedStatus f) : e = f :=
  code_injective (by simpa using congrArg errField h)

end Sys2Proof.Machine
end

