-- ==== Sys2Proof/Laws/Count.lean ====
section
/-! SUPPORT. What the Frequency Counter's map and sort compute (40_count.md R122 to R124). -/

namespace Sys2Proof.Machine

/-- The map `T` without its capacity check. -/
def tally : List Symbol → Word → List Symbol
  | [], c => [{ cp := c, freq := 1 }]
  | x :: xs, c => if x.cp = c then { x with freq := x.freq + 1 } :: xs else x :: tally xs c

/-- What `T` says of a symbol. -/
def freqIn (t : List Symbol) (c : Word) : Nat :=
  match t with
  | [] => 0
  | x :: xs => if x.cp = c then x.freq else freqIn xs c

theorem cps_tally (t : List Symbol) (c : Word) :
    (tally t c).map Symbol.cp = if c ∈ t.map Symbol.cp then t.map Symbol.cp else t.map Symbol.cp ++ [c] := by
  induction t with
  | nil => simp [tally]
  | cons x xs ih =>
    unfold tally
    by_cases h : x.cp = c
    · simp [h]
    · have h' : c ≠ x.cp := fun e => h e.symm
      rw [if_neg h, List.map_cons, ih, List.map_cons]
      by_cases h2 : c ∈ xs.map Symbol.cp
      · rw [if_pos h2, if_pos (List.mem_cons_of_mem _ h2)]
      · rw [if_neg h2, if_neg (by simpa [h'] using h2), List.cons_append]

theorem freqIn_tally (t : List Symbol) (c d : Word) :
    freqIn (tally t c) d = freqIn t d + if c = d then 1 else 0 := by
  induction t with
  | nil => by_cases h : c = d <;> simp [tally, freqIn, h]
  | cons x xs ih =>
    unfold tally
    by_cases h : x.cp = c
    · by_cases h2 : c = d <;> simp [freqIn, h, h2]
    · by_cases h2 : x.cp = d
      · have : ¬ c = d := fun e => h (h2.trans e.symm)
        rw [if_neg h]
        simp [freqIn, h2, this]
      · rw [if_neg h]
        simp [freqIn, h2, ih]

theorem freqIn_of_mem {t : List Symbol} (hn : (t.map Symbol.cp).Nodup) {x : Symbol} (hx : x ∈ t) :
    freqIn t x.cp = x.freq := by
  induction t with
  | nil => cases hx
  | cons y ys ih =>
    simp only [List.map_cons, List.nodup_cons] at hn
    rcases List.mem_cons.1 hx with rfl | hx
    · simp [freqIn]
    · have : y.cp ≠ x.cp := fun e => hn.1 (e ▸ List.mem_map_of_mem hx)
      simp [freqIn, this, ih hn.2 hx]

/-- The whole input tallied: keys in first-seen order, counts exact (40_count.md R122, R123). -/
def tallyAll (cs : List Word) (t : List Symbol) : List Symbol := cs.foldl tally t

theorem tallyAll_freqIn (cs : List Word) (t : List Symbol) (d : Word) :
    freqIn (tallyAll cs t) d = freqIn t d + cs.count d := by
  unfold tallyAll
  induction cs generalizing t with
  | nil => simp
  | cons c cs ih =>
    rw [List.foldl_cons, ih, freqIn_tally, List.count_cons]
    by_cases h : c = d
    · simp [h]; omega
    · simp [h]

theorem tallyAll_nodup (cs : List Word) (t : List Symbol) (h : (t.map Symbol.cp).Nodup) :
    ((tallyAll cs t).map Symbol.cp).Nodup := by
  unfold tallyAll
  induction cs generalizing t with
  | nil => exact h
  | cons c cs ih =>
    refine ih _ ?_
    rw [cps_tally]
    split_ifs with hc
    · exact h
    · rw [List.nodup_append]
      refine ⟨h, by simp, ?_⟩
      rintro a ha b hb rfl
      rw [List.mem_singleton] at hb
      exact hc (hb ▸ ha)

theorem tallyAll_mem (cs : List Word) (t : List Symbol) (d : Word) :
    d ∈ (tallyAll cs t).map Symbol.cp ↔ d ∈ t.map Symbol.cp ∨ d ∈ cs := by
  unfold tallyAll
  induction cs generalizing t with
  | nil => simp
  | cons c cs ih =>
    rw [List.foldl_cons, ih, cps_tally]
    split_ifs with hc
    · constructor
      · rintro (h | h)
        · exact .inl h
        · exact .inr (List.mem_cons_of_mem _ h)
      · rintro (h | h)
        · exact .inl h
        · rcases List.mem_cons.1 h with rfl | h
          · exact .inl hc
          · exact .inr h
    · simp only [List.mem_append, List.mem_cons, List.not_mem_nil, or_false]
      tauto

/-- First-seen order: keys stand in ascending order of their first occurrence (40_count.md R122). -/
theorem tallyAll_first_seen (cs : List Word) :
    ((tallyAll cs []).map Symbol.cp).Pairwise fun a b => cs.idxOf a < cs.idxOf b := by
  induction cs using List.reverseRecOn with
  | nil => simp [tallyAll]
  | append_singleton cs c ih =>
    have hmem : ∀ d, d ∈ (tallyAll cs []).map Symbol.cp ↔ d ∈ cs := fun d => by simp [tallyAll_mem]
    have hstep : tallyAll (cs ++ [c]) [] = tally (tallyAll cs []) c := by simp [tallyAll, List.foldl_append]
    have hkeep : ((tallyAll cs []).map Symbol.cp).Pairwise
        fun a b => (cs ++ [c]).idxOf a < (cs ++ [c]).idxOf b := by
      refine ih.imp_of_mem fun {a b} ha hb h => ?_
      rw [List.idxOf_append_of_mem ((hmem a).1 ha), List.idxOf_append_of_mem ((hmem b).1 hb)]
      exact h
    rw [hstep, cps_tally]
    split_ifs with hc
    · exact hkeep
    · rw [List.pairwise_append]
      refine ⟨hkeep, by simp, fun a ha b hb => ?_⟩
      obtain rfl := List.mem_singleton.1 hb
      rw [List.idxOf_append_of_mem ((hmem a).1 ha),
        List.idxOf_append_of_notMem (fun h => hc ((hmem b).2 h))]
      exact Nat.lt_add_right _ (List.idxOf_lt_length_iff.2 ((hmem a).1 ha))

/-! ## The capacity checks -/

theorem fits_mono {w : Option Nat} {a b : Nat} (h : a ≤ b) (hb : fits w b = true) : fits w a = true := by
  cases w with
  | none => rfl
  | some w => simp only [fits, decide_eq_true_eq] at *; omega

theorem countSymbol_ok {p : Params} {c : Word} {t t' : List Symbol} (h : countSymbol p c t = .ok t') :
    t' = tally t c := by
  induction t generalizing t' with
  | nil => simp only [countSymbol] at h; split_ifs at h; simpa [tally, eq_comm] using h
  | cons x xs ih =>
    simp only [countSymbol] at h
    by_cases hx : x.cp = c
    · rw [if_pos hx] at h; split_ifs at h
      simpa [tally, hx, eq_comm] using h
    · rw [if_neg hx] at h
      split at h
      · next ys hys => cases h; simp [tally, hx, ih hys]
      · cases h

theorem countSymbol_error {p : Params} {c : Word} {t : List Symbol} {a : Abort} (h : countSymbol p c t = .error a) :
    a = .raise .capacityExceeded := by
  induction t with
  | nil => simp only [countSymbol] at h; split_ifs at h; exact (Except.error.inj h).symm
  | cons x xs ih =>
    simp only [countSymbol] at h
    by_cases hx : x.cp = c
    · rw [if_pos hx] at h; split_ifs at h; exact (Except.error.inj h).symm
    · rw [if_neg hx] at h
      split at h
      · cases h
      · next e he => cases h; exact ih he

theorem countSymbol_isOk {p : Params} {c : Word} {t : List Symbol}
    (h : fits p.freqW (freqIn t c + 1) = true) : countSymbol p c t = .ok (tally t c) := by
  induction t with
  | nil => simpa [countSymbol, tally, freqIn] using h
  | cons x xs ih =>
    by_cases hx : x.cp = c
    · simp_all [countSymbol, tally, freqIn]
    · simp only [freqIn, if_neg hx] at h
      simp [countSymbol, tally, hx, ih h]

theorem countSymbol_fits {p : Params} {c : Word} {t t' : List Symbol} (h : countSymbol p c t = .ok t') :
    fits p.freqW (freqIn t c + 1) = true := by
  induction t generalizing t' with
  | nil => simp only [countSymbol] at h; split_ifs at h with h1; simpa [freqIn] using h1
  | cons x xs ih =>
    simp only [countSymbol] at h
    by_cases hx : x.cp = c
    · rw [if_pos hx] at h; split_ifs at h with h1; simpa [freqIn, hx] using h1
    · rw [if_neg hx] at h
      split at h
      · next ys hys => simpa [freqIn, hx] using ih hys
      · cases h

theorem countLoop_ok {p : Params} {cs : List Word} {w w' : CountWork} (h : countLoop p cs w = .ok w') :
    w'.t = tallyAll cs w.t ∧ w'.i = w.i + cs.length := by
  induction cs generalizing w with
  | nil => cases h; simp [tallyAll]
  | cons c cs ih =>
    simp only [countLoop] at h
    split at h
    · next t ht =>
      obtain ⟨h1, h2⟩ := ih h
      rw [countSymbol_ok ht] at h1
      exact ⟨by simpa [tallyAll] using h1, by simp [h2]; omega⟩
    · cases h

theorem countLoop_error {p : Params} {cs : List Word} {w : CountWork} {a : Abort} (h : countLoop p cs w = .error a) :
    a = .raise .capacityExceeded := by
  induction cs generalizing w with
  | nil => cases h
  | cons c cs ih =>
    simp only [countLoop] at h
    split at h
    · exact ih h
    · next e he => cases h; exact countSymbol_error he

/-- The loop succeeds exactly when every symbol's count fits (40_count.md R121 Errors). -/
theorem countLoop_isOk_iff {p : Params} (cs : List Word) (w : CountWork) :
    (∃ w', countLoop p cs w = .ok w') ↔ ∀ c ∈ cs, fits p.freqW (freqIn w.t c + cs.count c) = true := by
  induction cs generalizing w with
  | nil => simp [countLoop]
  | cons c cs ih =>
    constructor
    · rintro ⟨w', h⟩ d hd
      simp only [countLoop] at h
      split at h
      · next t ht =>
        obtain rfl := countSymbol_ok ht
        have hrec := (ih { t := tally w.t c, i := w.i + 1 }).1 ⟨w', h⟩
        rw [List.count_cons]
        by_cases hcd : c = d
        · subst hcd
          by_cases hc : c ∈ cs
          · have := hrec c hc
            rw [freqIn_tally] at this
            simpa [Nat.add_assoc, Nat.add_comm 1] using this
          · rw [List.count_eq_zero_of_not_mem hc]
            simpa using countSymbol_fits ht
        · have hd' : d ∈ cs := (List.mem_cons.1 hd).resolve_left (fun e => hcd e.symm)
          have := hrec d hd'
          rw [freqIn_tally] at this
          simpa [hcd] using this
      · cases h
    · intro h
      have hc := h c (List.mem_cons_self ..)
      have hfit : fits p.freqW (freqIn w.t c + 1) = true :=
        fits_mono (by rw [List.count_cons_self]; omega) hc
      simp only [countLoop, countSymbol_isOk hfit]
      refine (ih _).2 fun d hd => ?_
      have := h d (List.mem_cons_of_mem _ hd)
      rw [List.count_cons] at this
      rw [freqIn_tally]
      by_cases hcd : c = d
      · subst hcd
        rw [List.count_cons_self] at hc
        simpa [Nat.add_assoc, Nat.add_comm 1] using hc
      · simpa [hcd] using this

/-! ## The sort -/

theorem sortByFreq_perm (t : List Symbol) : (sortByFreq t).Perm t := List.perm_insertionSort _ t

theorem pairwise_sublist_pair {α : Type} {R : α → α → Prop} {l : List α}
    (h : ∀ a b, [a, b].Sublist l → R a b) : l.Pairwise R := by
  rw [List.pairwise_iff_forall_sublist]
  exact fun {a b} hab => h a b hab

theorem pair_sublist_or {α : Type} {a b : α} {l : List α} (ha : a ∈ l) (hb : b ∈ l) (hab : a ≠ b) :
    [a, b].Sublist l ∨ [b, a].Sublist l := by
  obtain ⟨l1, l2, rfl⟩ := List.append_of_mem ha
  rcases List.mem_append.1 hb with hb | hb
  · exact .inr ((List.singleton_sublist.2 hb).append (List.singleton_sublist.2 (List.mem_cons_self ..)))
  · have hb : b ∈ l2 := (List.mem_cons.1 hb).resolve_left (fun e => hab e.symm)
    exact .inl (((List.singleton_sublist.2 hb).cons_cons a).trans (List.sublist_append_right l1 _))

theorem not_both_orders {α : Type} {a b : α} {l : List α} (hn : l.Nodup) (h1 : [a, b].Sublist l)
    (h2 : [b, a].Sublist l) : False := by
  induction l with
  | nil => cases h1
  | cons x xs ih =>
    rw [List.nodup_cons] at hn
    cases h1 with
    | cons _ h1 =>
      cases h2 with
      | cons _ h2 => exact ih hn.2 h1 h2
      | cons_cons _ h2 => exact hn.1 (h1.subset (by simp))
    | cons_cons _ h1 =>
      cases h2 with
      | cons _ h2 => exact hn.1 (h2.subset (by simp))
      | cons_cons _ h2 => exact hn.1 (h1.subset (by simp))

/-- The one ascending order in which equal frequencies keep the order of `T` (40_count.md R124). -/
theorem sortByFreq_stable {t : List Symbol} {R : Symbol → Symbol → Prop} (hn : t.Nodup) (h : t.Pairwise R) :
    (sortByFreq t).Pairwise fun a b => a.freq < b.freq ∨ (a.freq = b.freq ∧ R a b) := by
  have hsorted : (sortByFreq t).Pairwise fun a b => a.freq ≤ b.freq :=
    haveI : IsTrans Symbol fun a b => a.freq ≤ b.freq := ⟨fun _ _ _ => le_trans⟩
    haveI : Std.Total fun a b : Symbol => a.freq ≤ b.freq := ⟨fun a b => le_total a.freq b.freq⟩
    List.pairwise_insertionSort (fun a b : Symbol => a.freq ≤ b.freq) t
  have hnodup : (sortByFreq t).Nodup := (sortByFreq_perm t).nodup_iff.2 hn
  refine pairwise_sublist_pair fun a b hab => ?_
  have hle : a.freq ≤ b.freq := by
    have := hsorted.sublist hab
    simpa using this
  rcases Nat.lt_or_eq_of_le hle with hlt | heq
  · exact .inl hlt
  · refine .inr ⟨heq, ?_⟩
    have hab' : a ≠ b := by
      have := hnodup.sublist hab
      simpa using this
    have ha : a ∈ t := (sortByFreq_perm t).mem_iff.1 (hab.subset (by simp))
    have hb : b ∈ t := (sortByFreq_perm t).mem_iff.1 (hab.subset (by simp))
    -- in `t`, one of the two comes first; if it were `b`, the stable sort would keep `b` before `a`
    have key : [a, b].Sublist t ∨ [b, a].Sublist t := pair_sublist_or ha hb hab'
    rcases key with hk | hk
    · exact (List.pairwise_iff_forall_sublist.1 h) hk
    · have : [b, a].Sublist (sortByFreq t) :=
        List.sublist_insertionSort (r := fun a b : Symbol => a.freq ≤ b.freq) (by simp [heq]) hk
      exact (not_both_orders hnodup hab this).elim

end Sys2Proof.Machine
end

