-- ==== Sys2Proof/Laws/Build.lean ====
section
/-! SUPPORT. The loop invariant of the merge loop (41_build.md R161) and what it says at the end: the tree
invariants of 10_state.md R36 and the greedy order of 41_build.md R143. -/

namespace Sys2Proof.Machine

/-- Node `j` of a node list. -/
def nth (l : List Node) (j : Nat) : Node := l.getD j { leaf := true, freq := 0, sym := 0, left := 0, right := 0 }

theorem nth_append_left {l m : List Node} {j : Nat} (h : j < l.length) : nth (l ++ m) j = nth l j := by
  simp [nth, List.getElem?_append_left h]

theorem nth_append_self (l : List Node) (n : Node) : nth (l ++ [n]) l.length = n := by simp [nth]

/-- `j` is a child of the internal node `q` of the list. -/
abbrev childIn (l : List Node) (q j : Nat) : Prop :=
  (nth l q).leaf = false ∧ ((nth l q).left = j ∨ (nth l q).right = j)

/-- Node `x` exists before node `j` and is no child of an earlier node. -/
abbrev aliveIn (l : List Node) (j x : Nat) : Prop := x < j ∧ ∀ q < j, ¬ childIn l q x

/-- `key(x) <= key(y)`. -/
abbrev keyLeIn (l : List Node) (x y : Nat) : Prop :=
  (nth l x).freq < (nth l y).freq ∨ ((nth l x).freq = (nth l y).freq ∧ x ≤ y)

/-- What holds of an internal node: its children were the two lowest of the collection (41_build.md R143). -/
structure InnerOk (l : List Node) (j : Nat) : Prop where
  leaf : (nth l j).leaf = false
  sym : (nth l j).sym = 0
  leftAlive : aliveIn l j (nth l j).left
  rightAlive : aliveIn l j (nth l j).right
  ne : (nth l j).left ≠ (nth l j).right
  freq : (nth l j).freq = (nth l (nth l j).left).freq + (nth l (nth l j).right).freq
  leftLowest : ∀ x, aliveIn l j x → keyLeIn l (nth l j).left x
  rightLowest : ∀ x, aliveIn l j x → x ≠ (nth l j).left → keyLeIn l (nth l j).right x

/-- The nodes made so far: leaves of the list, then internal nodes. -/
structure NodesOk (fl : List Symbol) (l : List Node) : Prop where
  le : fl.length ≤ l.length
  leaves : ∀ j (h : j < fl.length), nth l j = leafOf fl[j]
  inner : ∀ j, fl.length ≤ j → j < l.length → InnerOk l j

/-- The loop invariant (41_build.md R161). -/
structure BuildOk (fl : List Symbol) (w : BuildWork) : Prop where
  nodes : NodesOk fl w.nodes
  len : w.nodes.length = w.m
  sorted : w.pq.Pairwise Key.le
  key : ∀ k ∈ w.pq, k.freq = (nth w.nodes k.idx).freq
  alive : ∀ j, j ∈ w.pq.map Key.idx ↔ aliveIn w.nodes w.m j
  nodup : (w.pq.map Key.idx).Nodup
  count : w.pq.length + w.m = 2 * fl.length

/-! ## The collection -/

theorem keyLe_trans : IsTrans Key Key.le := ⟨fun a b c h1 h2 => by unfold Key.le at *; omega⟩

theorem keyLe_total : Std.Total Key.le := ⟨fun a b => by unfold Key.le; omega⟩

theorem pqInsert_perm (k : Key) (pq : List Key) : (pqInsert k pq).Perm (k :: pq) := List.perm_orderedInsert _ _ _

theorem pqInsert_sorted (k : Key) (pq : List Key) (h : pq.Pairwise Key.le) : (pqInsert k pq).Pairwise Key.le :=
  haveI := keyLe_trans
  haveI := keyLe_total
  List.Pairwise.orderedInsert k pq h

/-! ## The leaves -/

theorem buildLeaves_nodes (fl : List Symbol) (w : BuildWork) :
    (buildLeaves fl w).nodes = w.nodes ++ fl.map leafOf ∧ (buildLeaves fl w).m = w.m + fl.length := by
  induction fl generalizing w with
  | nil => simp [buildLeaves]
  | cons x xs ih =>
    obtain ⟨h1, h2⟩ := ih { nodes := w.nodes ++ [leafOf x], pq := pqInsert ⟨x.freq, w.m⟩ w.pq, m := w.m + 1 }
    exact ⟨by simp [buildLeaves, h1], by simp [buildLeaves, h2]; omega⟩

theorem buildLeaves_sorted (fl : List Symbol) (w : BuildWork) (h : w.pq.Pairwise Key.le) :
    (buildLeaves fl w).pq.Pairwise Key.le := by
  induction fl generalizing w with
  | nil => exact h
  | cons x xs ih => exact ih _ (pqInsert_sorted _ _ h)

/-- The keys the leaves of a list get. -/
def leafKeys (n : Nat) : List Symbol → List Key
  | [] => []
  | x :: xs => { freq := x.freq, idx := n } :: leafKeys (n + 1) xs

theorem buildLeaves_perm (fl : List Symbol) (w : BuildWork) :
    (buildLeaves fl w).pq.Perm (leafKeys w.m fl ++ w.pq) := by
  induction fl generalizing w with
  | nil => exact List.Perm.refl _
  | cons x xs ih =>
    refine (ih _).trans ?_
    exact ((pqInsert_perm _ _).append_left _).trans List.perm_middle

theorem leafKeys_idx (n : Nat) (fl : List Symbol) : (leafKeys n fl).map Key.idx = List.range' n fl.length := by
  induction fl generalizing n with
  | nil => rfl
  | cons x xs ih => simp [leafKeys, ih, List.range'_succ]

theorem leafKeys_freq {n : Nat} {fl : List Symbol} {k : Key} (h : k ∈ leafKeys n fl) :
    ∃ j, ∃ hj : j < fl.length, k.idx = n + j ∧ k.freq = fl[j].freq := by
  induction fl generalizing n with
  | nil => cases h
  | cons x xs ih =>
    rcases List.mem_cons.1 h with rfl | h
    · exact ⟨0, by simp, rfl, rfl⟩
    · obtain ⟨j, hj, h1, h2⟩ := ih h
      exact ⟨j + 1, by simpa using hj, by omega, by simpa using h2⟩

theorem nth_leaves (fl : List Symbol) {j : Nat} (h : j < fl.length) : nth (fl.map leafOf) j = leafOf fl[j] := by
  simp [nth, h]

/-- The invariant holds once the leaves are in (41_build.md R142). -/
theorem buildLeaves_ok (fl : List Symbol) : BuildOk fl (buildLeaves fl Internal.empty.build) := by
  obtain ⟨h1, h2⟩ := buildLeaves_nodes fl Internal.empty.build
  have h1 : (buildLeaves fl Internal.empty.build).nodes = fl.map leafOf := by simpa [Internal.empty] using h1
  have h2 : (buildLeaves fl Internal.empty.build).m = fl.length := by simpa [Internal.empty] using h2
  have hp : (buildLeaves fl Internal.empty.build).pq.Perm (leafKeys 0 fl) := by
    simpa [Internal.empty] using buildLeaves_perm fl Internal.empty.build
  have hidx := (hp.map Key.idx).trans (List.Perm.of_eq (leafKeys_idx 0 fl))
  have hleaf : ∀ q < fl.length, (nth (fl.map leafOf) q).leaf = true := fun q hq => by rw [nth_leaves fl hq]; rfl
  refine ⟨⟨by simp [h1], fun j h => by rw [h1, nth_leaves fl h], fun j hj hl => ?_⟩, by simp [h1, h2],
    buildLeaves_sorted fl _ (by simp [Internal.empty]), fun k hk => ?_, fun j => ?_, ?_, ?_⟩
  · simp [h1] at hl; omega
  · obtain ⟨j, hj, e1, e2⟩ := leafKeys_freq (hp.mem_iff.1 hk)
    rw [e2, h1, e1, Nat.zero_add, nth_leaves fl hj]; rfl
  · rw [hidx.mem_iff, h1, h2]
    constructor
    · intro h
      refine ⟨by simpa using h, fun q hq hc => ?_⟩
      exact absurd hc.1 (by rw [hleaf q hq]; simp)
    · rintro ⟨h, -⟩
      simpa using h
  · rw [hidx.nodup_iff]; exact List.nodup_range'
  · have := hidx.length_eq
    rw [List.length_map, List.length_range'] at this
    omega

/-! ## A merge -/

theorem alive_append {l : List Node} {n : Node} {j x : Nat} (hj : j ≤ l.length) :
    aliveIn (l ++ [n]) j x ↔ aliveIn l j x := by
  unfold aliveIn
  refine and_congr_right fun _ => ?_
  constructor <;> intro h q hq
  · have := h q hq
    rwa [childIn, nth_append_left (by omega)] at this
  · rw [childIn, nth_append_left (by omega)]
    exact h q hq

theorem keyLe_append {l : List Node} {n : Node} {x y : Nat} (hx : x < l.length) (hy : y < l.length) :
    keyLeIn (l ++ [n]) x y ↔ keyLeIn l x y := by
  unfold keyLeIn
  rw [nth_append_left hx, nth_append_left hy]

theorem innerOk_append {l : List Node} {n : Node} {j : Nat} (hj : j < l.length) (h : InnerOk l j) :
    InnerOk (l ++ [n]) j := by
  have e : nth (l ++ [n]) j = nth l j := nth_append_left hj
  have hl := h.leftAlive.1
  have hr := h.rightAlive.1
  constructor
  · rw [e]; exact h.leaf
  · rw [e]; exact h.sym
  · rw [e, alive_append (by omega)]; exact h.leftAlive
  · rw [e, alive_append (by omega)]; exact h.rightAlive
  · rw [e]; exact h.ne
  · rw [e, nth_append_left (by omega), nth_append_left (by omega)]; exact h.freq
  · intro x hx
    rw [alive_append (by omega)] at hx
    rw [e, keyLe_append (by omega) (by have := hx.1; omega)]
    exact h.leftLowest x hx
  · intro x hx hne
    rw [alive_append (by omega)] at hx
    rw [e] at hne ⊢
    rw [keyLe_append (by omega) (by have := hx.1; omega)]
    exact h.rightLowest x hx hne

/-- The invariant is kept by a merge (41_build.md R143, R161). -/
theorem merge_ok {fl : List Symbol} {w : BuildWork} {a b : Key} {rest : List Key} (h : BuildOk fl w)
    (hpq : w.pq = a :: b :: rest) :
    BuildOk fl
      { nodes := w.nodes ++ [{ leaf := false, freq := a.freq + b.freq, sym := 0, left := a.idx, right := b.idx }]
        pq := pqInsert { freq := a.freq + b.freq, idx := w.m } rest
        m := w.m + 1 } := by
  have hs := h.sorted
  have hkey := h.key
  have hal := h.alive
  have hnd := h.nodup
  have hcount := h.count
  rw [hpq] at hs hkey hal hnd hcount
  simp only [List.pairwise_cons, List.mem_cons] at hs
  simp only [List.map_cons, List.nodup_cons, List.mem_cons, not_or] at hnd
  have hlen := h.len
  have aA : aliveIn w.nodes w.m a.idx := (hal _).1 (by simp)
  have bA : aliveIn w.nodes w.m b.idx := (hal _).1 (by simp)
  have aF := hkey a (by simp)
  have bF := hkey b (by simp)
  generalize hn : ({ leaf := false, freq := a.freq + b.freq, sym := 0, left := a.idx, right := b.idx } : Node) = n
  have hnew : nth (w.nodes ++ [n]) w.m = n := by rw [← hlen]; exact nth_append_self _ _
  have hold : ∀ j < w.m, nth (w.nodes ++ [n]) j = nth w.nodes j := fun j hj => nth_append_left (by omega)
  have low : ∀ x, aliveIn w.nodes w.m x → ∃ k ∈ a :: b :: rest, k.idx = x ∧ k.freq = (nth w.nodes x).freq := by
    intro x hx
    obtain ⟨k, hk, e⟩ := List.mem_map.1 ((hal x).2 hx)
    exact ⟨k, hk, e, e ▸ hkey k hk⟩
  have child_new : ∀ x, childIn (w.nodes ++ [n]) w.m x ↔ x = a.idx ∨ x = b.idx := by
    intro x
    rw [childIn, hnew, ← hn]
    simp [eq_comm]
  constructor
  · refine ⟨by have := h.nodes.le; simp; omega, fun j hj => ?_, fun j hj hj2 => ?_⟩
    · have := h.nodes.le
      rw [hold j (by omega)]
      exact h.nodes.leaves j hj
    · rcases Nat.lt_or_ge j w.m with hjm | hjm
      · exact innerOk_append (by omega) (h.nodes.inner j hj (by omega))
      · obtain rfl : j = w.m := by simp at hj2; omega
        constructor
        · rw [hnew, ← hn]
        · rw [hnew, ← hn]
        · rw [hnew, ← hn, alive_append (by omega)]; exact aA
        · rw [hnew, ← hn, alive_append (by omega)]; exact bA
        · rw [hnew, ← hn]; exact hnd.1.1
        · have e1 : n.left = a.idx := by rw [← hn]
          have e2 : n.right = b.idx := by rw [← hn]
          have e3 : n.freq = a.freq + b.freq := by rw [← hn]
          rw [hnew, e1, e2, e3, hold _ aA.1, hold _ bA.1, aF, bF]
        · intro x hx
          rw [alive_append (by omega)] at hx
          rw [hnew, ← hn, keyLe_append (by have := aA.1; simp; omega) (by have := hx.1; omega)]
          obtain ⟨k, hk, e1, e2⟩ := low x hx
          have : k = a ∨ a.le k := by
            rcases List.mem_cons.1 hk with e | hk
            · exact .inl e
            · exact .inr (hs.1 k (by simpa using hk))
          rcases this with rfl | this
          · unfold keyLeIn; simp [e1]
          · unfold Key.le at this; unfold keyLeIn
            simp only [← aF, ← e2]; omega
        · intro x hx hne
          rw [alive_append (by omega)] at hx
          rw [hnew, ← hn] at hne
          rw [hnew, ← hn, keyLe_append (by have := bA.1; simp; omega) (by have := hx.1; omega)]
          obtain ⟨k, hk, e1, e2⟩ := low x hx
          have : k = b ∨ b.le k := by
            rcases List.mem_cons.1 hk with e | hk
            · exact absurd (e ▸ e1.symm) hne
            · rcases List.mem_cons.1 hk with e | hk
              · exact .inl e
              · exact .inr (hs.2.1 k hk)
          rcases this with rfl | this
          · unfold keyLeIn; simp [e1]
          · unfold Key.le at this; unfold keyLeIn
            simp only [← bF, ← e2]; omega
  · simp [hlen]
  · exact pqInsert_sorted _ _ hs.2.2
  · intro k hk
    rcases List.mem_cons.1 ((pqInsert_perm _ _).mem_iff.1 hk) with rfl | hk
    · simp only [hnew]; rw [← hn]
    · have hA : aliveIn w.nodes w.m k.idx := (hal _).1 (by simp; exact .inr (.inr ⟨k, hk, rfl⟩))
      rw [hold _ hA.1]
      exact hkey k (by simp [hk])
  · intro j
    rw [((pqInsert_perm _ _).map Key.idx).mem_iff]
    simp only [List.map_cons, List.mem_cons]
    have haj := hal j
    simp only [List.map_cons, List.mem_cons] at haj
    constructor
    · rintro (rfl | hj)
      · refine ⟨by simp, fun q hq hc => ?_⟩
        rcases Nat.lt_or_ge q w.m with hq' | hq'
        · rw [childIn, hold q hq'] at hc
          rcases Nat.lt_or_ge q fl.length with hqf | hqf
          · rw [h.nodes.leaves q hqf] at hc; simp [leafOf] at hc
          · have := h.nodes.inner q hqf (by omega)
            have h1 := this.leftAlive.1
            have h2 := this.rightAlive.1
            have := hc.2
            omega
        · obtain rfl : q = w.m := by simp at hq; omega
          have h1 := aA.1
          have h2 := bA.1
          have := (child_new _).1 hc
          omega
      · obtain ⟨h1, h2⟩ := haj.1 (.inr (.inr hj))
        refine ⟨by simp; omega, fun q hq hc => ?_⟩
        rcases Nat.lt_or_ge q w.m with hq' | hq'
        · rw [childIn, hold q hq'] at hc
          exact h2 q hq' hc
        · obtain rfl : q = w.m := by simp at hq; omega
          rcases (child_new _).1 hc with rfl | rfl
          · exact hnd.1.2 hj
          · exact hnd.2.1 hj
    · rintro ⟨h1, h2⟩
      rcases Nat.lt_or_ge j w.m with hj | hj
      · have hA : aliveIn w.nodes w.m j := by
          refine ⟨hj, fun q hq hc => h2 q (by simp; omega) ?_⟩
          rw [childIn, hold q hq]; exact hc
        have hnc : ¬ (j = a.idx ∨ j = b.idx) := fun e => h2 w.m (by simp) ((child_new j).2 e)
        rcases haj.2 hA with e | e | e
        · exact absurd (.inl e) hnc
        · exact absurd (.inr e) hnc
        · exact .inr e
      · left; simp at h1; omega
  · rw [((pqInsert_perm _ _).map Key.idx).nodup_iff]
    simp only [List.map_cons, List.nodup_cons]
    refine ⟨fun hm => ?_, hnd.2.2⟩
    have : aliveIn w.nodes w.m w.m := (hal _).1 (by simp; exact .inr (.inr (by simpa using hm)))
    exact absurd this.1 (lt_irrefl _)
  · have := (pqInsert_perm { freq := a.freq + b.freq, idx := w.m } rest).length_eq
    simp only [List.length_cons] at hcount this
    simp only [this]
    omega

/-- The loop keeps the invariant. -/
theorem buildLoop_ok {p : Params} {fl : List Symbol} {n : Nat} {w w' : BuildWork} (h : BuildOk fl w)
    (hr : buildLoop p n w = .ok w') : BuildOk fl w' := by
  induction n generalizing w with
  | zero => cases hr; exact h
  | succ n ih =>
    simp only [buildLoop, buildPass] at hr
    split at hr
    · cases hr; exact h
    · next w1 h1 =>
      split at h1
      · next a b rest hpq =>
        split_ifs at h1
        · cases h1
          exact ih (merge_ok h hpq) hr
        · cases h1
      · cases h1
    · cases hr

/-- The loop leaves at most one node in the collection. -/
theorem buildLoop_done {p : Params} {n : Nat} {w w' : BuildWork} (hn : w.pq.length ≤ n + 1)
    (hr : buildLoop p n w = .ok w') : w'.pq.length ≤ 1 := by
  induction n generalizing w with
  | zero => cases hr; omega
  | succ n ih =>
    simp only [buildLoop, buildPass] at hr
    split at hr
    · next h1 =>
      cases hr
      split at h1
      · split_ifs at h1
      · next hnot =>
        match hw : w'.pq with
        | [] => simp
        | [_] => simp
        | a :: b :: rest => exact absurd hw (hnot a b rest)
    · next w1 h1 =>
      split at h1
      · next a b rest hpq =>
        split_ifs at h1
        · cases h1
          refine ih ?_ hr
          have := (pqInsert_perm { freq := a.freq + b.freq, idx := w.m } rest).length_eq
          simp only [this, List.length_cons]
          rw [hpq] at hn; simp at hn; omega
        · cases h1
      · cases h1
    · cases hr

theorem buildLoop_error {p : Params} {n : Nat} {w : BuildWork} {a : Abort} (hr : buildLoop p n w = .error a) :
    a = .raise .capacityExceeded := by
  induction n generalizing w with
  | zero => cases hr
  | succ n ih =>
    simp only [buildLoop, buildPass] at hr
    split at hr
    · cases hr
    · exact ih hr
    · next e h1 =>
      cases hr
      split at h1
      · split_ifs at h1
        · cases h1
        · exact (Except.error.inj (Option.some.inj h1)).symm
      · cases h1

/-- The end of a successful `BUILD` loop: `2k - 1` nodes, the root the last of them (41_build.md R144, R146). -/
theorem buildLoop_result {p : Params} {fl : List Symbol} {w : BuildWork} (hk : fl ≠ [])
    (hr : buildLoop p fl.length (buildLeaves fl Internal.empty.build) = .ok w) :
    NodesOk fl w.nodes ∧ w.nodes.length = 2 * fl.length - 1 ∧ rootOf w.pq = 2 * fl.length - 2 ∧
      (nth w.nodes (2 * fl.length - 2)).freq = (w.pq.map Key.freq).sum := by
  have hfl : 0 < fl.length := List.length_pos_iff.2 hk
  have h0 := buildLeaves_ok fl
  have h := buildLoop_ok h0 hr
  have hlen0 : (buildLeaves fl Internal.empty.build).pq.length ≤ fl.length + 1 := by
    have := h0.count
    have : (buildLeaves fl Internal.empty.build).m = fl.length :=
      (buildLeaves_nodes fl Internal.empty.build).2.trans (by simp [Internal.empty])
    omega
  have hd := buildLoop_done hlen0 hr
  have hc := h.count
  have hm : 0 < w.m := by have := h.nodes.le; have := h.len; omega
  -- the node made last is alive, so the collection holds it alone
  have hlast : aliveIn w.nodes w.m (w.m - 1) := by
    refine ⟨by omega, fun q hq hc => ?_⟩
    rcases Nat.lt_or_ge q fl.length with hqf | hqf
    · rw [childIn, h.nodes.leaves q hqf] at hc; simp [leafOf] at hc
    · have := h.nodes.inner q hqf (by have := h.len; omega)
      have h1 := this.leftAlive.1
      have h2 := this.rightAlive.1
      have := hc.2
      omega
  have hmem := (h.alive _).2 hlast
  obtain ⟨r, hr⟩ : ∃ r, w.pq = [r] := by
    match hw : w.pq with
    | [] => simp [hw] at hmem
    | [r] => exact ⟨r, rfl⟩
    | a :: b :: rest => simp [hw] at hd
  have hl := h.len
  have hkey := h.key r (by rw [hr]; exact List.mem_singleton_self r)
  rw [hr] at hmem hc
  simp only [List.map_cons, List.map_nil, List.mem_singleton] at hmem
  simp only [List.length_cons, List.length_nil] at hc
  have hidx : r.idx = 2 * fl.length - 2 := by omega
  refine ⟨h.nodes, by omega, by rw [hr]; exact hidx, ?_⟩
  rw [hr, ← hidx, ← hkey]; simp

/-! ## When the frequency sums fit -/

/-- The frequencies in the collection. -/
def pqTotal (pq : List Key) : Nat := (pq.map Key.freq).sum

theorem pqTotal_insert (k : Key) (pq : List Key) : pqTotal (pqInsert k pq) = k.freq + pqTotal pq := by
  have := ((pqInsert_perm k pq).map Key.freq).sum_eq
  simpa [pqTotal] using this

theorem buildLeaves_total (fl : List Symbol) (w : BuildWork) :
    pqTotal (buildLeaves fl w).pq = (fl.map Symbol.freq).sum + pqTotal w.pq := by
  induction fl generalizing w with
  | nil => simp [buildLeaves]
  | cons x xs ih => rw [buildLeaves, ih, pqTotal_insert]; simp; omega

/-- The sum over the collection is kept (41_build.md R147). -/
theorem buildLoop_total {p : Params} {n : Nat} {w w' : BuildWork} (hr : buildLoop p n w = .ok w') :
    pqTotal w'.pq = pqTotal w.pq := by
  induction n generalizing w with
  | zero => cases hr; rfl
  | succ n ih =>
    simp only [buildLoop, buildPass] at hr
    split at hr
    · cases hr; rfl
    · next w1 h1 =>
      split at h1
      · next a b rest hpq =>
        split_ifs at h1
        · cases h1
          refine (ih hr).trans ?_
          rw [pqTotal_insert, hpq]; simp [pqTotal]; omega
        · cases h1
      · cases h1
    · cases hr

/-- The loop succeeds when the sum of all frequencies fits, which is the root's (41_build.md R147). -/
theorem buildLoop_isOk {p : Params} (n : Nat) (w : BuildWork) (h : fits p.freqW (pqTotal w.pq) = true) :
    ∃ w', buildLoop p n w = .ok w' := by
  induction n generalizing w with
  | zero => exact ⟨w, rfl⟩
  | succ n ih =>
    simp only [buildLoop, buildPass]
    match hw : w.pq with
    | [] => exact ⟨w, rfl⟩
    | [r] => exact ⟨w, rfl⟩
    | a :: b :: rest =>
      rw [hw] at h
      have hab : fits p.freqW (a.freq + b.freq) = true := fits_mono (by simp [pqTotal]) h
      simp only [hab, if_true]
      refine ih _ ?_
      rw [pqTotal_insert]
      refine fits_mono ?_ h
      simp [pqTotal]; omega

/-- A merge loop that ends has checked the sum of all frequencies, if it merged at all. -/
theorem buildLoop_fits {p : Params} {n : Nat} {w w' : BuildWork} (hn : w.pq.length ≤ n + 1)
    (h2 : 2 ≤ w.pq.length) (hr : buildLoop p n w = .ok w') : fits p.freqW (pqTotal w.pq) = true := by
  induction n generalizing w with
  | zero => omega
  | succ n ih =>
    simp only [buildLoop, buildPass] at hr
    match hw : w.pq with
    | [] => simp [hw] at h2
    | [r] => simp [hw] at h2
    | a :: b :: rest =>
      simp only [hw] at hr
      by_cases hab : fits p.freqW (a.freq + b.freq) = true
      · simp only [hab, if_true] at hr
        have hlen := (pqInsert_perm { freq := a.freq + b.freq, idx := w.m } rest).length_eq
        simp only [List.length_cons] at hlen
        cases rest with
        | nil => simpa [pqTotal] using hab
        | cons c rest =>
          have := ih (by simp only [hlen]; rw [hw] at hn; simpa using hn) (by simp only [hlen]; simp) hr
          rw [pqTotal_insert] at this
          simpa [pqTotal, Nat.add_assoc] using this
      · simp [hab] at hr

end Sys2Proof.Machine
end

