-- ==== Sys2Proof/Laws/Codes.lean ====
section
/-! SUPPORT. Bit strings, codes and bytes (00_scope.md R13; 20_memory.md R64 to R67): a code is its own bits, a
packed byte gives the bits back. -/

namespace Sys2Proof.Machine

/-- The natural a bit string spells, first bit most significant. -/
def bitsVal : List Bool → Nat
  | [] => 0
  | b :: bs => b.toNat * 2 ^ bs.length + bitsVal bs

@[simp] theorem codeBits_length (pat len : Nat) : (codeBits pat len).length = len := by
  induction len with
  | zero => rfl
  | succ n ih => simp [codeBits, ih]

@[simp] theorem code_length (e : Entry) : e.code.length = e.len := codeBits_length _ _

theorem bitsVal_lt (bs : List Bool) : bitsVal bs < 2 ^ bs.length := by
  induction bs with
  | nil => simp [bitsVal]
  | cons b bs ih =>
    rw [bitsVal, List.length_cons, pow_succ]
    cases b <;> simp <;> omega

theorem codeBits_add_mul (pat k len : Nat) : codeBits (pat + k * 2 ^ len) len = codeBits pat len := by
  suffices h : ∀ n ≤ len, codeBits (pat + k * 2 ^ len) n = codeBits pat n from h len le_rfl
  intro n
  induction n with
  | zero => intro _; rfl
  | succ n ih =>
    intro hn
    simp only [codeBits]
    rw [ih (by omega)]
    congr 1
    have hp : k * 2 ^ len = 2 ^ n * (2 * (k * 2 ^ (len - n - 1))) := by
      have : len = n + 1 + (len - n - 1) := by omega
      conv_lhs => rw [this, pow_add, pow_succ]
      ring
    rw [hp, Nat.add_mul_div_left _ _ (by positivity), Nat.add_mul_mod_self_left]

/-- Bits at and above the length do not matter (43_pack.md R198). -/
theorem codeBits_mod (pat len : Nat) : codeBits (pat % 2 ^ len) len = codeBits pat len := by
  conv_rhs => rw [← Nat.mod_add_div pat (2 ^ len), mul_comm]
  rw [codeBits_add_mul]

theorem codeBits_bitsVal (bs : List Bool) : codeBits (bitsVal bs) bs.length = bs := by
  induction bs with
  | nil => rfl
  | cons b bs ih =>
    rw [List.length_cons, codeBits, bitsVal]
    congr 1
    · have := bitsVal_lt bs
      rw [Nat.add_comm, Nat.add_mul_div_right _ _ (by positivity), Nat.div_eq_of_lt this]
      cases b <;> simp
    · rw [Nat.add_comm, codeBits_add_mul, ih]

theorem bitsVal_codeBits (pat len : Nat) : bitsVal (codeBits pat len) = pat % 2 ^ len := by
  induction len with
  | zero => simp [codeBits, bitsVal, Nat.mod_one]
  | succ n ih =>
    rw [codeBits, bitsVal, codeBits_length, ih, Nat.mod_pow_succ]
    rcases Nat.mod_two_eq_zero_or_one (pat / 2 ^ n) with h | h <;> (simp [h]; try omega)

theorem bitsVal_append_bit (bs : List Bool) (b : Bool) : bitsVal (bs ++ [b]) = 2 * bitsVal bs + b.toNat := by
  induction bs with
  | nil => simp [bitsVal]
  | cons c bs ih => simp only [List.cons_append, bitsVal, ih, List.length_append, List.length_singleton, pow_succ]; ring

theorem bitsVal_append (as bs : List Bool) : bitsVal (as ++ bs) = bitsVal as * 2 ^ bs.length + bitsVal bs := by
  induction as with
  | nil => simp [bitsVal]
  | cons c as ih => simp only [List.cons_append, bitsVal, ih, List.length_append, pow_add]; ring

/-- A well-formed entry matches exactly the accumulator that spells its code (44_unpack.md R214). -/
theorem wf_code_iff {e : Entry} (h : e.pat < 2 ^ e.len) (bs : List Bool) :
    (e.len = bs.length ∧ e.pat = bitsVal bs) ↔ e.code = bs := by
  constructor
  · rintro ⟨h1, h2⟩
    rw [Entry.code, h1, h2, codeBits_bitsVal]
  · rintro rfl
    exact ⟨by simp, by rw [Entry.code, bitsVal_codeBits, Nat.mod_eq_of_lt h]⟩

/-- The prefix test on pairs is the prefix test on bit strings (00_scope.md R13). -/
theorem prefix_pair_iff {a b : Entry} (ha : a.pat < 2 ^ a.len) (hb : b.pat < 2 ^ b.len) :
    (a.len ≤ b.len ∧ b.pat / 2 ^ (b.len - a.len) = a.pat) ↔ a.code <+: b.code := by
  constructor
  · rintro ⟨h1, h2⟩
    have hsplit : b.code = codeBits a.pat a.len ++ codeBits b.pat (b.len - a.len) := by
      have hlen : ((codeBits a.pat a.len) ++ codeBits b.pat (b.len - a.len)).length = b.len := by simp; omega
      refine ((wf_code_iff hb _).1 ⟨hlen.symm, ?_⟩)
      rw [bitsVal_append, bitsVal_codeBits, bitsVal_codeBits, codeBits_length, Nat.mod_eq_of_lt ha, ← h2]
      exact (Nat.div_add_mod' _ _).symm
    exact ⟨_, hsplit.symm⟩
  · rintro ⟨u, hu⟩
    have hl : a.len + u.length = b.len := by simpa using congrArg List.length hu
    have hp := ((wf_code_iff hb _).2 hu.symm).2
    rw [bitsVal_append, Entry.code, bitsVal_codeBits, Nat.mod_eq_of_lt ha] at hp
    refine ⟨by omega, ?_⟩
    rw [show b.len - a.len = u.length by omega, hp, Nat.add_comm, Nat.add_mul_div_right _ _ (by positivity),
      Nat.div_eq_of_lt (bitsVal_lt u), Nat.zero_add]

/-! ## Bytes -/

theorem byteOf_bits (b0 b1 b2 b3 b4 b5 b6 b7 : Bool) (u : Fin 8) :
    (byteOf fun i => [b0, b1, b2, b3, b4, b5, b6, b7].getD i false).toNat / 2 ^ (7 - u.val) % 2 =
      ([b0, b1, b2, b3, b4, b5, b6, b7].getD u.val false).toNat := by
  revert b0 b1 b2 b3 b4 b5 b6 b7 u; decide

theorem byteOf_congr {f g : Nat → Bool} (h : ∀ u < 8, f u = g u) : byteOf f = byteOf g := by
  simp [byteOf, List.range_succ, h]

theorem byteOf_bit (f : Nat → Bool) {u : Nat} (hu : u < 8) : (byteOf f).toNat / 2 ^ (7 - u) % 2 = (f u).toNat := by
  have h : ∀ i < 8, f i = [f 0, f 1, f 2, f 3, f 4, f 5, f 6, f 7].getD i false := by
    intro i hi
    interval_cases i <;> rfl
  rw [byteOf_congr h, h u hu]
  exact byteOf_bits _ _ _ _ _ _ _ _ ⟨u, hu⟩

@[simp] theorem packBytes_length (l : List Bool) : (packBytes l).length = ceil8 l.length := by simp [packBytes]

theorem lt_ceil8 {q n : Nat} (h : q < n) : q / 8 < ceil8 n := by unfold ceil8; omega

/-- Every bit of a packed byte: the stream's bit, or padding 0 (20_memory.md R64, R66). -/
theorem packBytes_bit (l : List Bool) (q : Nat) (h : q / 8 < (packBytes l).length) :
    bitOf ((packBytes l)[q / 8]) q = (l.getD q false).toNat := by
  have e : (packBytes l)[q / 8] = byteOf fun u => l.getD (8 * (q / 8) + u) false := by simp [packBytes]
  rw [bitOf, e, byteOf_bit _ (Nat.mod_lt _ (by decide)), Nat.div_add_mod]

/-- A bit as the decoder computes it is the bit at that position (20_memory.md R64, 44_unpack.md R212). -/
theorem bitOf_eq (b : Byte) (q : Nat) : bitOf b q = (b.getLsbD (7 - q % 8)).toNat := by
  have h : b.getLsbD (7 - q % 8) = decide (b.toNat / 2 ^ (7 - q % 8) % 2 = 1) := Nat.testBit_eq_decide_div_mod_eq
  unfold bitOf
  rw [h]
  rcases Nat.mod_two_eq_zero_or_one (b.toNat / 2 ^ (7 - q % 8)) with e | e <;> simp [e]

theorem streamBit_toNat (s : State) (q : Nat) : (s.streamBit q).toNat = bitOf (s.bufAt (q / 8)) q := (bitOf_eq _ _).symm

/-- A bit of a stream that was written: the stream's bit, or padding 0. -/
theorem streamBit_writeStream (s : State) (l : List Bool) {n q : Nat} (h : l.length = n) (hq : q / 8 < ceil8 n) :
    (s.writeStream (packBytes l) n).streamBit q = l.getD q false := by
  subst h
  have hb : q / 8 < (packBytes l).length := by rw [packBytes_length]; exact hq
  have := streamBit_toNat (s.writeStream (packBytes l) l.length) q
  rw [bufAt_writeStream _ _ _ _ hb, packBytes_bit l q hb] at this
  generalize (s.writeStream (packBytes l) l.length).streamBit q = a at this ⊢
  generalize l.getD q false = b at this ⊢
  revert this; cases a <;> cases b <;> decide

/-- The stream written is the stream read. -/
theorem streamBits_writeStream (s : State) (l : List Bool) {n : Nat} (h : l.length = n) :
    (s.writeStream (packBytes l) n).streamBits = l := by
  subst h
  have : (s.writeStream (packBytes l) l.length).streamBits =
      (List.range l.length).map (s.writeStream (packBytes l) l.length).streamBit := rfl
  rw [this]
  refine map_range_getElem l _ fun q hq => ?_
  rw [streamBit_writeStream s l rfl (lt_ceil8 hq)]
  simp [List.getD, hq]

end Sys2Proof.Machine
end

