-- ==== Sys2Proof/Laws/Gentab.lean ====
section
/-! SUPPORT. The traversal of 42_gentab.md: a tree of 10_state.md R36 as an inductive tree, its paths, and what the
loop emits on it. -/

namespace Sys2Proof.Machine

/-- A tree of node indices. -/
inductive HTree where
  | leaf (j : Nat)
  | node (j : Nat) (l r : HTree)

/-- The index of the tree's own node. -/
def HTree.top : HTree → Nat
  | .leaf j => j
  | .node j _ _ => j

/-- Every index of the tree, in pre-order. -/
def HTree.nodes : HTree → List Nat
  | .leaf j => [j]
  | .node j l r => j :: (l.nodes ++ r.nodes)

/-- The leaves with the paths to them, left first (42_gentab.md R172, R174). -/
def HTree.paths : HTree → List (List Bool × Nat)
  | .leaf j => [([], j)]
  | .node _ l r => l.paths.map (fun x => (false :: x.1, x.2)) ++ r.paths.map (fun x => (true :: x.1, x.2))

/-- The tree is the part of `NODE` below its own node. -/
def HTree.Rep (s : State) : HTree → Prop
  | .leaf j => j < s.regs.nodeCnt ∧ (s.nodeAt j).leaf = true
  | .node j l r =>
    j < s.regs.nodeCnt ∧ (s.nodeAt j).leaf = false ∧ l.top = (s.nodeAt j).left ∧ r.top = (s.nodeAt j).right ∧
      l.Rep s ∧ r.Rep s

theorem HTree.Rep.lt {s : State} {t : HTree} (h : t.Rep s) : ∀ x ∈ t.nodes, x < s.regs.nodeCnt := by
  induction t with
  | leaf j => simpa [HTree.nodes] using h.1
  | node j l r ihl ihr =>
    obtain ⟨hj, -, -, -, hl, hr⟩ := h
    intro x hx
    simp only [HTree.nodes, List.mem_cons, List.mem_append] at hx
    rcases hx with rfl | hx | hx
    · exact hj
    · exact ihl hl x hx
    · exact ihr hr x hx

theorem HTree.top_mem (t : HTree) : t.top ∈ t.nodes := by cases t <;> simp [HTree.top, HTree.nodes]

/-! ## The tree of `NODE` -/

theorem exists_tree {s : State} (h : TreeOk s) {j : Nat} (hj : j < s.regs.nodeCnt) :
    ∃ t : HTree, t.Rep s ∧ t.top = j := by
  induction j using Nat.strong_induction_on with
  | _ j ih =>
    cases hl : (s.nodeAt j).leaf with
    | true => exact ⟨.leaf j, ⟨hj, hl⟩, rfl⟩
    | false =>
      obtain ⟨h1, h2, -, -⟩ := h.2.2.2.1 j hj hl
      obtain ⟨l, hl1, hl2⟩ := ih _ h1 (by omega)
      obtain ⟨r, hr1, hr2⟩ := ih _ h2 (by omega)
      exact ⟨.node j l r, ⟨hj, hl, hl2, hr2, hl1, hr1⟩, rfl⟩

theorem nodes_le {s : State} (h : TreeOk s) {t : HTree} (ht : t.Rep s) : ∀ x ∈ t.nodes, x ≤ t.top := by
  induction t with
  | leaf j => simp [HTree.nodes, HTree.top]
  | node j l r ihl ihr =>
    obtain ⟨hj, hlf, hl, hr, hl', hr'⟩ := ht
    obtain ⟨h1, h2, -, -⟩ := h.2.2.2.1 j hj hlf
    intro x hx
    simp only [HTree.nodes, List.mem_cons, List.mem_append] at hx
    simp only [HTree.top]
    rcases hx with rfl | hx | hx
    · exact le_rfl
    · have := ihl hl' x hx; omega
    · have := ihr hr' x hx; omega

/-- Every node of a tree but its own is a child of a node of the tree. -/
theorem parent_in_tree {s : State} {t : HTree} (ht : t.Rep s) :
    ∀ x ∈ t.nodes, x ≠ t.top → ∃ q ∈ t.nodes, isChild s q x := by
  induction t with
  | leaf j => simp [HTree.nodes, HTree.top]
  | node j l r ihl ihr =>
    obtain ⟨hj, hlf, hl, hr, hl', hr'⟩ := ht
    intro x hx hne
    simp only [HTree.nodes, List.mem_cons, List.mem_append] at hx ⊢
    simp only [HTree.top] at hne
    rcases hx with rfl | hx | hx
    · exact absurd rfl hne
    · by_cases e : x = l.top
      · exact ⟨j, .inl rfl, hlf, .inl (by rw [e, hl])⟩
      · obtain ⟨q, hq, hc⟩ := ihl hl' x hx e
        exact ⟨q, .inr (.inl hq), hc⟩
    · by_cases e : x = r.top
      · exact ⟨j, .inl rfl, hlf, .inr (by rw [e, hr])⟩
      · obtain ⟨q, hq, hc⟩ := ihr hr' x hx e
        exact ⟨q, .inr (.inr hq), hc⟩

/-- The children of a tree's internal nodes are in the tree. -/
theorem child_in_tree {s : State} {t : HTree} (ht : t.Rep s) {q x : Nat} (hq : q ∈ t.nodes) (hc : isChild s q x) :
    x ∈ t.nodes := by
  induction t with
  | leaf j =>
    simp only [HTree.nodes, List.mem_singleton] at hq
    subst hq
    exact absurd hc.1 (by rw [ht.2]; simp)
  | node j l r ihl ihr =>
    obtain ⟨hj, hlf, hl, hr, hl', hr'⟩ := ht
    simp only [HTree.nodes, List.mem_cons, List.mem_append] at hq ⊢
    rcases hq with rfl | hq | hq
    · rcases hc.2 with e | e
      · exact .inr (.inl (by rw [← e, ← hl]; exact l.top_mem))
      · exact .inr (.inr (by rw [← e, ← hr]; exact r.top_mem))
    · exact .inr (.inl (ihl hl' hq))
    · exact .inr (.inr (ihr hr' hq))

theorem isChild_lt {s : State} (h : TreeOk s) {q x : Nat} (hq : q < s.regs.nodeCnt) (hc : isChild s q x) : x < q := by
  obtain ⟨h1, h2, -, -⟩ := h.2.2.2.1 q hq hc.1
  rcases hc.2 with e | e <;> omega

theorem unique_parent {s : State} (h : TreeOk s) {q q' x : Nat} (hq : q < s.regs.nodeCnt) (hq' : q' < s.regs.nodeCnt)
    (hc : isChild s q x) (hc' : isChild s q' x) : q = q' := by
  have hx : x < s.regs.nodeCnt := lt_trans (isChild_lt h hq hc) hq
  have hne : x ≠ s.regs.root := fun e => h.2.2.2.2.2.1 q hq (e ▸ hc)
  obtain ⟨p, hp, -, hu⟩ := h.2.2.2.2.1 x hx hne
  rw [hu q hq hc, hu q' hq' hc']

/-- The two subtrees of a node share nothing (10_state.md R36). -/
theorem subtrees_disjoint {s : State} (h : TreeOk s) {j : Nat} (hj : j < s.regs.nodeCnt)
    (hlf : (s.nodeAt j).leaf = false) {l r : HTree} (hl : l.top = (s.nodeAt j).left)
    (hr : r.top = (s.nodeAt j).right) (hl' : l.Rep s) (hr' : r.Rep s) :
    ∀ x ∈ l.nodes, x ∉ r.nodes := by
  obtain ⟨hlj, hrj, hne, -⟩ := h.2.2.2.1 j hj hlf
  have key : ∀ n x, s.regs.nodeCnt - x ≤ n → x ∈ l.nodes → x ∈ r.nodes → False := by
    intro n
    induction n with
    | zero => intro x hx hxl _; have := hl'.lt x hxl; omega
    | succ n ih =>
      intro x hx hxl hxr
      have parent_of : ∀ {t t' : HTree}, t.Rep s → t'.Rep s → t.top < j → isChild s j t'.top → x ∈ t.nodes →
          x = t'.top → x ≠ t.top → False := by
        intro t t' ht ht' htj hc hxt e hne'
        obtain ⟨q, hq, hqc⟩ := parent_in_tree ht x hxt hne'
        have : q = j := unique_parent h (ht.lt q hq) hj hqc (e ▸ hc)
        have := nodes_le h ht q hq
        omega
      by_cases el : x = l.top
      · refine parent_of hr' hl' (by omega) ⟨hlf, .inl hl.symm⟩ hxr el ?_
        rw [el, hl, hr]; exact hne
      · by_cases er : x = r.top
        · exact parent_of hl' hr' (by omega) ⟨hlf, .inr hr.symm⟩ hxl er el
        · obtain ⟨q, hq, hqc⟩ := parent_in_tree hl' x hxl el
          obtain ⟨q', hq', hqc'⟩ := parent_in_tree hr' x hxr er
          have e : q = q' := unique_parent h (hl'.lt q hq) (hr'.lt q' hq') hqc hqc'
          have hlt := isChild_lt h (hl'.lt q hq) hqc
          have := hl'.lt q hq
          exact ih q (by omega) hq (e ▸ hq')
  exact fun x hxl hxr => key _ x le_rfl hxl hxr

theorem nodes_nodup {s : State} (h : TreeOk s) {t : HTree} (ht : t.Rep s) : t.nodes.Nodup := by
  induction t with
  | leaf j => simp [HTree.nodes]
  | node j l r ihl ihr =>
    obtain ⟨hj, hlf, hl, hr, hl', hr'⟩ := ht
    obtain ⟨h1, h2, -, -⟩ := h.2.2.2.1 j hj hlf
    simp only [HTree.nodes, List.nodup_cons, List.mem_append, List.nodup_append]
    refine ⟨?_, ihl hl', ihr hr', fun a ha b hb e => ?_⟩
    · rintro (hm | hm)
      · have := nodes_le h hl' j hm; omega
      · have := nodes_le h hr' j hm; omega
    · subst e
      exact subtrees_disjoint h hj hlf hl hr hl' hr' a ha hb

/-- The whole tree holds every node once. -/
theorem root_tree {s : State} (h : TreeOk s) :
    ∃ t : HTree, t.Rep s ∧ t.top = s.regs.root ∧ t.nodes.Perm (List.range s.regs.nodeCnt) := by
  obtain ⟨t, ht, htop⟩ := exists_tree h (j := s.regs.root) (by have := h.2.1; omega)
  refine ⟨t, ht, htop, (List.perm_ext_iff_of_nodup (nodes_nodup h ht) List.nodup_range).2 fun x => ?_⟩
  rw [List.mem_range]
  refine ⟨ht.lt x, ?_⟩
  have key : ∀ n x, s.regs.nodeCnt - x ≤ n → x < s.regs.nodeCnt → x ∈ t.nodes := by
    intro n
    induction n with
    | zero => intro x hn hx; omega
    | succ n ih =>
      intro x hn hx
      by_cases e : x = s.regs.root
      · rw [e, ← htop]; exact t.top_mem
      · obtain ⟨q, hq, hc, -⟩ := h.2.2.2.2.1 x hx e
        have := isChild_lt h hq hc
        exact child_in_tree ht (ih q (by omega) hq) hc
  exact key _ x le_rfl

/-! ## Paths -/

/-- Two strings part: one goes left where the other goes right (42_gentab.md R174, R177). -/
def Parts (as bs : List Bool) : Prop := ∃ c x y, as = c ++ false :: x ∧ bs = c ++ true :: y

theorem Parts.not_prefix {as bs : List Bool} (h : Parts as bs) : ¬ as <+: bs ∧ ¬ bs <+: as := by
  obtain ⟨c, x, y, rfl, rfl⟩ := h
  constructor <;> (rw [List.prefix_append_right_inj]; simp [List.cons_prefix_cons])

theorem paths_pairwise (t : HTree) : t.paths.Pairwise fun a b => Parts a.1 b.1 := by
  induction t with
  | leaf j => simp [HTree.paths]
  | node j l r ihl ihr =>
    rw [HTree.paths, List.pairwise_append]
    refine ⟨List.pairwise_map.2 (ihl.imp ?_), List.pairwise_map.2 (ihr.imp ?_), fun a ha b hb => ?_⟩
    · rintro a b ⟨c, x, y, e1, e2⟩
      exact ⟨false :: c, x, y, by simp [e1], by simp [e2]⟩
    · rintro a b ⟨c, x, y, e1, e2⟩
      exact ⟨true :: c, x, y, by simp [e1], by simp [e2]⟩
    · obtain ⟨a', -, rfl⟩ := List.mem_map.1 ha
      obtain ⟨b', -, rfl⟩ := List.mem_map.1 hb
      exact ⟨[], a'.1, b'.1, rfl, rfl⟩

theorem paths_walk {s : State} {t : HTree} (ht : t.Rep s) : ∀ x ∈ t.paths,
    walk s t.top x.1 = some x.2 ∧ (s.nodeAt x.2).leaf = true ∧ x.2 < s.regs.nodeCnt := by
  induction t with
  | leaf j => simpa [HTree.paths, HTree.top, walk] using ⟨ht.2, ht.1⟩
  | node j l r ihl ihr =>
    obtain ⟨hj, hlf, hl, hr, hl', hr'⟩ := ht
    intro x hx
    simp only [HTree.paths, List.mem_append, List.mem_map] at hx
    rcases hx with ⟨y, hy, rfl⟩ | ⟨y, hy, rfl⟩
    · have := ihl hl' y hy
      rw [hl] at this
      simpa [HTree.top, walk, hlf] using this
    · have := ihr hr' y hy
      rw [hr] at this
      simpa [HTree.top, walk, hlf] using this

/-- The leaves reached are the tree's leaves, each once. -/
theorem paths_leaves {s : State} {t : HTree} (ht : t.Rep s) :
    t.paths.map Prod.snd = t.nodes.filter fun x => (s.nodeAt x).leaf := by
  induction t with
  | leaf j => simp [HTree.paths, HTree.nodes, ht.2]
  | node j l r ihl ihr =>
    obtain ⟨hj, hlf, hl, hr, hl', hr'⟩ := ht
    simp only [HTree.paths, HTree.nodes, List.map_append, List.map_map, List.filter_cons, hlf, List.filter_append,
      Bool.false_eq_true, if_false, ← ihl hl', ← ihr hr']
    rfl

/-- Every walk from the tree's node to a leaf is one of its paths. -/
theorem walk_paths {s : State} {t : HTree} (ht : t.Rep s) {bs : List Bool} {j : Nat} (hw : walk s t.top bs = some j)
    (hj : (s.nodeAt j).leaf = true) : (bs, j) ∈ t.paths := by
  induction t generalizing bs with
  | leaf k =>
    cases bs with
    | nil => simpa [HTree.paths, walk, HTree.top, eq_comm] using hw
    | cons b bs => simp [walk, HTree.top, ht.2] at hw
  | node k l r ihl ihr =>
    obtain ⟨hk, hlf, hl, hr, hl', hr'⟩ := ht
    cases bs with
    | nil =>
      simp only [walk, HTree.top, Option.some.injEq] at hw
      subst hw
      rw [hlf] at hj; cases hj
    | cons b bs =>
      simp only [walk, HTree.top, hlf, Bool.false_eq_true, if_false] at hw
      simp only [HTree.paths, List.mem_append, List.mem_map]
      cases b with
      | false => exact .inl ⟨(bs, j), ihl hl' (by rw [hl]; simpa using hw), rfl⟩
      | true => exact .inr ⟨(bs, j), ihr hr' (by rw [hr]; simpa using hw), rfl⟩

/-! ## The loop -/

/-- The entries the loop emits for a tree reached with the string `(pat, len)`. -/
def HTree.entries (s : State) (t : HTree) (pat len : Nat) : List Entry :=
  t.paths.map fun x =>
    { sym := (s.nodeAt x.2).sym, pat := pat * 2 ^ x.1.length + bitsVal x.1, len := len + x.1.length }

theorem entries_node (s : State) (j : Nat) (l r : HTree) (pat len : Nat) :
    (HTree.node j l r).entries s pat len =
      l.entries s (2 * pat) (len + 1) ++ r.entries s (2 * pat + 1) (len + 1) := by
  simp only [HTree.entries, HTree.paths, List.map_append, List.map_map]
  congr 1 <;> (refine List.map_congr_left fun x _ => ?_; simp [bitsVal, pow_succ]; constructor <;> ring)

/-- One tree off the stack (42_gentab.md R176). -/
theorem gentabLoop_tree {s : State} {t : HTree} (ht : t.Rep s) (fuel pat len : Nat) (rest : List StackItem)
    (table : List Entry) (hf : t.nodes.length ≤ fuel) :
    gentabLoop s fuel { stk := { node := t.top, pat := pat, len := len } :: rest, table := table } =
      if ∃ x ∈ t.paths, codeTooLong s.cfg (len + x.1.length) = true then .error (.raise .capacityExceeded)
      else
        gentabLoop s (fuel - t.nodes.length) { stk := rest, table := table ++ t.entries s pat len } := by
  induction t generalizing fuel pat len rest table with
  | leaf j =>
    obtain ⟨n, rfl⟩ : ∃ n, fuel = n + 1 := ⟨fuel - 1, by simp [HTree.nodes] at hf; omega⟩
    obtain ⟨hj, hlf⟩ := ht
    rw [gentabLoop]
    simp only [gentabPass, HTree.top, Nat.not_le.2 hj, if_false, hlf, if_true, HTree.paths, List.mem_singleton,
      exists_eq_left, List.length_nil, Nat.add_zero]
    split_ifs with hc
    · rfl
    · simp [HTree.nodes, HTree.entries, HTree.paths, bitsVal]
  | node j l r ihl ihr =>
    obtain ⟨hj, hlf, hl, hr, hl', hr'⟩ := ht
    simp only [HTree.nodes, List.length_cons, List.length_append] at hf
    obtain ⟨n, rfl⟩ : ∃ n, fuel = n + 1 := ⟨fuel - 1, by omega⟩
    rw [gentabLoop]
    simp only [gentabPass, HTree.top, Nat.not_le.2 hj, if_false, hlf, Bool.false_eq_true]
    rw [← hl, ← hr, ihl hl' n (2 * pat) (len + 1) _ table (by omega)]
    by_cases hcl : ∃ x ∈ l.paths, codeTooLong s.cfg (len + 1 + x.1.length) = true
    · rw [if_pos hcl, if_pos]
      obtain ⟨x, hx, hc⟩ := hcl
      refine ⟨(false :: x.1, x.2), by simp [HTree.paths, hx], ?_⟩
      rw [← hc]; simp only [List.length_cons]; congr 1; omega
    · rw [if_neg hcl, ihr hr' _ (2 * pat + 1) (len + 1) _ _ (by omega)]
      by_cases hcr : ∃ x ∈ r.paths, codeTooLong s.cfg (len + 1 + x.1.length) = true
      · rw [if_pos hcr, if_pos]
        obtain ⟨x, hx, hc⟩ := hcr
        refine ⟨(true :: x.1, x.2), by simp [HTree.paths, hx], ?_⟩
        rw [← hc]; simp only [List.length_cons]; congr 1; omega
      · rw [if_neg hcr, if_neg, entries_node, List.append_assoc]
        · congr 1
          simp only [HTree.nodes, List.length_cons, List.length_append]; omega
        · rintro ⟨x, hx, hc⟩
          simp only [HTree.paths, List.mem_append, List.mem_map] at hx
          rcases hx with ⟨y, hy, rfl⟩ | ⟨y, hy, rfl⟩
          · exact hcl ⟨y, hy, by rw [← hc]; simp only [List.length_cons]; congr 1; omega⟩
          · exact hcr ⟨y, hy, by rw [← hc]; simp only [List.length_cons]; congr 1; omega⟩

/-- The whole traversal of a tree of 10_state.md R36. -/
theorem gentabLoop_root {s : State} {t : HTree} (ht : t.Rep s) (hn : t.nodes.length = s.regs.nodeCnt) :
    gentabLoop s s.regs.nodeCnt { stk := [{ node := t.top, pat := 0, len := 0 }], table := [] } =
      if ∃ x ∈ t.paths, codeTooLong s.cfg x.1.length = true then .error (.raise .capacityExceeded)
      else .ok { stk := [], table := t.entries s 0 0 } := by
  rw [gentabLoop_tree ht _ _ _ _ _ hn.le]
  simp only [Nat.zero_add]
  split_ifs
  · rfl
  · unfold gentabLoop; simp

theorem entries_code (s : State) (t : HTree) :
    (t.entries s 0 0).map Entry.code = t.paths.map Prod.fst := by
  simp only [HTree.entries, List.map_map]
  refine List.map_congr_left fun x _ => ?_
  simp [Entry.code, codeBits_bitsVal]

theorem entries_wf (s : State) (t : HTree) : ∀ e ∈ t.entries s 0 0, e.pat < 2 ^ e.len := by
  intro e he
  obtain ⟨x, -, rfl⟩ := List.mem_map.1 he
  simpa using bitsVal_lt x.1

theorem entries_parts (s : State) (t : HTree) :
    (t.entries s 0 0).Pairwise fun a b => Parts a.code b.code := by
  have h : ((t.entries s 0 0).map Entry.code).Pairwise Parts := by
    rw [entries_code]; exact List.pairwise_map.2 (paths_pairwise t)
  exact List.pairwise_map.1 h

/-- A table of well-formed entries whose codes part is prefix-free (42_gentab.md R177). -/
theorem prefixClash_of_parts {l : List Entry} (hwf : ∀ e ∈ l, e.pat < 2 ^ e.len)
    (h : l.Pairwise fun a b => Parts a.code b.code) : prefixClash l = false := by
  induction l with
  | nil => rfl
  | cons e rest ih =>
    rw [List.pairwise_cons] at h
    simp only [prefixClash, Bool.or_eq_false_iff, List.any_eq_false]
    refine ⟨fun f hf => ?_, ih (fun x hx => hwf x (List.mem_cons_of_mem _ hx)) h.2⟩
    have hp := (h.1 f hf).not_prefix
    have he := hwf e (List.mem_cons_self ..)
    have hf' := hwf f (List.mem_cons_of_mem _ hf)
    have e1 := prefix_pair_iff he hf'
    have e2 := prefix_pair_iff hf' he
    simp only [Entry.isPrefixOf, Bool.or_eq_true, Bool.and_eq_true, decide_eq_true_eq, beq_iff_eq, not_or]
    exact ⟨fun x => hp.1 (e1.1 x), fun x => hp.2 (e2.1 x)⟩

end Sys2Proof.Machine
end

