-- ==== Sys2Proof/Laws/Stages.lean ====
section
/-! SUPPORT. What each stage can do, said once: its error or the state it ends in (the pseudocode of 40_count.md R121,
41_build.md R152, 42_gentab.md R171, 45_chktab.md R241). -/

namespace Sys2Proof.Machine

@[simp] theorem start_symList (s : State) : s.start.symList = s.symList := rfl
@[simp] theorem start_flList (s : State) : s.start.flList = s.flList := rfl
@[simp] theorem start_nodeList (s : State) : s.start.nodeList = s.nodeList := rfl
@[simp] theorem start_ctList (s : State) : s.start.ctList = s.ctList := rfl
@[simp] theorem start_nodeAt (s : State) (i : Nat) : s.start.nodeAt i = s.nodeAt i := rfl
@[simp] theorem start_bufAt (s : State) (i : Nat) : s.start.bufAt i = s.bufAt i := rfl

@[simp] theorem symList_length (s : State) : s.symList.length = s.regs.symLen := by simp [State.symList]
@[simp] theorem flList_length (s : State) : s.flList.length = s.regs.flLen := by simp [State.flList]
@[simp] theorem nodeList_length (s : State) : s.nodeList.length = s.regs.nodeCnt := by simp [State.nodeList]
@[simp] theorem ctList_length (s : State) : s.ctList.length = s.regs.ctLen := by simp [State.ctList]
@[simp] theorem bufList_length (s : State) : s.bufList.length = s.regs.bufLen := by simp [State.bufList]
@[simp] theorem outList_length (s : State) : s.outList.length = s.regs.outLen := by simp [State.outList]

/-- The list a successful `COUNT` writes. -/
def freqList (cs : List Word) : List Symbol := sortByFreq (tallyAll cs [])

/-- `COUNT` (40_count.md R121, R289 of 60_exceptions.md). -/
theorem countStage_eq (s : State) : countStage s =
    if exceeds s.cfg.nMax s.regs.symLen then .error (.raise .capacityExceeded)
    else if s.regs.symLen = 0 then .error (.raise .emptyInput)
    else if (∀ c ∈ s.symList, fits s.cfg.freqW (s.symList.count c) = true) ∧
        exceeds s.cfg.kMax (freqList s.symList).length = false then
      .ok (s.start.writeFl (freqList s.symList))
    else .error (.raise .capacityExceeded) := by
  unfold countStage
  simp only [start_cfg, start_regs, start_int, start_symList]
  by_cases h1 : exceeds s.cfg.nMax s.regs.symLen = true
  · simp only [h1, if_true]
  rw [Bool.not_eq_true] at h1
  by_cases h2 : s.regs.symLen = 0
  · simp only [h1, Bool.false_eq_true, if_false]
    simp only [h2, if_true]
  simp only [h1, Bool.false_eq_true, if_false, h2]
  split_ifs with h3
  · obtain ⟨w, hw⟩ := (countLoop_isOk_iff (p := s.cfg) s.symList Internal.empty.count).2
      fun c hc => by simpa [Internal.empty, freqIn] using h3.1 c hc
    have ht : w.t = tallyAll s.symList [] := (countLoop_ok hw).1
    have hl : exceeds s.cfg.kMax (tallyAll s.symList []).length = false := by
      rw [← (sortByFreq_perm (tallyAll s.symList [])).length_eq]; exact h3.2
    simp only [hw, ht, hl, Bool.false_eq_true, if_false, freqList]
  · cases hw : countLoop s.cfg s.symList Internal.empty.count with
    | error a => rw [countLoop_error hw]
    | ok w =>
      have ht : w.t = tallyAll s.symList [] := (countLoop_ok hw).1
      have hfit := (countLoop_isOk_iff (p := s.cfg) s.symList Internal.empty.count).1 ⟨w, hw⟩
      have hl : exceeds s.cfg.kMax (tallyAll s.symList []).length = true := by
        rw [← (sortByFreq_perm (tallyAll s.symList [])).length_eq]
        by_contra hne
        exact h3 ⟨fun c hc => by simpa [Internal.empty, freqIn] using hfit c hc, by simpa [freqList] using hne⟩
      simp only [ht, hl, if_true]

/-- `BUILD` (41_build.md R152, R153). -/
theorem buildStage_eq (s : State) :
    (exceeds s.cfg.kMax s.regs.flLen = true → buildStage s = .error (.raise .capacityExceeded)) ∧
    (exceeds s.cfg.kMax s.regs.flLen = false → s.regs.flLen = 0 → buildStage s = .error (.raise .emptyInput)) ∧
    (exceeds s.cfg.kMax s.regs.flLen = false → s.regs.flLen ≠ 0 →
      if s.regs.flLen = 1 ∨ fits s.cfg.freqW (s.flList.map Symbol.freq).sum = true then
        ∃ l, buildStage s = .ok (s.start.writeNodes l (2 * s.regs.flLen - 2)) ∧ NodesOk s.flList l ∧
          l.length = 2 * s.regs.flLen - 1 ∧ (nth l (2 * s.regs.flLen - 2)).freq = (s.flList.map Symbol.freq).sum
      else buildStage s = .error (.raise .capacityExceeded)) := by
  refine ⟨fun h => by simp [buildStage, h], fun h h0 => ?_, fun h h0 => ?_⟩
  · unfold buildStage
    simp only [start_cfg, start_regs, h0, if_true]
    rw [h0] at h; simp only [h, Bool.false_eq_true, if_false]
  have hst : buildStage s = match buildLoop s.cfg s.regs.flLen (buildLeaves s.flList Internal.empty.build) with
      | .error e => .error e
      | .ok w => .ok (s.start.writeNodes w.nodes (rootOf w.pq)) := by
    unfold buildStage
    simp only [start_cfg, start_regs, start_int, start_flList, h, h0, Bool.false_eq_true, if_false] <;> rfl
  have hne : s.flList ≠ [] := fun e => h0 (by rw [← flList_length, e]; rfl)
  have hpq : (buildLeaves s.flList Internal.empty.build).pq.length = s.regs.flLen := by
    have h1 := (buildLeaves_ok s.flList).count
    have h2 : (buildLeaves s.flList Internal.empty.build).m = s.flList.length :=
      (buildLeaves_nodes _ _).2.trans (by simp [Internal.empty])
    rw [flList_length] at h1 h2
    omega
  have htot : pqTotal (buildLeaves s.flList Internal.empty.build).pq = (s.flList.map Symbol.freq).sum := by
    rw [buildLeaves_total]; simp [Internal.empty, pqTotal]
  split_ifs with hf
  · have hok : ∃ w, buildLoop s.cfg s.regs.flLen (buildLeaves s.flList Internal.empty.build) = .ok w := by
      rcases hf with h1 | hf
      · rw [h1]
        match hw : (buildLeaves s.flList Internal.empty.build).pq with
        | [] => exact ⟨_, by simp only [buildLoop, buildPass, hw]; rfl⟩
        | [r] => exact ⟨_, by simp only [buildLoop, buildPass, hw]; rfl⟩
        | a :: b :: rest => rw [hw, h1] at hpq; simp at hpq
      · exact buildLoop_isOk _ _ (by rw [htot]; exact hf)
    obtain ⟨w, hw⟩ := hok
    have hres := buildLoop_result (p := s.cfg) hne (by rw [flList_length]; exact hw)
    rw [flList_length] at hres
    refine ⟨w.nodes, ?_, hres.1, hres.2.1, ?_⟩
    · rw [hst, hw, ← hres.2.2.1]
    · rw [hres.2.2.2, ← htot, ← buildLoop_total hw]; rfl
  · rw [hst]
    cases hw : buildLoop s.cfg s.regs.flLen (buildLeaves s.flList Internal.empty.build) with
    | error a => rw [buildLoop_error hw]
    | ok w =>
      exfalso
      refine hf (.inr ?_)
      by_cases h1 : s.regs.flLen = 1
      · exact absurd (.inl h1) hf
      · rw [← htot]
        exact buildLoop_fits (by omega) (by omega) hw

/-- `NODE` has room for a tree with no more leaves than `K_MAX` (20_memory.md R60). -/
theorem exceeds_node {p : Params} {k : Nat} (h : exceeds p.kMax k = false) :
    exceeds (capacity p .node) (2 * k - 1) = false := by
  unfold exceeds capacity at *
  cases hk : p.kMax with
  | none => rfl
  | some b => simp [hk] at h ⊢; omega

/-- The tree invariants hold of what a successful `BUILD` writes (41_build.md R153, 10_state.md R36). -/
theorem treeOk_of_nodesOk {fl : List Symbol} {l : List Node} (s : State) (h : NodesOk fl l) (hk : fl ≠ [])
    (hl : l.length = 2 * fl.length - 1) (hcap : exceeds s.cfg.kMax fl.length = false) :
    TreeOk (s.writeNodes l (2 * fl.length - 2)) := by
  have hpos : 0 < fl.length := List.length_pos_iff.2 hk
  have hnode : ∀ j < l.length, (s.writeNodes l (2 * fl.length - 2)).nodeAt j = nth l j := by
    intro j hj
    rw [nodeAt_writeNodes _ _ _ _ hj]
    simp [nth, hj]
  have hleaf : ∀ j < l.length, (nth l j).leaf = true ↔ j < fl.length := by
    intro j hj
    rcases Nat.lt_or_ge j fl.length with hjf | hjf
    · rw [h.leaves j hjf]; simp [leafOf, hjf]
    · rw [(h.inner j hjf hj).leaf]; simp; omega
  have hcnt : (s.writeNodes l (2 * fl.length - 2)).regs.nodeCnt = l.length := rfl
  have hroot : (s.writeNodes l (2 * fl.length - 2)).regs.root = 2 * fl.length - 2 := rfl
  have hchild : ∀ q < l.length, ∀ x, isChild (s.writeNodes l (2 * fl.length - 2)) q x ↔ childIn l q x := by
    intro q hq x
    unfold isChild childIn
    rw [hnode q hq]
  have hclt : ∀ q < l.length, ∀ x, childIn l q x → x < q ∧ fl.length ≤ q := by
    intro q hq x hc
    rcases Nat.lt_or_ge q fl.length with hqf | hqf
    · exact absurd hc.1 (by rw [(hleaf q hq).2 hqf]; simp)
    · have hi := h.inner q hqf hq
      have h1 := hi.leftAlive.1
      have h2 := hi.rightAlive.1
      have := hc.2
      omega
  -- two parents: the earlier one takes the child out of the collection before the later one is made
  have huniq : ∀ q < l.length, ∀ q' < l.length, ∀ x, childIn l q x → childIn l q' x → q = q' := by
    have aux : ∀ q q' x, q < q' → q' < l.length → childIn l q x → ¬ childIn l q' x := by
      intro q q' x hqq hq' hc hc'
      have hi := h.inner q' (hclt q' hq' x hc').2 hq'
      rcases hc'.2 with e | e
      · exact hi.leftAlive.2 q hqq (by rw [e]; exact hc)
      · exact hi.rightAlive.2 q hqq (by rw [e]; exact hc)
    intro q hq q' hq' x hc hc'
    rcases Nat.lt_trichotomy q q' with hlt | heq | hgt
    · exact absurd hc' (aux q q' x hlt hq' hc)
    · exact heq
    · exact absurd hc (aux q' q x hgt hq hc')
  refine ⟨by rw [hcnt, hl]; omega, by rw [hcnt, hroot, hl]; omega, fun j hj => ?_, fun j hj hjl => ?_,
    fun j hj hne => ?_, fun q hq hc => ?_, by rw [hcnt, hl]; exact exceeds_node hcap⟩
  · rw [hcnt] at hj ⊢
    rw [hnode j hj, hleaf j hj, hl]
    omega
  · rw [hcnt] at hj
    rw [hnode j hj] at hjl ⊢
    have hjf : fl.length ≤ j := by
      by_contra hlt
      rw [(hleaf j hj).2 (by omega)] at hjl; cases hjl
    have hi := h.inner j hjf hj
    have h1 := hi.leftAlive.1
    have h2 := hi.rightAlive.1
    refine ⟨h1, h2, hi.ne, ?_⟩
    rw [hnode _ (by omega), hnode _ (by omega)]
    exact hi.freq
  · -- a node that is no child of anything would be alive at the end beside the root
    rw [hcnt] at hj
    rw [hroot] at hne
    have hex : ∃ q < l.length, childIn l q j := by
      by_contra hno
      push Not at hno
      have hk2 : 2 ≤ fl.length := by omega
      have hlast : 2 * fl.length - 2 < l.length := by omega
      -- count: each internal node has two children, all distinct, none of them `j` nor the root
      let kids : List Nat :=
        (List.range' fl.length (fl.length - 1)).flatMap fun q => [(nth l q).left, (nth l q).right]
      have hkl : kids.length = 2 * (fl.length - 1) := by
        have : ∀ (f : Nat → List Nat) (m : List Nat), (∀ q, (f q).length = 2) → (m.flatMap f).length = 2 * m.length := by
          intro f m hf
          induction m with
          | nil => rfl
          | cons a m ih => simp [List.flatMap_cons, ih, hf]; omega
        rw [this _ _ (fun q => rfl)]; simp
      have hmem : ∀ x ∈ kids, ∃ q, fl.length ≤ q ∧ q < l.length ∧ childIn l q x := by
        intro x hx
        obtain ⟨q, hq, hx⟩ := List.mem_flatMap.1 hx
        have hq := List.mem_range'_1.1 hq
        have hql : q < l.length := by omega
        refine ⟨q, hq.1, hql, (h.inner q hq.1 hql).leaf, ?_⟩
        simp only [List.mem_cons, List.not_mem_nil, or_false] at hx
        tauto
      have hnd : kids.Nodup := by
        refine List.nodup_flatMap.2 ⟨fun q hq => ?_, ?_⟩
        · have hq := List.mem_range'_1.1 hq
          have := (h.inner q hq.1 (by omega)).ne
          simp [this]
        · have hp : (List.range' fl.length (fl.length - 1)).Pairwise (· < ·) := List.pairwise_lt_range'
          refine hp.imp_of_mem fun {a b} ha hb hab => ?_
          have ha := List.mem_range'_1.1 ha
          have hb := List.mem_range'_1.1 hb
          intro x hxa hxb
          have ca : childIn l a x := ⟨(h.inner a ha.1 (by omega)).leaf, by
            simp only [List.mem_cons, List.not_mem_nil, or_false] at hxa; tauto⟩
          have cb : childIn l b x := ⟨(h.inner b hb.1 (by omega)).leaf, by
            simp only [List.mem_cons, List.not_mem_nil, or_false] at hxb; tauto⟩
          have := huniq a (by omega) b (by omega) x ca cb
          omega
      have hsub : kids ⊆ ((List.range (2 * fl.length - 2)).erase j) := by
        intro x hx
        obtain ⟨q, hq, hql, hc⟩ := hmem x hx
        have := (hclt q hql x hc).1
        have hxj : x ≠ j := fun e => hno q hql (e ▸ hc)
        exact (List.mem_erase_of_ne hxj).2 (List.mem_range.2 (by omega))
      have hle := (List.subperm_of_subset hnd hsub).length_le
      rw [hkl, List.length_erase_of_mem (List.mem_range.2 (by omega)), List.length_range] at hle
      omega
    obtain ⟨q, hq, hc⟩ := hex
    refine ⟨q, by rw [hcnt]; exact hq, (hchild q hq j).2 hc, fun q' hq' hc' => ?_⟩
    rw [hcnt] at hq'
    exact huniq q' hq' q hq j ((hchild q' hq' j).1 hc') hc
  · rw [hcnt] at hq
    rw [hroot] at hc
    have := (hclt q hq _ ((hchild q hq _).1 hc)).1
    omega

/-- `GENTAB` on a tree of 10_state.md R36 (42_gentab.md R171). -/
theorem gentabStage_eq {s : State} (h : TreeOk s) :
    ∃ t : HTree, t.Rep s ∧ t.top = s.regs.root ∧ t.nodes.Perm (List.range s.regs.nodeCnt) ∧
      gentabStage s =
        if (s.nodeAt s.regs.root).leaf then
          if codeTooLong s.cfg 1 then .error (.raise .capacityExceeded)
          else .ok (s.start.writeCt [{ sym := (s.nodeAt s.regs.root).sym, pat := 0, len := 1 }])
        else if ∃ x ∈ t.paths, codeTooLong s.cfg x.1.length = true then .error (.raise .capacityExceeded)
        else .ok (s.start.writeCt (t.entries s 0 0)) := by
  obtain ⟨t, ht, htop, hperm⟩ := root_tree h
  refine ⟨t, ht, htop, hperm, ?_⟩
  have hroot := h.2.1
  have hcap := h.2.2.2.2.2.2
  unfold gentabStage
  simp only [start_regs, start_cfg, start_nodeAt, start_int]
  simp only [show ¬ s.regs.nodeCnt = 0 by omega, show ¬ s.regs.nodeCnt ≤ s.regs.root by omega, hcap,
    Bool.false_eq_true, if_false]
  by_cases hlf : (s.nodeAt s.regs.root).leaf = true
  · simp only [hlf, if_true]
    rfl
  · simp only [hlf, Bool.false_eq_true, if_false]
    have hrep : t.Rep s.start := by
      have : ∀ u : HTree, u.Rep s → u.Rep s.start := by
        intro u hu
        induction u with
        | leaf j => exact hu
        | node j l r ihl ihr => exact ⟨hu.1, hu.2.1, hu.2.2.1, hu.2.2.2.1, ihl hu.2.2.2.2.1, ihr hu.2.2.2.2.2⟩
      exact this t ht
    have hlen : t.nodes.length = s.start.regs.nodeCnt := by
      rw [hperm.length_eq, List.length_range, start_regs]
    have hloop := gentabLoop_root hrep hlen
    rw [htop] at hloop
    simp only [start_regs, start_cfg] at hloop
    have hg : ({ Internal.empty.gentab with stk := [{ node := s.regs.root, pat := 0, len := 0 }] } : GentabWork) =
      { stk := [{ node := s.regs.root, pat := 0, len := 0 }], table := [] } := rfl
    rw [hg]
    by_cases hx : ∃ x ∈ t.paths, codeTooLong s.cfg x.1.length = true
    · simp only [hx, if_true] at hloop
      rw [hloop, if_pos hx]
    · simp only [hx, if_false] at hloop
      rw [hloop, if_neg hx]; rfl

/-- `GENTAB` without a tree (42_gentab.md R179). -/
theorem gentabStage_empty {s : State} (h : s.regs.nodeCnt = 0) : gentabStage s = .error (.raise .emptyInput) := by
  simp [gentabStage, h]

/-! ## `CHKTAB` -/

theorem prefixClash_eq_false_iff (l : List Entry) : prefixClash l = false ↔
    l.Pairwise fun a b => a.isPrefixOf b = false ∧ b.isPrefixOf a = false := by
  induction l with
  | nil => simp [prefixClash]
  | cons e rest ih =>
    rw [prefixClash, Bool.or_eq_false_iff, ih, List.pairwise_cons, List.any_eq_false]
    simp

theorem isPrefixOf_eq_false_iff (a b : Entry) : a.isPrefixOf b = false ↔
    ¬ (a.len ≤ b.len ∧ b.pat / 2 ^ (b.len - a.len) = a.pat) := by
  simp [Entry.isPrefixOf]

/-- The verdict (45_chktab.md R242 to R244, R247). -/
theorem malformedTable_eq_false_iff (p : Params) (l : List Entry) : malformedTable p l = false ↔ tableValid p l := by
  unfold malformedTable tableValid
  rw [Bool.or_eq_false_iff, Bool.or_eq_false_iff, and_assoc, prefixClash_eq_false_iff]
  refine and_congr ?_ (and_congr ?_ ?_)
  · simp [List.any_eq_false, malformedEntry]
  · rw [Bool.and_eq_false_iff, decide_eq_false_iff_not, List.any_eq_false]
    simp only [beq_iff_eq]
    exact imp_iff_not_or.symm
  · rw [List.pairwise_iff_getElem]
    simp only [isPrefixOf_eq_false_iff]
    constructor
    · intro h i j hi hj hij
      rcases Nat.lt_or_gt_of_ne hij with hlt | hgt
      · exact (h i j hi hj hlt).1
      · exact (h j i hj hi hgt).2
    · intro h i j hi hj hij
      exact ⟨h i j hi hj (by omega), h j i hj hi (by omega)⟩

/-- `CHKTAB` (45_chktab.md R241). -/
theorem chktabStage_eq (s : State) : chktabStage s =
    if exceeds s.cfg.kMax s.regs.ctLen then .error (.raise .capacityExceeded)
    else if malformedTable s.cfg s.ctList then .error (.raise .invalidTable)
    else .ok s.start := rfl

end Sys2Proof.Machine
end

