-- ==== Sys2Proof/Laws/Streams.lean ====
section
/-! SUPPORT. What the packing loop and the decoding loop compute (43_pack.md R194, R195; 44_unpack.md R215 to R222,
R230). -/

namespace Sys2Proof.Machine

/-! ## `PACK` -/

/-- The bits of a sequence of entries. -/
def lensOf (es : List Entry) : Nat := (es.map Entry.len).sum

@[simp] theorem lensOf_nil : lensOf [] = 0 := rfl

@[simp] theorem lensOf_cons (e : Entry) (es : List Entry) : lensOf (e :: es) = e.len + lensOf es := by
  simp [lensOf]

theorem flatMap_code_length (es : List Entry) : (es.flatMap Entry.code).length = lensOf es := by
  induction es with
  | nil => rfl
  | cons e es ih => simp [ih]

theorem streamTooLong_mono {p : Params} {a b : Nat} (h : a ≤ b) (hb : streamTooLong p b = false) :
    streamTooLong p a = false := by
  cases hbm : p.bMax with
  | none => simp [streamTooLong, hbm]
  | some m => simp only [streamTooLong, hbm, decide_eq_false_iff_not] at *; omega

/-- Every symbol has an entry: the codes are appended, or the stream is too long (43_pack.md R194). -/
theorem packLoop_found (p : Params) (table : List Entry) (cs : List Word) (es : List Entry) (w : PackWork)
    (h : cs.map (entryOf table) = es.map some) (hw : streamTooLong p w.bl = false) :
    packLoop p table cs w =
      if streamTooLong p (w.bl + lensOf es) then .error (.raise .capacityExceeded)
      else .ok { i := w.i + cs.length, bl := w.bl + lensOf es, stream := w.stream ++ es.flatMap Entry.code } := by
  induction cs generalizing es w with
  | nil =>
    obtain rfl : es = [] := by simpa using h
    simp [packLoop, hw]
  | cons c cs ih =>
    cases es with
    | nil => simp at h
    | cons e es =>
      simp only [List.map_cons, List.cons.injEq] at h
      rw [packLoop, packSymbol, h.1]
      cases he : streamTooLong p (w.bl + e.len) with
      | true =>
        have : streamTooLong p (w.bl + lensOf (e :: es)) = true := by
          by_contra hne
          rw [Bool.not_eq_true] at hne
          rw [streamTooLong_mono (by simp) hne] at he
          cases he
        rw [lensOf_cons] at this
        simp [he, this]
      | false =>
        simp only [he, Bool.false_eq_true, if_false]
        rw [ih es _ h.2 he]
        simp [Nat.add_assoc, Nat.add_comm 1]

/-- A symbol has no entry, and none before it lacks one (43_pack.md R195). -/
theorem packLoop_missing (p : Params) (table : List Entry) (pre post : List Word) (c : Word) (es : List Entry)
    (w : PackWork) (h : pre.map (entryOf table) = es.map some) (hc : entryOf table c = none)
    (hw : streamTooLong p w.bl = false) :
    packLoop p table (pre ++ c :: post) w =
      if streamTooLong p (w.bl + lensOf es) then .error (.raise .capacityExceeded)
      else .error (.raise .symbolNotInTable) := by
  induction pre generalizing es w with
  | nil =>
    obtain rfl : es = [] := by simpa using h
    simp [packLoop, packSymbol, hc, hw]
  | cons d pre ih =>
    cases es with
    | nil => simp at h
    | cons e es =>
      simp only [List.map_cons, List.cons.injEq] at h
      rw [List.cons_append, packLoop, packSymbol, h.1]
      cases he : streamTooLong p (w.bl + e.len) with
      | true =>
        have : streamTooLong p (w.bl + lensOf (e :: es)) = true := by
          by_contra hne
          rw [Bool.not_eq_true] at hne
          rw [streamTooLong_mono (by simp) hne] at he
          cases he
        rw [lensOf_cons] at this
        simp [he, this]
      | false =>
        simp only [he, Bool.false_eq_true, if_false]
        rw [ih es _ h.2 he]
        simp [Nat.add_assoc]

/-- One of the two cases always holds. -/
theorem pack_cases (table : List Entry) (cs : List Word) :
    (∃ es : List Entry, cs.map (entryOf table) = es.map some) ∨
    (∃ (pre : List Word) (c : Word) (post : List Word) (es : List Entry), cs = pre ++ c :: post ∧ pre.map (entryOf table) = es.map some ∧ entryOf table c = none) := by
  induction cs with
  | nil => exact .inl ⟨[], rfl⟩
  | cons c cs ih =>
    cases hc : entryOf table c with
    | none => exact .inr ⟨[], c, cs, [], rfl, rfl, hc⟩
    | some e =>
      rcases ih with ⟨es, hes⟩ | ⟨pre, d, post, es, rfl, hes, hd⟩
      · exact .inl ⟨e :: es, by simp [hc, hes]⟩
      · exact .inr ⟨c :: pre, d, post, e :: es, rfl, by simp [hc, hes], hd⟩

@[simp] theorem streamTooLong_zero (p : Params) : streamTooLong p 0 = false := by
  cases h : p.bMax <;> simp [streamTooLong, h]

/-- `PACK` up to its loop (43_pack.md R191). -/
theorem packStage_eq (s : State) : packStage s =
    if exceeds s.cfg.nMax s.regs.symLen || exceeds s.cfg.kMax s.regs.ctLen then .error (.raise .capacityExceeded)
    else if s.regs.symLen = 0 then .error (.raise .emptyInput)
    else
      match packLoop s.cfg s.ctList s.symList Internal.empty.pack with
      | .error e => .error e
      | .ok w => .ok (s.start.writeStream (packBytes w.stream) w.bl) := rfl

/-! ## `UNPACK` -/

theorem bitOf_lt (b : Byte) (q : Nat) : bitOf b q < 2 := Nat.mod_lt _ (by decide)

theorem streamBits_length (s : State) : s.streamBits.length = s.regs.bitLen := by simp [State.streamBits]

theorem streamBits_get (s : State) {q : Nat} (h : q < s.streamBits.length) :
    (s.streamBits[q]).toNat = bitOf (s.bufAt (q / 8)) q := by
  rw [← streamBit_toNat]
  simp [State.streamBits]

theorem matchOf_emits {table : List Entry} {e : Entry} (h : emits table e) : matchOf table e.pat e.len = some e := by
  obtain ⟨-, -, ⟨i, hi, he, hlow⟩, -⟩ := h
  unfold matchOf
  rw [List.find?_eq_some_iff_getElem]
  refine ⟨by simp, i, hi, he, fun j hj => ?_⟩
  have := hlow j hj
  simp only [Bool.not_eq_true', Bool.and_eq_false_iff, beq_eq_false_iff_ne, ne_eq]
  tauto

/-- No match on a proper, non-empty prefix of an emitted code (44_unpack.md R215, R225). -/
theorem matchOf_prefix {table : List Entry} {e : Entry} (h : emits table e) {as : List Bool} (ha : as <+: e.code)
    (h0 : 0 < as.length) (hl : as.length < e.len) : matchOf table (bitsVal as) as.length = none := by
  unfold matchOf
  rw [List.find?_eq_none]
  intro f hf
  simp only [Bool.and_eq_true, beq_iff_eq, not_and]
  intro h1 h2
  refine h.2.2.2 f hf (by omega) (by omega) ?_
  obtain ⟨u, hu⟩ := ha
  have hp := ((wf_code_iff h.2.1 _).2 hu.symm).2
  have hul : as.length + u.length = e.len := by simpa using congrArg List.length hu
  rw [bitsVal_append] at hp
  rw [show e.len - f.len = u.length by omega, hp, Nat.add_comm, Nat.add_mul_div_right _ _ (by positivity),
    Nat.div_eq_of_lt (bitsVal_lt u), Nat.zero_add, h2]

/-- The state of the decoder in the middle of a code. -/
def midCode (w : UnpackWork) (as : List Bool) : UnpackWork :=
  { w with pos := w.pos + as.length, accPat := bitsVal as, accLen := as.length }

/-- The state of the decoder after emitting entries from a code boundary. -/
def afterCodes (w : UnpackWork) (es : List Entry) : UnpackWork :=
  { w with pos := w.pos + lensOf es, out := w.out + es.length, syms := w.syms ++ es.map Entry.sym }

/-- One symbol decoded from the middle of its code (44_unpack.md R215). -/
theorem unpackLoop_code {s : State} {table : List Entry} {e : Entry} (he : emits table e)
    (w : UnpackWork) (hbuf : w.pos + e.len ≤ 8 * s.regs.bufLen) (hacc : w.accPat = 0 ∧ w.accLen = 0)
    (hd : w.dstate = .accumulating) (hbits : e.code <+: s.streamBits.drop w.pos) (n : Nat)
    (as : List Bool) (bs : List Bool) (hsplit : e.code = as ++ bs) (hb : 0 < bs.length) :
    unpackLoop s table (bs.length + n) (midCode w as) =
      if exceeds s.cfg.nMax (w.out + 1) then .error (.raise .capacityExceeded)
      else unpackLoop s table n (afterCodes w [e]) := by
  induction bs generalizing as with
  | nil => simp at hb
  | cons b bs ih =>
    have hlen : as.length + (bs.length + 1) = e.len := by simpa using (congrArg List.length hsplit).symm
    have hpre : w.pos + e.len ≤ s.regs.bitLen := by
      have := hbits.length_le
      rw [code_length, List.length_drop, streamBits_length] at this
      have := he.1
      omega
    have hq : w.pos + as.length < s.streamBits.length := by rw [streamBits_length]; omega
    have hbit : bitOf (s.bufAt ((w.pos + as.length) / 8)) (w.pos + as.length) = b.toNat := by
      rw [← streamBits_get s hq]
      obtain ⟨u, hu⟩ := hbits
      have h1 : s.streamBits[w.pos + as.length]? = some b := by
        rw [← List.getElem?_drop, ← hu, hsplit]
        simp
      rw [List.getElem?_eq_getElem hq] at h1
      rw [Option.some.inj h1]
    have hpass : unpackPass s table (midCode w as) =
        match matchOf table (bitsVal (as ++ [b])) (as.length + 1) with
        | none => .ok (midCode w (as ++ [b]))
        | some f => emitSymbol s.cfg f (midCode w (as ++ [b])) := by
      have hby : ¬ s.regs.bufLen ≤ (w.pos + as.length) / 8 := by omega
      simp only [unpackPass, midCode, hby, if_false, hbit, ← bitsVal_append_bit, List.length_append,
        List.length_singleton, Nat.add_assoc] <;> rfl
    rw [List.length_cons, Nat.add_right_comm, unpackLoop]
    have hcond : (midCode w as).pos < s.regs.bitLen := by simp only [midCode]; omega
    simp only [hcond, if_true, hpass]
    by_cases hend : bs = []
    · subst hend
      have hval : bitsVal (as ++ [b]) = e.pat := ((wf_code_iff he.2.1 _).2 hsplit).2.symm
      have hl : as.length + 1 = e.len := by simpa using hlen
      rw [hval, hl, matchOf_emits he]
      simp only [emitSymbol]
      have hout : (midCode w (as ++ [b])).out = w.out := rfl
      rw [hout]
      cases hx : exceeds s.cfg.nMax (w.out + 1) with
      | true => simp
      | false =>
        have hw : afterCodes w [e] =
            { midCode w (as ++ [b]) with
              syms := w.syms ++ [e.sym], out := w.out + 1, accPat := 0, accLen := 0, dstate := .accumulating } := by
          simp only [afterCodes, midCode, List.map_cons, List.map_nil, lensOf_cons, lensOf_nil, List.length_cons,
            List.length_nil, List.length_append, ← hl]
          simp [hacc.1, hacc.2, hd]
        rw [hw]
        simp [midCode]
    · have hbl : 0 < bs.length := List.length_pos_iff.2 hend
      have hnone : matchOf table (bitsVal (as ++ [b])) (as.length + 1) = none := by
        have := matchOf_prefix he (as := as ++ [b]) ⟨bs, by rw [hsplit]; simp⟩ (by simp)
          (by simp only [List.length_append, List.length_singleton]; omega)
        simpa using this
      rw [hnone]
      exact ih (as ++ [b]) (by rw [hsplit]; simp) hbl

/-- A stream that is the concatenation of emitted codes (44_unpack.md R221). -/
theorem unpackLoop_codes {s : State} {table : List Entry} (es : List Entry) (hes : ∀ e ∈ es, emits table e)
    (w : UnpackWork) (hbuf : w.pos + lensOf es ≤ 8 * s.regs.bufLen) (hacc : w.accPat = 0 ∧ w.accLen = 0)
    (hd : w.dstate = .accumulating) (hbits : es.flatMap Entry.code <+: s.streamBits.drop w.pos) (n : Nat) :
    unpackLoop s table (lensOf es + n) w =
      if es ≠ [] ∧ exceeds s.cfg.nMax (w.out + es.length) = true then .error (.raise .capacityExceeded)
      else unpackLoop s table n (afterCodes w es) := by
  induction es generalizing w with
  | nil => simp [afterCodes]
  | cons e es ih =>
    have he := hes e (List.mem_cons_self ..)
    have hpre : e.code <+: s.streamBits.drop w.pos :=
      (List.prefix_append e.code (es.flatMap Entry.code)).trans (by simpa using hbits)
    have hmid : midCode w [] = w := by
      obtain ⟨h1, h2⟩ := hacc
      cases w
      simp only at h1 h2
      subst h1 h2
      rfl
    rw [lensOf_cons] at hbuf
    have h1 := unpackLoop_code he w (by omega) hacc hd hpre (lensOf es + n) [] e.code rfl (by simpa using he.1)
    rw [hmid, code_length, ← Nat.add_assoc] at h1
    rw [lensOf_cons, h1]
    have hmono : exceeds s.cfg.nMax (w.out + 1) = true → exceeds s.cfg.nMax (w.out + (e :: es).length) = true := by
      cases hm : s.cfg.nMax <;> (simp [exceeds]; try omega)
    by_cases hx : exceeds s.cfg.nMax (w.out + 1) = true
    · simp only [hx, if_true, hmono hx, ne_eq, reduceCtorEq, not_false_eq_true, and_self]
    · simp only [hx]
      have hnext : es.flatMap Entry.code <+: s.streamBits.drop (afterCodes w [e]).pos := by
        obtain ⟨u, hu⟩ := hbits
        refine ⟨u, ?_⟩
        have : (afterCodes w [e]).pos = w.pos + e.code.length := by simp [afterCodes]
        rw [this, ← List.drop_drop, ← hu]
        simp
      rw [ih (fun f hf => hes f (List.mem_cons_of_mem _ hf)) (afterCodes w [e])
        (by simp only [afterCodes, lensOf_cons, lensOf_nil]; omega) hacc hd hnext]
      have hout : (afterCodes w [e]).out + es.length = w.out + (e :: es).length := by simp [afterCodes]; omega
      rw [hout]
      have hcat : afterCodes (afterCodes w [e]) es = afterCodes w (e :: es) := by
        simp [afterCodes, Nat.add_assoc, Nat.add_comm 1]
      rw [hcat]
      by_cases hes0 : es = []
      · subst hes0
        have : exceeds s.cfg.nMax (w.out + [e].length) = false := by simpa using hx
        simp only [this, Bool.false_eq_true, and_false, if_false, ne_eq, not_true_eq_false]
      · simp [hes0]

/-- What a running decoder has read (44_unpack.md R230). -/
def Decoded (s : State) (table : List Entry) (w : UnpackWork) : Prop :=
  w.dstate = .accumulating ∧ w.pos ≤ s.regs.bitLen ∧ (w.pos ≤ 8 * s.regs.bufLen) ∧
  ∃ (es : List Entry) (as : List Bool), (∀ e ∈ es, emits table e) ∧ es.map Entry.sym = w.syms ∧ es.length = w.out ∧
    es.flatMap Entry.code ++ as = s.streamBits.take w.pos ∧ w.accPat = bitsVal as ∧ w.accLen = as.length ∧
    ∀ bs, bs <+: as → bs ≠ [] → matchOf table (bitsVal bs) bs.length = none

theorem emits_of_matchOf {table : List Entry} {as : List Bool} {e : Entry} (h0 : 0 < as.length)
    (hm : matchOf table (bitsVal as) as.length = some e)
    (hn : ∀ bs, bs <+: as → bs ≠ [] → bs ≠ as → matchOf table (bitsVal bs) bs.length = none) :
    emits table e ∧ e.code = as := by
  unfold matchOf at hm
  rw [List.find?_eq_some_iff_getElem] at hm
  obtain ⟨hp, i, hi, he, hlow⟩ := hm
  simp only [Bool.and_eq_true, beq_iff_eq] at hp
  have hwf : e.pat < 2 ^ e.len := by rw [hp.1, hp.2]; exact bitsVal_lt as
  have hcode : e.code = as := (wf_code_iff hwf as).1 hp
  refine ⟨⟨by omega, hwf, ⟨i, hi, he, fun j hj => ?_⟩, fun f hf h1 h2 h3 => ?_⟩, hcode⟩
  · have := hlow j hj
    rw [hp.1, hp.2]
    simp only [Bool.not_eq_true', Bool.and_eq_false_iff, beq_eq_false_iff_ne, ne_eq] at this
    tauto
  · -- the first `f.len` bits of `as` would have matched `f`
    have hfa : f.len < as.length := by omega
    have hpre : as.take f.len <+: as := List.take_prefix _ _
    have htl : (as.take f.len).length = f.len := by rw [List.length_take]; omega
    have hne : as.take f.len ≠ [] := by intro e; rw [e] at htl; simp at htl; omega
    have hne' : as.take f.len ≠ as := by intro e; rw [e] at htl; omega
    have hnone := hn _ hpre hne hne'
    unfold matchOf at hnone
    rw [List.find?_eq_none] at hnone
    refine hnone f hf ?_
    have hval : bitsVal (as.take f.len) = f.pat := by
      rw [← h3, hp.2]
      conv_rhs => rw [← List.take_append_drop f.len as]
      rw [bitsVal_append, List.length_drop, ← hp.1, Nat.add_comm, Nat.add_mul_div_right _ _ (by positivity),
        Nat.div_eq_of_lt, Nat.zero_add]
      have := bitsVal_lt (as.drop f.len)
      rwa [List.length_drop, ← hp.1] at this
    simp [htl, hval]

/-- One pass keeps it (44_unpack.md R230). -/
theorem unpackPass_decoded {s : State} {table : List Entry} {w w' : UnpackWork} (h : Decoded s table w)
    (hpos : w.pos < s.regs.bitLen) (hr : unpackPass s table w = .ok w') :
    Decoded s table w' ∧ w'.pos = w.pos + 1 := by
  obtain ⟨hd, hle, hle8, es, as, hes, hsym, hout, hcat, hp, hl, hno⟩ := h
  unfold unpackPass at hr
  split_ifs at hr with hby
  have hq : w.pos < s.streamBits.length := by rw [streamBits_length]; exact hpos
  have hbit := streamBits_get s hq
  have htake : es.flatMap Entry.code ++ (as ++ [s.streamBits[w.pos]]) = s.streamBits.take (w.pos + 1) := by
    rw [← List.append_assoc, hcat, List.take_succ_eq_append_getElem hq]
  simp only [← hbit, hp, hl, ← bitsVal_append_bit] at hr
  have hlen1 : as.length + 1 = (as ++ [s.streamBits[w.pos]]).length := by simp
  rw [hlen1] at hr
  split at hr
  · next hm =>
    cases hr
    refine ⟨⟨hd, hpos, by simp only; omega, es, as ++ [s.streamBits[w.pos]], hes, hsym, hout, htake, rfl, rfl, ?_⟩, rfl⟩
    intro bs hbs hne
    rcases List.prefix_concat_iff.1 hbs with rfl | hbs
    · exact hm
    · exact hno bs hbs hne
  · next e hm =>
    simp only [emitSymbol] at hr
    split_ifs at hr
    cases hr
    have hem := emits_of_matchOf (by simp) hm fun bs hbs hne hne' => by
      rcases List.prefix_concat_iff.1 hbs with rfl | hbs
      · exact absurd rfl hne'
      · exact hno bs hbs hne
    refine ⟨⟨rfl, hpos, by simp only; omega, es ++ [e], [], ?_, by simp [hsym], by simp [hout], ?_, rfl, rfl, ?_⟩, rfl⟩
    · intro f hf
      rcases List.mem_append.1 hf with hf | hf
      · exact hes f hf
      · rw [List.mem_singleton.1 hf]; exact hem.1
    · rw [List.flatMap_append, List.append_nil, ← htake]
      simp [hem.2]
    · intro bs hbs hne
      exact absurd (List.prefix_nil.1 hbs) hne

theorem unpackLoop_decoded {s : State} {table : List Entry} {n : Nat} {w w' : UnpackWork} (h : Decoded s table w)
    (hn : s.regs.bitLen ≤ w.pos + n) (hr : unpackLoop s table n w = .ok w') :
    Decoded s table w' ∧ w'.pos = s.regs.bitLen := by
  induction n generalizing w with
  | zero =>
    cases hr
    exact ⟨h, by have := h.2.1; omega⟩
  | succ n ih =>
    simp only [unpackLoop] at hr
    split_ifs at hr with hc
    · split at hr
      · next w1 h1 =>
        obtain ⟨hd, hp⟩ := unpackPass_decoded h hc h1
        exact ih hd (by omega) hr
      · cases hr
    · cases hr
      exact ⟨h, by have := h.2.1; omega⟩

theorem decoded_start (s : State) (table : List Entry) : Decoded s table Internal.empty.unpack :=
  ⟨rfl, Nat.zero_le _, Nat.zero_le _, [], [], by simp, rfl, rfl, by simp [Internal.empty], rfl, rfl, fun bs hbs hne =>
    absurd (List.prefix_nil.1 hbs) hne⟩

/-- A pass that raises `CapacityExceeded` has read more codes than `OUT` has entries (44_unpack.md R228). -/
theorem unpackPass_overflow {s : State} {table : List Entry} {w : UnpackWork} (h : Decoded s table w)
    (hpos : w.pos < s.regs.bitLen) (hr : unpackPass s table w = .error (.raise .capacityExceeded)) :
    ∃ es : List Entry, (∀ e ∈ es, emits table e) ∧ es.flatMap Entry.code <+: s.streamBits ∧
      lensOf es ≤ 8 * s.regs.bufLen ∧ exceeds s.cfg.nMax es.length = true := by
  obtain ⟨-, -, -, es, as, hes, -, hout, hcat, hp, hl, hno⟩ := h
  unfold unpackPass at hr
  split_ifs at hr with hby
  · cases hr
  have hq : w.pos < s.streamBits.length := by rw [streamBits_length]; exact hpos
  have hbit := streamBits_get s hq
  have htake : es.flatMap Entry.code ++ (as ++ [s.streamBits[w.pos]]) = s.streamBits.take (w.pos + 1) := by
    rw [← List.append_assoc, hcat, List.take_succ_eq_append_getElem hq]
  simp only [← hbit, hp, hl, ← bitsVal_append_bit] at hr
  have hlen1 : as.length + 1 = (as ++ [s.streamBits[w.pos]]).length := by simp
  rw [hlen1] at hr
  split at hr
  · cases hr
  · next e hm =>
    simp only [emitSymbol] at hr
    split_ifs at hr with hx
    have hem := emits_of_matchOf (by simp) hm fun bs hbs hne hne' => by
      rcases List.prefix_concat_iff.1 hbs with rfl | hbs
      · exact absurd rfl hne'
      · exact hno bs hbs hne
    have hcode : (es ++ [e]).flatMap Entry.code = s.streamBits.take (w.pos + 1) := by
      rw [List.flatMap_append, ← htake]
      simp [hem.2]
    refine ⟨es ++ [e], fun f hf => ?_, hcode ▸ List.take_prefix _ _, ?_, by rw [List.length_append, hout]; exact hx⟩
    · rcases List.mem_append.1 hf with hf | hf
      · exact hes f hf
      · rw [List.mem_singleton.1 hf]; exact hem.1
    · rw [← flatMap_code_length, hcode, List.length_take]
      omega

theorem unpackLoop_overflow {s : State} {table : List Entry} {n : Nat} {w : UnpackWork} (h : Decoded s table w)
    (hr : unpackLoop s table n w = .error (.raise .capacityExceeded)) :
    ∃ es : List Entry, (∀ e ∈ es, emits table e) ∧ es.flatMap Entry.code <+: s.streamBits ∧
      lensOf es ≤ 8 * s.regs.bufLen ∧ exceeds s.cfg.nMax es.length = true := by
  induction n generalizing w with
  | zero => cases hr
  | succ n ih =>
    simp only [unpackLoop] at hr
    split_ifs at hr with hc
    split at hr
    · next w1 h1 => exact ih (unpackPass_decoded h hc h1).1 hr
    · next e he => cases hr; exact unpackPass_overflow h hc he

/-- A pass fails with no other kind than the two of 44_unpack.md R211. -/
theorem unpackLoop_error {s : State} {table : List Entry} {n : Nat} {w : UnpackWork} {a : Abort}
    (hr : unpackLoop s table n w = .error a) :
    (a = .raise .truncatedStream) ∨ (a = .raise .capacityExceeded ∧ s.cfg.nMax ≠ none) := by
  induction n generalizing w with
  | zero => cases hr
  | succ n ih =>
    simp only [unpackLoop] at hr
    split_ifs at hr
    split at hr
    · exact ih hr
    · next e he =>
      cases hr
      unfold unpackPass at he
      split_ifs at he
      · exact .inl (Except.error.inj he).symm
      · simp only at he
        split at he
        · cases he
        · simp only [emitSymbol] at he
          split_ifs at he with hx
          · refine .inr ⟨(Except.error.inj he).symm, fun hn => ?_⟩
            simp [hn, exceeds] at hx

/-- `UNPACK` up to its loop (44_unpack.md R211). -/
theorem unpackStage_eq (s : State) : unpackStage s =
    if exceeds s.cfg.bMax s.regs.bufLen || exceeds s.cfg.kMax s.regs.ctLen then .error (.raise .capacityExceeded)
    else
      match unpackLoop s.start s.ctList s.regs.bitLen Internal.empty.unpack with
      | .error e => .error e
      | .ok w => if w.accLen ≠ 0 then .error (.raise .truncatedStream) else .ok (s.start.writeOut w.syms) := rfl

end Sys2Proof.Machine
end

