-- ==== Sys2Proof/Laws/Forms.lean ====
section
/-! SUPPORT. The form of a stage's result and its error kinds, said once for every stage (40_count.md R121, 41_build.md
R152, 42_gentab.md R171, 43_pack.md R191, 44_unpack.md R211, 45_chktab.md R241, 46_encode_decode.md R256, R258;
60_exceptions.md R282). -/

namespace Sys2Proof.Machine

/-! ## The form of a stage's result -/

theorem countStage_form {s t : State} (h : countStage s = .ok t) :
    t = s.start.writeFl (freqList s.symList) ∧ exceeds s.cfg.nMax s.regs.symLen = false ∧ s.regs.symLen ≠ 0 ∧
      (∀ c ∈ s.symList, fits s.cfg.freqW (s.symList.count c) = true) ∧
      exceeds s.cfg.kMax (freqList s.symList).length = false := by
  rw [countStage_eq] at h
  split_ifs at h with h1 h2 h3
  exact ⟨(Except.ok.inj h).symm, by simpa using h1, h2, h3.1, h3.2⟩

theorem buildStage_form {s t : State} (h : buildStage s = .ok t) :
    ∃ l, t = s.start.writeNodes l (2 * s.regs.flLen - 2) ∧ NodesOk s.flList l ∧ l.length = 2 * s.regs.flLen - 1 ∧
      (nth l (2 * s.regs.flLen - 2)).freq = (s.flList.map Symbol.freq).sum ∧ s.regs.flLen ≠ 0 ∧
      exceeds s.cfg.kMax s.regs.flLen = false ∧
      (s.regs.flLen = 1 ∨ fits s.cfg.freqW (s.flList.map Symbol.freq).sum = true) := by
  obtain ⟨h1, h2, h3⟩ := buildStage_eq s
  cases hk : exceeds s.cfg.kMax s.regs.flLen with
  | true => rw [h1 hk] at h; cases h
  | false =>
    by_cases h0 : s.regs.flLen = 0
    · rw [h2 hk h0] at h; cases h
    · have h3 := h3 hk h0
      split_ifs at h3 with hf
      · obtain ⟨l, e, hn, hl, hr⟩ := h3
        rw [e] at h
        exact ⟨l, (Except.ok.inj h).symm, hn, hl, hr, h0, rfl, hf⟩
      · rw [h3] at h; cases h

theorem flList_ne_nil {s : State} (h : s.regs.flLen ≠ 0) : s.flList ≠ [] := fun e => h (by rw [← flList_length, e]; rfl)

/-- A successful `BUILD` leaves a tree of 10_state.md R36. -/
theorem buildStage_tree {s t : State} (h : buildStage s = .ok t) : TreeOk t := by
  obtain ⟨l, rfl, hn, hl, -, h0, hk, -⟩ := buildStage_form h
  have := treeOk_of_nodesOk s.start hn (flList_ne_nil h0) (by rw [flList_length]; exact hl)
    (by rw [flList_length]; exact hk)
  rwa [flList_length] at this

theorem gentabLoop_length {s : State} {n : Nat} {w w' : GentabWork} (h : gentabLoop s n w = .ok w') :
    w'.table.length ≤ w.table.length + n := by
  induction n generalizing w with
  | zero =>
    unfold gentabLoop at h
    split at h
    · cases h; simp
    · cases h
  | succ n ih =>
    unfold gentabLoop at h
    split at h
    · cases h; simp
    · next top rest hs =>
      simp only at h
      split at h
      · next w1 h1 =>
        have := ih h
        unfold gentabPass at h1
        simp only at h1
        split_ifs at h1 <;> (cases h1; simp at this; omega)
      · cases h

theorem gentabStage_def (s : State) : gentabStage s =
    if s.regs.nodeCnt = 0 then .error (.raise .emptyInput)
    else if exceeds (capacity s.cfg .node) s.regs.nodeCnt then .error (.raise .capacityExceeded)
    else if s.regs.nodeCnt ≤ s.regs.root then .error .noTree
    else if (s.nodeAt s.regs.root).leaf then
      if codeTooLong s.cfg 1 then .error (.raise .capacityExceeded)
      else .ok (s.start.writeCt [{ sym := (s.nodeAt s.regs.root).sym, pat := 0, len := 1 }])
    else
      match gentabLoop s.start s.regs.nodeCnt
        { stk := [{ node := s.regs.root, pat := 0, len := 0 }], table := [] } with
      | .error e => .error e
      | .ok w => .ok (s.start.writeCt w.table) := rfl

theorem gentabStage_form {s t : State} (h : gentabStage s = .ok t) :
    ∃ l, t = s.start.writeCt l ∧ l.length ≤ s.regs.nodeCnt := by
  rw [gentabStage_def] at h
  split_ifs at h with h0
  · exact ⟨_, (Except.ok.inj h).symm, by simp; omega⟩
  · split at h
    · cases h
    · next w hw => exact ⟨_, (Except.ok.inj h).symm, by simpa using gentabLoop_length hw⟩

theorem packStage_form {s t : State} (h : packStage s = .ok t) :
    ∃ es : List Entry, s.symList.map (entryOf s.ctList) = es.map some ∧
      t = s.start.writeStream (packBytes (es.flatMap Entry.code)) (lensOf es) ∧
      streamTooLong s.cfg (lensOf es) = false ∧ exceeds s.cfg.nMax s.regs.symLen = false ∧
      exceeds s.cfg.kMax s.regs.ctLen = false ∧ s.regs.symLen ≠ 0 := by
  rw [packStage_eq] at h
  split_ifs at h with h1 h2
  rw [Bool.or_eq_true, not_or, Bool.not_eq_true, Bool.not_eq_true] at h1
  have hz : streamTooLong s.cfg Internal.empty.pack.bl = false := streamTooLong_zero _
  have hbl : Internal.empty.pack.bl = 0 := rfl
  have hst : Internal.empty.pack.stream = [] := rfl
  rcases pack_cases s.ctList s.symList with ⟨es, hes⟩ | ⟨pre, c, post, es, hcs, hes, hc⟩
  · rw [packLoop_found _ _ _ es _ hes hz, hbl, hst, Nat.zero_add] at h
    cases hb : streamTooLong s.cfg (lensOf es) with
    | true => simp [hb] at h
    | false =>
      simp only [hb, Bool.false_eq_true, if_false, List.nil_append] at h
      exact ⟨es, hes, (Except.ok.inj h).symm, hb, h1.1, h1.2, h2⟩
  · rw [hcs, packLoop_missing _ _ _ _ _ es _ hes hc hz] at h
    split_ifs at h

theorem unpackStage_form {s t : State} (h : unpackStage s = .ok t) :
    ∃ es : List Entry, (∀ e ∈ es, emits s.ctList e) ∧ es.flatMap Entry.code = s.streamBits ∧
      t = s.start.writeOut (es.map Entry.sym) ∧ s.regs.bitLen ≤ 8 * s.regs.bufLen ∧
      exceeds s.cfg.bMax s.regs.bufLen = false ∧ exceeds s.cfg.kMax s.regs.ctLen = false := by
  rw [unpackStage_eq] at h
  split_ifs at h with h1
  rw [Bool.or_eq_true, not_or, Bool.not_eq_true, Bool.not_eq_true] at h1
  split at h
  · cases h
  · next w hw =>
    split_ifs at h with hacc
    obtain ⟨⟨-, -, h8, es, as, hes, hsym, -, hcat, -, hl, -⟩, hpos⟩ :=
      unpackLoop_decoded (decoded_start s.start s.ctList) (by simp [Internal.empty]) hw
    rw [not_not] at hacc
    have has : as = [] := List.length_eq_zero_iff.1 (by rw [← hl]; exact hacc)
    rw [hpos, has, List.append_nil, start_regs] at hcat
    rw [hpos] at h8
    have hs : s.start.streamBits = s.streamBits := rfl
    rw [hs, List.take_of_length_le (by rw [streamBits_length])] at hcat
    exact ⟨es, hes, hcat, by rw [hsym]; exact (Except.ok.inj h).symm, h8, h1.1, h1.2⟩

theorem chktabStage_form {s t : State} (h : chktabStage s = .ok t) :
    t = s.start ∧ tableValid s.cfg s.ctList ∧ exceeds s.cfg.kMax s.regs.ctLen = false := by
  rw [chktabStage_eq] at h
  split_ifs at h with h1 h2
  exact ⟨(Except.ok.inj h).symm, (malformedTable_eq_false_iff _ _).1 (by simpa using h2), by simpa using h1⟩

theorem encodeStage_form {s t : State} (h : encodeStage s = .ok t) :
    ∃ a b c, countStage s = .ok a ∧ buildStage a = .ok b ∧ gentabStage b = .ok c ∧ packStage c = .ok t := by
  unfold encodeStage thenStage at h
  cases ha : countStage s with
  | error e => rw [ha] at h; cases h
  | ok a =>
    rw [ha] at h
    cases hb : buildStage a with
    | error e => simp only [hb] at h; cases h
    | ok b =>
      simp only [hb] at h
      cases hc : gentabStage b with
      | error e => simp only [hc] at h; cases h
      | ok c => simp only [hc] at h; exact ⟨a, b, c, rfl, hb, hc, h⟩

theorem decodeStage_form {s t : State} (h : decodeStage s = .ok t) :
    (s.regs.bitLen = 0 ∧ t = s.writeOut []) ∨
      (s.regs.bitLen ≠ 0 ∧ tableValid s.cfg s.ctList ∧ unpackStage s.start = .ok t) := by
  unfold decodeStage thenStage at h
  split_ifs at h with h0
  · exact .inl ⟨h0, (Except.ok.inj h).symm⟩
  · split at h
    · next u hu =>
      obtain ⟨rfl, hv, -⟩ := chktabStage_form hu
      exact .inr ⟨h0, hv, h⟩
    · cases h

/-! ## Error kinds -/

theorem countStage_error {s : State} {a : Abort} (h : countStage s = .error a) :
    a = .raise .emptyInput ∨ (a = .raise .capacityExceeded ∧ ¬ noCapacity s.cfg) := by
  rw [countStage_eq] at h
  split_ifs at h with h1 h2 h3
  · exact .inr ⟨(Except.error.inj h).symm, fun hn => by simp [exceeds, hn.1] at h1⟩
  · exact .inl (Except.error.inj h).symm
  · exact .inr ⟨(Except.error.inj h).symm, fun hn => h3 ⟨fun c _ => by rw [hn.2.2.2.2]; rfl, by rw [hn.2.1]; rfl⟩⟩

theorem buildStage_error {s : State} {a : Abort} (h : buildStage s = .error a) :
    a = .raise .emptyInput ∨ (a = .raise .capacityExceeded ∧ ¬ noCapacity s.cfg) := by
  obtain ⟨h1, h2, h3⟩ := buildStage_eq s
  cases hk : exceeds s.cfg.kMax s.regs.flLen with
  | true =>
    rw [h1 hk] at h
    exact .inr ⟨(Except.error.inj h).symm, fun hn => by simp [exceeds, hn.2.1] at hk⟩
  | false =>
    by_cases h0 : s.regs.flLen = 0
    · rw [h2 hk h0] at h
      exact .inl (Except.error.inj h).symm
    · have h3 := h3 hk h0
      split_ifs at h3 with hf
      · obtain ⟨l, e, -⟩ := h3
        rw [e] at h; cases h
      · rw [h3] at h
        exact .inr ⟨(Except.error.inj h).symm, fun hn => hf (.inr (by rw [hn.2.2.2.2]; rfl))⟩

theorem codeTooLong_noCapacity {p : Params} (h : noCapacity p) (n : Nat) : codeTooLong p n = false := by
  simp [codeTooLong, exceeds, lenWidth, fits, h.2.2.1]

theorem gentabLoop_error {s : State} {n : Nat} {w : GentabWork} {a : Abort} (h : gentabLoop s n w = .error a) :
    a = .noTree ∨ (a = .raise .capacityExceeded ∧ ¬ noCapacity s.cfg) := by
  induction n generalizing w with
  | zero =>
    unfold gentabLoop at h
    split at h <;> cases h
    exact .inl rfl
  | succ n ih =>
    unfold gentabLoop at h
    split at h
    · cases h
    · simp only at h
      split at h
      · exact ih h
      · next e he =>
        cases h
        unfold gentabPass at he
        simp only at he
        split_ifs at he with h1 h2 h3 <;> cases he
        · exact .inl rfl
        · exact .inr ⟨rfl, fun hn => by rw [codeTooLong_noCapacity hn] at h3; cases h3⟩

/-- How `GENTAB` ends early, on any `NODE` whatever. -/
theorem gentabStage_abort {s : State} {a : Abort} (h : gentabStage s = .error a) :
    a = .raise .emptyInput ∨ (a = .raise .capacityExceeded ∧ ¬ noCapacity s.cfg) ∨ a = .noTree := by
  rw [gentabStage_def] at h
  split_ifs at h with h0 h1 h2 h3 h4
  · exact .inl (Except.error.inj h).symm
  · refine .inr (.inl ⟨(Except.error.inj h).symm, fun hn => ?_⟩)
    simp [capacity, exceeds, hn.2.1] at h1
  · exact .inr (.inr (Except.error.inj h).symm)
  · exact .inr (.inl ⟨(Except.error.inj h).symm, fun hn => by rw [codeTooLong_noCapacity hn] at h4; cases h4⟩)
  · split at h
    · next e he =>
      cases h
      exact .inr (gentabLoop_error he).symm
    · cases h

/-- On a tree of 10_state.md R36 the traversal comes to its end. -/
theorem gentabStage_error {s : State} {a : Abort} (ht : TreeInv s) (h : gentabStage s = .error a) :
    a = .raise .emptyInput ∨ (a = .raise .capacityExceeded ∧ ¬ noCapacity s.cfg) := by
  rcases gentabStage_abort h with h1 | h1 | rfl
  · exact .inl h1
  · exact .inr h1
  · exfalso
    by_cases h0 : s.regs.nodeCnt = 0
    · rw [gentabStage_empty h0] at h; cases h
    · obtain ⟨t, -, -, -, e⟩ := gentabStage_eq (ht (by omega))
      rw [e] at h
      split_ifs at h <;> cases h

theorem packStage_error {s : State} {a : Abort} (h : packStage s = .error a) :
    a = .raise .emptyInput ∨ a = .raise .symbolNotInTable ∨ (a = .raise .capacityExceeded ∧ ¬ noCapacity s.cfg) := by
  have hz : streamTooLong s.cfg Internal.empty.pack.bl = false := streamTooLong_zero _
  have hno : ∀ n, streamTooLong s.cfg n = true → ¬ noCapacity s.cfg := fun n hn hc => by
    simp [streamTooLong, hc.2.2.2.1] at hn
  rw [packStage_eq] at h
  split_ifs at h with h1 h2
  · exact .inr (.inr ⟨(Except.error.inj h).symm, fun hn => by simp [exceeds, hn.1, hn.2.1] at h1⟩)
  · exact .inl (Except.error.inj h).symm
  · rcases pack_cases s.ctList s.symList with ⟨es, hes⟩ | ⟨pre, c, post, es, hcs, hes, hc⟩
    · rw [packLoop_found _ _ _ es _ hes hz] at h
      cases hb : streamTooLong s.cfg (Internal.empty.pack.bl + lensOf es) with
      | false => simp [hb] at h
      | true =>
        simp only [hb, if_true] at h
        exact .inr (.inr ⟨(Except.error.inj h).symm, hno _ hb⟩)
    · rw [hcs, packLoop_missing _ _ _ _ _ es _ hes hc hz] at h
      cases hb : streamTooLong s.cfg (Internal.empty.pack.bl + lensOf es) with
      | false =>
        simp only [hb, Bool.false_eq_true, if_false] at h
        exact .inr (.inl (Except.error.inj h).symm)
      | true =>
        simp only [hb, if_true] at h
        exact .inr (.inr ⟨(Except.error.inj h).symm, hno _ hb⟩)

/-- A `PACK` all of whose symbols have entries misses none (43_pack.md R195). -/
theorem packStage_found_error {s : State} {es : List Entry} (hes : s.symList.map (entryOf s.ctList) = es.map some)
    (h : packStage s = .error (.raise .symbolNotInTable)) : False := by
  have hz : streamTooLong s.cfg Internal.empty.pack.bl = false := streamTooLong_zero _
  rw [packStage_eq] at h
  split_ifs at h
  · cases h
  · cases h
  · rw [packLoop_found _ _ _ es _ hes hz] at h
    cases hb : streamTooLong s.cfg (Internal.empty.pack.bl + lensOf es) with
    | false => simp [hb] at h
    | true => simp [hb] at h

theorem unpackStage_error {s : State} {a : Abort} (h : unpackStage s = .error a) :
    a = .raise .truncatedStream ∨ (a = .raise .capacityExceeded ∧ ¬ noCapacity s.cfg) := by
  rw [unpackStage_eq] at h
  split_ifs at h with h1
  · exact .inr ⟨(Except.error.inj h).symm, fun hn => by simp [exceeds, hn.2.1, hn.2.2.2.1] at h1⟩
  · split at h
    · next e he =>
      rw [← Except.error.inj h]
      exact (unpackLoop_error he).imp id fun hc => ⟨hc.1, fun hn => hc.2 hn.1⟩
    · split_ifs at h
      exact .inl (Except.error.inj h).symm

theorem chktabStage_error {s : State} {a : Abort} (h : chktabStage s = .error a) :
    a = .raise .invalidTable ∨ (a = .raise .capacityExceeded ∧ ¬ noCapacity s.cfg) := by
  rw [chktabStage_eq] at h
  split_ifs at h with h1 h2
  · exact .inr ⟨(Except.error.inj h).symm, fun hn => by simp [exceeds, hn.2.1] at h1⟩
  · exact .inl (Except.error.inj h).symm

end Sys2Proof.Machine
end

