-- ==== Sys2Proof/Laws/Encode.lean ====
section
/-! SUPPORT. The table a successful `GENTAB` writes (42_gentab.md R177) and the pipeline of `ENCODE` (46_encode_decode.md
R256, R260). -/

namespace Sys2Proof.Machine

/-- A table generated from the tree in `NODE` (42_gentab.md R177). -/
structure TableOk (s : State) (l : List Entry) : Prop where
  leaves : ∃ js : List Nat, js.Perm (List.range ((s.regs.nodeCnt + 1) / 2)) ∧
    l.map Entry.sym = js.map fun j => (s.nodeAt j).sym
  wf : ∀ e ∈ l, e.pat < 2 ^ e.len ∧ 1 ≤ e.len ∧ codeTooLong s.cfg e.len = false
  parts : l.Pairwise fun a b => Parts a.code b.code

theorem TableOk.length {s : State} {l : List Entry} (h : TableOk s l) : l.length = (s.regs.nodeCnt + 1) / 2 := by
  obtain ⟨js, hp, hm⟩ := h.leaves
  have := congrArg List.length hm
  rw [List.length_map, List.length_map, hp.length_eq, List.length_range] at this
  exact this

theorem filter_range_lt (n k : Nat) (h : k ≤ n) : (List.range n).filter (fun j => decide (j < k)) = List.range k := by
  induction n generalizing k with
  | zero => obtain rfl : k = 0 := by omega
            rfl
  | succ n ih =>
    rw [List.range_succ, List.filter_append]
    rcases Nat.lt_or_eq_of_le h with hlt | rfl
    · rw [ih k (by omega)]
      simp; omega
    · rw [List.filter_eq_self.2 (by simp; omega)]
      simp [List.range_succ]

/-- What a successful `GENTAB` on a tree of 10_state.md R36 writes. -/
theorem gentabStage_table {s t : State} (h : TreeOk s) (hr : gentabStage s = .ok t) :
    ∃ l, t = s.start.writeCt l ∧ TableOk s l := by
  obtain ⟨u, hu, htop, hperm, e⟩ := gentabStage_eq h
  obtain ⟨hodd, hroot, hleaf, -⟩ := h
  rw [e] at hr
  split_ifs at hr with h1 h2 h3
  · have hc : s.regs.nodeCnt = 1 := by
      have := (hleaf s.regs.root (by omega)).1 h1
      omega
    have hr0 : s.regs.root = 0 := by omega
    refine ⟨_, (Except.ok.inj hr).symm, ⟨[0], ?_, ?_⟩, ?_, by simp⟩
    · rw [hc]; simp
    · simp [hr0]
    · intro e he
      rw [List.mem_singleton] at he
      subst he
      exact ⟨Nat.two_pow_pos 1, le_rfl, by simpa using h2⟩
  · refine ⟨_, (Except.ok.inj hr).symm, ⟨u.paths.map Prod.snd, ?_, ?_⟩, ?_, entries_parts s u⟩
    · rw [paths_leaves hu]
      refine (hperm.filter _).trans (List.Perm.of_eq ?_)
      rw [← filter_range_lt s.regs.nodeCnt ((s.regs.nodeCnt + 1) / 2) (by omega)]
      refine List.filter_congr fun j hj => ?_
      have := hleaf j (List.mem_range.1 hj)
      cases hb : (s.nodeAt j).leaf
      · rw [hb] at this
        simp only [Bool.false_eq_true, false_iff] at this
        simp [this]
      · rw [hb] at this
        simp only [true_iff] at this
        simp [this]
    · simp [HTree.entries]
    · intro e he
      refine ⟨entries_wf s u e he, ?_, ?_⟩
      · obtain ⟨x, hx, rfl⟩ := List.mem_map.1 he
        simp only [Nat.zero_add]
        have hw := (paths_walk hu x hx).1
        have hlf := (paths_walk hu x hx).2.1
        by_contra hlt
        have hnil : x.1 = [] := List.length_eq_zero_iff.1 (by omega)
        rw [hnil] at hw
        simp only [walk, Option.some.injEq] at hw
        rw [← hw, htop] at hlf
        exact h1 hlf
      · obtain ⟨x, hx, rfl⟩ := List.mem_map.1 he
        simp only [Nat.zero_add]
        by_contra hc
        exact h3 ⟨x, hx, by simpa using hc⟩

theorem entryOf_isSome {table : List Entry} {c : Word} (h : c ∈ table.map Entry.sym) :
    ∃ e, entryOf table c = some e := by
  obtain ⟨e, he, rfl⟩ := List.mem_map.1 h
  cases hf : entryOf table e.sym with
  | some f => exact ⟨f, rfl⟩
  | none =>
    unfold entryOf at hf
    rw [List.find?_eq_none] at hf
    exact absurd (beq_self_eq_true e.sym) (hf e he)

/-- The states between the stages of `ENCODE`. -/
structure Pipeline (s a b c : State) (l : List Entry) : Prop where
  count : countStage s = .ok a
  build : buildStage a = .ok b
  gentab : gentabStage b = .ok c
  tree : TreeOk b
  flList : a.flList = freqList s.symList
  syms : c.symList = s.symList
  table : c.ctList = l
  tableOk : TableOk b l
  cover : (l.map Entry.sym).Perm ((freqList s.symList).map Symbol.cp)
  len : l.length = (freqList s.symList).length

theorem pipeline {s a b c : State} (ha : countStage s = .ok a) (hb : buildStage a = .ok b)
    (hc : gentabStage b = .ok c) : ∃ l, Pipeline s a b c l := by
  have ht := buildStage_tree hb
  obtain ⟨rfl, -, -, -, -⟩ := countStage_form ha
  obtain ⟨ns, rfl, hn, hl, -, h0, -, -⟩ := buildStage_form hb
  obtain ⟨l, rfl, hok⟩ := gentabStage_table ht hc
  have hfl : (s.start.writeFl (freqList s.symList)).flList = freqList s.symList := flList_writeFl _ _
  have hlen : (s.start.writeFl (freqList s.symList)).regs.flLen = (freqList s.symList).length := rfl
  rw [hfl] at hn
  rw [hlen] at hl h0
  have hcnt : ∀ r, (((s.start.writeFl (freqList s.symList)).start.writeNodes ns r).regs.nodeCnt + 1) / 2 =
      (freqList s.symList).length := by
    intro r
    have : ((s.start.writeFl (freqList s.symList)).start.writeNodes ns r).regs.nodeCnt = ns.length := rfl
    rw [this, hl]; omega
  refine ⟨l, ha, hb, hc, ht, hfl, rfl, ctList_writeCt _ _, hok, ?_, ?_⟩
  · obtain ⟨js, hp, hm⟩ := hok.leaves
    rw [hm]
    rw [hcnt] at hp
    refine (hp.map _).trans (List.Perm.of_eq ?_)
    refine List.ext_getElem (by simp) fun i h1 h2 => ?_
    simp only [List.length_map, List.length_range] at h1
    simp only [List.getElem_map, List.getElem_range]
    rw [nodeAt_writeNodes _ _ _ _ (by omega)]
    have := hn.leaves i h1
    simp only [nth, List.getD, List.getElem?_eq_getElem (show i < ns.length by omega), Option.getD_some] at this
    rw [this]; rfl
  · rw [hok.length, hcnt]

theorem freqList_cps (cs : List Word) : ∀ c, c ∈ (freqList cs).map Symbol.cp ↔ c ∈ cs := by
  intro c
  rw [freqList, ((sortByFreq_perm _).map Symbol.cp).mem_iff, tallyAll_mem]
  simp

theorem freqList_nodup (cs : List Word) : ((freqList cs).map Symbol.cp).Nodup := by
  rw [freqList, ((sortByFreq_perm _).map Symbol.cp).nodup_iff]
  exact tallyAll_nodup _ _ (by simp)

theorem freqList_freq (cs : List Word) : ∀ x ∈ freqList cs, x.freq = cs.count x.cp := by
  intro x hx
  rw [freqList, (sortByFreq_perm _).mem_iff] at hx
  rw [← freqIn_of_mem (tallyAll_nodup cs [] (by simp)) hx, tallyAll_freqIn]
  simp [freqIn]

theorem freqList_length (cs : List Word) : (freqList cs).length = cs.dedup.length := by
  have h : ((freqList cs).map Symbol.cp).Perm cs.dedup := by
    refine (List.perm_ext_iff_of_nodup (freqList_nodup cs) (List.nodup_dedup cs)).2 fun c => ?_
    rw [freqList_cps, List.mem_dedup]
  simpa using h.length_eq

/-- Inside `ENCODE` every symbol has an entry (46_encode_decode.md R260). -/
theorem Pipeline.found {s a b c : State} {l : List Entry} (h : Pipeline s a b c l) :
    ∃ es : List Entry, c.symList.map (entryOf c.ctList) = es.map some := by
  rw [h.syms, h.table]
  have : ∀ cs : List Word, (∀ x ∈ cs, x ∈ s.symList) → ∃ es : List Entry, cs.map (entryOf l) = es.map some := by
    intro cs
    induction cs with
    | nil => intro _; exact ⟨[], rfl⟩
    | cons x cs ih =>
      intro hx
      obtain ⟨es, hes⟩ := ih fun y hy => hx y (List.mem_cons_of_mem _ hy)
      obtain ⟨e, he⟩ := entryOf_isSome (table := l) (c := x)
        (h.cover.mem_iff.2 ((freqList_cps _ _).2 (hx x (List.mem_cons_self ..))))
      exact ⟨e :: es, by simp [hes, he]⟩
  exact this _ fun x hx => hx

theorem tableValid_of_ok {s : State} {l : List Entry} (h : TableOk s l) : tableValid s.cfg l := by
  rw [← malformedTable_eq_false_iff]
  have hp := prefixClash_of_parts (fun e he => (h.wf e he).1) h.parts
  unfold malformedTable
  rw [hp, Bool.or_false, Bool.or_eq_false_iff, List.any_eq_false, Bool.and_eq_false_iff, List.any_eq_false]
  refine ⟨fun e he => ?_, .inr fun e he => ?_⟩
  · obtain ⟨h1, -, h3⟩ := h.wf e he
    unfold codeTooLong at h3
    rw [Bool.or_eq_false_iff] at h3
    simp [malformedEntry, h3.1, h1]
  · have := (h.wf e he).2.1
    simp; omega

/-- The entries of a valid table with a code of length 1 or more are the ones the decoder emits (44_unpack.md R221). -/
theorem emits_of_valid {p : Params} {table : List Entry} (h : tableValid p table) {e : Entry} (he : e ∈ table)
    (h0 : 0 < e.len) : emits table e := by
  obtain ⟨h1, -, h3⟩ := h
  obtain ⟨i, hi, rfl⟩ := List.mem_iff_getElem.1 he
  refine ⟨h0, (h1 _ he).2, ⟨i, hi, rfl, fun j hj hc => ?_⟩, fun f hf hf0 hfl hc => ?_⟩
  · exact h3 j i (by omega) hi (by omega) ⟨hc.1.le, by rw [hc.1, hc.2]; simp⟩
  · obtain ⟨j, hj, rfl⟩ := List.mem_iff_getElem.1 hf
    have hij : j ≠ i := fun e => by subst e; omega
    exact h3 j i hj hi hij ⟨hfl.le, hc⟩

end Sys2Proof.Machine
end

