-- ==== Sys2Proof/Laws/Step.lean ====
section
/-! SUPPORT. What a command and a step can do, said once: the frame of a command (10_state.md R45), how it can end
(60_exceptions.md R282), and the case analysis of a step (20_memory.md R74). -/

namespace Sys2Proof.Machine

/-- The pseudocode of a command. -/
def stageOf (i : Instr) (s : State) : Except Abort State :=
  match i with
  | .count => countStage s
  | .build => buildStage s
  | .gentab => gentabStage s
  | .pack => packStage s
  | .unpack => unpackStage s
  | .chktab => chktabStage s
  | .encode => encodeStage s
  | .decode => decodeStage s

theorem exec_eq (i : Instr) (s : State) : exec i s = .next (s.finish i (stageOf i s)) := by cases i <;> rfl

/-! ## Frames -/

/-- Two memories hold the same space. -/
def Memory.sameSpace (m m' : Memory) : Space → Prop
  | .sym => m.sym = m'.sym
  | .fl => m.fl = m'.fl
  | .node => m.node = m'.node
  | .ct => m.ct = m'.ct
  | .buf => m.buf = m'.buf
  | .out => m.out = m'.out

theorem Memory.sameSpace_refl (m : Memory) (sp : Space) : m.sameSpace m sp := by cases sp <;> rfl

theorem Memory.sameSpace_trans {m m' m'' : Memory} {sp : Space} (h : m.sameSpace m' sp) (h' : m'.sameSpace m'' sp) :
    m.sameSpace m'' sp := by cases sp <;> exact Eq.trans h h'

/-- What stays outside a set of registers and spaces. -/
structure Framed (rs : List CountReg) (sps : List Space) (s t : State) : Prop where
  cfg : t.cfg = s.cfg
  op : t.op = s.op
  inputs : t.inputs = s.inputs
  observed : t.observed = s.observed
  latency : t.latency = s.latency
  window : t.window = s.window
  hazard : t.hazard = s.hazard
  regs : ∀ r ∉ rs, t.regs.get r = s.regs.get r
  mem : ∀ sp ∉ sps, t.mem.sameSpace s.mem sp
  free : s.freeCount ≤ t.freeCount

theorem Framed.trans {rs rs' rs'' : List CountReg} {sps sps' sps'' : List Space} {s t u : State}
    (h : Framed rs sps s t) (h' : Framed rs' sps' t u) (hr : rs ⊆ rs'') (hr' : rs' ⊆ rs'') (hs : sps ⊆ sps'')
    (hs' : sps' ⊆ sps'') : Framed rs'' sps'' s u where
  cfg := h'.cfg.trans h.cfg
  op := h'.op.trans h.op
  inputs := h'.inputs.trans h.inputs
  observed := h'.observed.trans h.observed
  latency := h'.latency.trans h.latency
  window := h'.window.trans h.window
  hazard := h'.hazard.trans h.hazard
  regs := fun r hm => (h'.regs r fun e => hm (hr' e)).trans (h.regs r fun e => hm (hr e))
  mem := fun sp hm => Memory.sameSpace_trans (h'.mem sp fun e => hm (hs' e)) (h.mem sp fun e => hm (hs e))
  free := h.free.trans h'.free

theorem framed_start (s : State) : Framed [] [] s s.start where
  cfg := rfl
  op := rfl
  inputs := rfl
  observed := rfl
  latency := rfl
  window := rfl
  hazard := rfl
  regs := fun _ _ => rfl
  mem := fun sp _ => Memory.sameSpace_refl _ sp
  free := le_rfl

theorem framed_writeFl (s : State) (l : List Symbol) : Framed [.flLen] [.fl] s (s.writeFl l) where
  cfg := rfl
  op := rfl
  inputs := rfl
  observed := rfl
  latency := rfl
  window := rfl
  hazard := rfl
  regs := fun r hr => by cases r <;> first | rfl | simp at hr
  mem := fun sp hs => by cases sp <;> first | rfl | simp at hs
  free := Nat.le_succ _

theorem framed_writeNodes (s : State) (l : List Node) (n : Nat) :
    Framed [.nodeCnt, .root] [.node] s (s.writeNodes l n) where
  cfg := rfl
  op := rfl
  inputs := rfl
  observed := rfl
  latency := rfl
  window := rfl
  hazard := rfl
  regs := fun r hr => by cases r <;> first | rfl | simp at hr
  mem := fun sp hs => by cases sp <;> first | rfl | simp at hs
  free := Nat.le_succ _

theorem framed_writeCt (s : State) (l : List Entry) : Framed [.ctLen] [.ct] s (s.writeCt l) where
  cfg := rfl
  op := rfl
  inputs := rfl
  observed := rfl
  latency := rfl
  window := rfl
  hazard := rfl
  regs := fun r hr => by cases r <;> first | rfl | simp at hr
  mem := fun sp hs => by cases sp <;> first | rfl | simp at hs
  free := Nat.le_succ _

theorem framed_writeStream (s : State) (l : List Byte) (n : Nat) :
    Framed [.bitLen, .bufLen] [.buf] s (s.writeStream l n) where
  cfg := rfl
  op := rfl
  inputs := rfl
  observed := rfl
  latency := rfl
  window := rfl
  hazard := rfl
  regs := fun r hr => by cases r <;> first | rfl | simp at hr
  mem := fun sp hs => by cases sp <;> first | rfl | simp at hs
  free := Nat.le_succ _

theorem framed_writeOut (s : State) (l : List Word) : Framed [.outLen] [.out] s (s.writeOut l) where
  cfg := rfl
  op := rfl
  inputs := rfl
  observed := rfl
  latency := rfl
  window := rfl
  hazard := rfl
  regs := fun r hr => by cases r <;> first | rfl | simp at hr
  mem := fun sp hs => by cases sp <;> first | rfl | simp at hs
  free := Nat.le_succ _

theorem zeroed_other (r : Regs) (ns : List CountReg) {n : CountReg} (h : n ∉ ns) : (r.zeroed ns).get n = r.get n := by
  unfold Regs.zeroed
  induction ns generalizing r with
  | nil => rfl
  | cons m ns ih =>
    rw [List.mem_cons, not_or] at h
    rw [List.foldl_cons, ih _ h.2, get_set_other _ _ _ _ (fun e => h.1 e.symm)]

theorem zeroed_get (r : Regs) (ns : List CountReg) {n : CountReg} (h : n ∈ ns) : (r.zeroed ns).get n = 0 := by
  unfold Regs.zeroed
  induction ns generalizing r with
  | nil => cases h
  | cons m ns ih =>
    rw [List.foldl_cons]
    by_cases hm : n ∈ ns
    · exact ih _ hm
    · rcases List.mem_cons.1 h with rfl | hm'
      · exact (zeroed_other _ ns hm).trans (get_set _ _ _ _ rfl)
      · exact absurd hm' hm

theorem freedRegs_other (r : Regs) (draw : Nat) (ns : List CountReg) {n : CountReg} (h : n ∉ ns) :
    (r.freed draw ns).get n = r.get n := by
  unfold Regs.freed
  induction ns generalizing r with
  | nil => rfl
  | cons m ns ih =>
    rw [List.mem_cons, not_or] at h
    rw [List.foldl_cons, ih _ h.2, get_set_other _ _ _ _ (fun e => h.1 e.symm)]

theorem freedRegs_get (r : Regs) (draw : Nat) (ns : List CountReg) {n : CountReg} (h : n ∈ ns) :
    (r.freed draw ns).get n = Config.freeValue (.reg n) draw 0 % 2 ^ 32 := by
  unfold Regs.freed
  induction ns generalizing r with
  | nil => cases h
  | cons m ns ih =>
    rw [List.foldl_cons]
    by_cases hm : n ∈ ns
    · exact ih _ hm
    · rcases List.mem_cons.1 h with rfl | hm'
      · exact (freedRegs_other _ draw ns hm).trans (get_set _ _ _ _ rfl)
      · exact absurd hm' hm

theorem freeSpace_other (m : Memory) (draw : Nat) {sp sp' : Space} (h : sp' ≠ sp) :
    (m.freeSpace draw sp).sameSpace m sp' := by
  cases sp <;> cases sp' <;> first | rfl | exact absurd rfl h

theorem freedMem_other (m : Memory) (draw : Nat) (sps : List Space) {sp : Space} (h : sp ∉ sps) :
    (m.freed draw sps).sameSpace m sp := by
  unfold Memory.freed
  induction sps generalizing m with
  | nil => exact Memory.sameSpace_refl m sp
  | cons x sps ih =>
    rw [List.mem_cons, not_or] at h
    exact Memory.sameSpace_trans (ih _ h.2) (freeSpace_other m draw h.1)

theorem spaceFree_congr {m m' : Memory} {draw : Nat} {sp : Space} (h : m'.sameSpace m sp) (hf : m.spaceFree draw sp) :
    m'.spaceFree draw sp := by
  cases sp <;> simp only [Memory.sameSpace] at h <;> simp only [Memory.spaceFree, h] <;> exact hf

theorem freedMem_free (m : Memory) (draw : Nat) (sps : List Space) {sp : Space} (h : sp ∈ sps) :
    (m.freed draw sps).spaceFree draw sp := by
  unfold Memory.freed
  induction sps generalizing m with
  | nil => cases h
  | cons x sps ih =>
    rw [List.foldl_cons]
    by_cases hm : sp ∈ sps
    · exact ih _ hm
    · rcases List.mem_cons.1 h with rfl | hm'
      · refine spaceFree_congr (freedMem_other _ draw sps hm) ?_
        cases sp <;> simp [Memory.spaceFree, Memory.freeSpace]
      · exact absurd hm' hm

theorem framed_raise (s : State) (rs : List CountReg) (sps : List Space) (e : ErrKind) :
    Framed rs sps s (s.raise rs sps e) where
  cfg := rfl
  op := rfl
  inputs := rfl
  observed := rfl
  latency := rfl
  window := rfl
  hazard := rfl
  regs := fun _ hr => zeroed_other _ _ hr
  mem := fun _ hs => freedMem_other _ _ _ hs
  free := Nat.le_succ _

theorem framed_completeFree (s : State) (rs : List CountReg) (sps : List Space) (e : ErrKind) :
    Framed rs sps s (s.completeFree rs sps e) where
  cfg := rfl
  op := rfl
  inputs := rfl
  observed := rfl
  latency := rfl
  window := rfl
  hazard := rfl
  regs := fun _ hr => freedRegs_other _ _ _ hr
  mem := fun _ hs => freedMem_other _ _ _ hs
  free := Nat.le_succ _

theorem framed_complete (s : State) : Framed [] [] s s.complete where
  cfg := rfl
  op := rfl
  inputs := rfl
  observed := rfl
  latency := rfl
  window := rfl
  hazard := rfl
  regs := fun _ _ => rfl
  mem := fun sp _ => Memory.sameSpace_refl _ sp
  free := le_rfl

/-- The pseudocode of a command stays inside the command's write set (10_state.md R45). -/
theorem framed_stage {i : Instr} {s t : State} (h : stageOf i s = .ok t) : Framed (writeRegs i) (writeSpaces i) s t := by
  have count : ∀ {s t : State}, countStage s = .ok t → Framed [.flLen] [.fl] s t := by
    intro s t h
    obtain ⟨rfl, -⟩ := countStage_form h
    exact (framed_start s).trans (framed_writeFl _ _) (by simp) (by simp) (by simp) (by simp)
  have build : ∀ {s t : State}, buildStage s = .ok t → Framed [.nodeCnt, .root] [.node] s t := by
    intro s t h
    obtain ⟨l, rfl, -⟩ := buildStage_form h
    exact (framed_start s).trans (framed_writeNodes _ _ _) (by simp) (by simp) (by simp) (by simp)
  have gentab : ∀ {s t : State}, gentabStage s = .ok t → Framed [.ctLen] [.ct] s t := by
    intro s t h
    obtain ⟨l, rfl, -⟩ := gentabStage_form h
    exact (framed_start s).trans (framed_writeCt _ _) (by simp) (by simp) (by simp) (by simp)
  have pack : ∀ {s t : State}, packStage s = .ok t → Framed [.bitLen, .bufLen] [.buf] s t := by
    intro s t h
    obtain ⟨es, -, rfl, -⟩ := packStage_form h
    exact (framed_start s).trans (framed_writeStream _ _ _) (by simp) (by simp) (by simp) (by simp)
  have unpack : ∀ {s t : State}, unpackStage s = .ok t → Framed [.outLen] [.out] s t := by
    intro s t h
    obtain ⟨es, -, -, rfl, -⟩ := unpackStage_form h
    exact (framed_start s).trans (framed_writeOut _ _) (by simp) (by simp) (by simp) (by simp)
  cases i with
  | count => exact count h
  | build => exact build h
  | gentab => exact gentab h
  | pack => exact pack h
  | unpack => exact unpack h
  | chktab =>
    obtain ⟨rfl, -⟩ := chktabStage_form h
    exact framed_start s
  | encode =>
    obtain ⟨a, b, c, ha, hb, hc, hd⟩ := encodeStage_form h
    have h1 := (count ha).trans (build hb) (rs'' := writeRegs .encode) (sps'' := writeSpaces .encode)
      (by simp [writeRegs]) (by simp [writeRegs]) (by simp [writeSpaces]) (by simp [writeSpaces])
    have h2 := h1.trans (gentab hc) (rs'' := writeRegs .encode) (sps'' := writeSpaces .encode)
      (by simp [writeRegs]) (by simp [writeRegs]) (by simp [writeSpaces]) (by simp [writeSpaces])
    exact h2.trans (pack hd) (by simp [writeRegs]) (by simp [writeRegs]) (by simp [writeSpaces]) (by simp [writeSpaces])
  | decode =>
    rcases decodeStage_form h with ⟨-, rfl⟩ | ⟨-, -, hu⟩
    · exact framed_writeOut s []
    · exact (framed_start s).trans (unpack hu) (by simp) (by simp [writeRegs]) (by simp) (by simp [writeSpaces])

/-- A command stays inside its write set, however it ends (10_state.md R45). -/
theorem framed_finish (i : Instr) (s : State) :
    Framed (writeRegs i) (writeSpaces i) s (s.finish i (stageOf i s)) := by
  cases h : stageOf i s with
  | ok t =>
    exact (framed_stage h).trans (framed_complete t) (List.Subset.refl _) (by simp) (List.Subset.refl _) (by simp)
  | error a =>
    cases a with
    | raise e => exact framed_raise s _ _ e
    | noTree =>
      unfold State.finish
      simp only
      split_ifs
      · exact framed_raise s _ _ _
      · exact framed_completeFree s _ _ _

theorem framed_completeUnspecified (s : State) (rs : List CountReg) (sps : List Space) :
    Framed rs sps s (s.completeUnspecified rs sps) := framed_completeFree s rs sps _

/-- A field of a space that stays keeps its value. -/
theorem fieldAt_of_sameSpace {s t : State} (hcfg : t.cfg = s.cfg) {c : Column}
    (h : t.mem.sameSpace s.mem (spaceOf c)) (k : Nat) : t.fieldAt c k = s.fieldAt c k := by
  cases c <;> simp only [spaceOf, Memory.sameSpace] at h <;>
    simp only [State.fieldAt, State.symAt, State.flAt, State.nodeAt, State.ctAt, State.bufAt, State.outAt, h, hcfg]

/-! ## How a command ends -/

/-- Success, an error kind of the command's own, or, for `GENTAB` without a tree of 10_state.md R36, a traversal that
no rule follows to its end (assumption log 15). -/
theorem stage_cases (i : Instr) (s : State) :
    (∃ t, stageOf i s = .ok t) ∨
    (∃ e ∈ kindsOf i, e ≠ .ok ∧ stageOf i s = .error (.raise e) ∧ (e = .capacityExceeded → ¬ noCapacity s.cfg)) ∨
    (i = .gentab ∧ ¬ TreeInv s ∧ stageOf i s = .error .noTree) := by
  have key : ∀ {a : Abort} {ks : List ErrKind},
      (∃ e ∈ ks, e ≠ .ok ∧ a = .raise e ∧ (e = .capacityExceeded → ¬ noCapacity s.cfg)) → stageOf i s = .error a →
      ks ⊆ kindsOf i →
      ∃ e ∈ kindsOf i, e ≠ .ok ∧ stageOf i s = .error (.raise e) ∧ (e = .capacityExceeded → ¬ noCapacity s.cfg) := by
    rintro a ks ⟨e, he, hne, rfl, hc⟩ hs hk
    exact ⟨e, hk he, hne, hs, hc⟩
  have two : ∀ {a : Abort} {e : ErrKind}, e ≠ .ok → e ≠ .capacityExceeded →
      (a = .raise e ∨ (a = .raise .capacityExceeded ∧ ¬ noCapacity s.cfg)) →
      ∃ e' ∈ [e, .capacityExceeded], e' ≠ .ok ∧ a = .raise e' ∧ (e' = .capacityExceeded → ¬ noCapacity s.cfg) := by
    rintro a e h1 h2 (rfl | ⟨rfl, hn⟩)
    · exact ⟨e, by simp, h1, rfl, fun h => absurd h h2⟩
    · exact ⟨_, by simp, by decide, rfl, fun _ => hn⟩
  cases h : stageOf i s with
  | ok t => exact .inl ⟨t, rfl⟩
  | error a =>
    rw [← h]
    cases i with
    | count => exact .inr (.inl (key (two (by decide) (by decide) (countStage_error h)) h (by simp [kindsOf])))
    | build => exact .inr (.inl (key (two (by decide) (by decide) (buildStage_error h)) h (by simp [kindsOf])))
    | gentab =>
      by_cases ht : TreeInv s
      · exact .inr (.inl (key (two (by decide) (by decide) (gentabStage_error ht h)) h (by simp [kindsOf])))
      · rcases gentabStage_abort h with h1 | h1 | rfl
        · exact .inr (.inl (key (two (by decide) (by decide) (.inl h1)) h (by simp [kindsOf])))
        · exact .inr (.inl (key (two (e := .emptyInput) (by decide) (by decide) (.inr h1)) h (by simp [kindsOf])))
        · exact .inr (.inr ⟨rfl, ht, h⟩)
    | pack =>
      rcases packStage_error h with rfl | rfl | ⟨rfl, hn⟩
      · exact .inr (.inl ⟨_, by simp [kindsOf], by decide, h, fun e => by cases e⟩)
      · exact .inr (.inl ⟨_, by simp [kindsOf], by decide, h, fun e => by cases e⟩)
      · exact .inr (.inl ⟨_, by simp [kindsOf], by decide, h, fun _ => hn⟩)
    | unpack => exact .inr (.inl (key (two (by decide) (by decide) (unpackStage_error h)) h (by simp [kindsOf])))
    | chktab => exact .inr (.inl (key (two (by decide) (by decide) (chktabStage_error h)) h (by simp [kindsOf])))
    | encode =>
      have h' := h
      simp only [stageOf, encodeStage, thenStage] at h'
      cases ha : countStage s with
      | error e =>
        rw [ha] at h'; cases h'
        exact .inr (.inl (key (two (by decide) (by decide) (countStage_error ha)) h (by simp [kindsOf])))
      | ok a1 =>
        simp only [ha] at h'
        have f1 := framed_stage (i := .count) ha
        cases hb : buildStage a1 with
        | error e =>
          simp only [hb] at h'; cases h'
          have := buildStage_error hb
          rw [f1.cfg] at this
          exact .inr (.inl (key (two (by decide) (by decide) this) h (by simp [kindsOf])))
        | ok b =>
          simp only [hb] at h'
          have f2 := framed_stage (i := .build) hb
          cases hc : gentabStage b with
          | error e =>
            simp only [hc] at h'; cases h'
            have := gentabStage_error (fun _ => buildStage_tree hb) hc
            rw [f2.cfg, f1.cfg] at this
            exact .inr (.inl (key (two (by decide) (by decide) this) h (by simp [kindsOf])))
          | ok c =>
            simp only [hc] at h'
            have f3 := framed_stage (i := .gentab) hc
            rcases packStage_error h' with rfl | rfl | ⟨rfl, hn⟩
            · exact .inr (.inl ⟨_, by simp [kindsOf], by decide, h, fun e => by cases e⟩)
            · -- the table was generated from the same input: every symbol has an entry
              exfalso
              obtain ⟨l, hp⟩ := pipeline ha hb hc
              obtain ⟨es, hes⟩ := hp.found
              exact packStage_found_error hes h'
            · rw [f3.cfg, f2.cfg, f1.cfg] at hn
              exact .inr (.inl ⟨_, by simp [kindsOf], by decide, h, fun _ => hn⟩)
    | decode =>
      have h' := h
      simp only [stageOf, decodeStage, thenStage] at h'
      split_ifs at h' with h0
      split at h'
      · next u hu =>
        obtain ⟨rfl, -⟩ := chktabStage_form hu
        exact .inr (.inl (key (two (by decide) (by decide) (unpackStage_error h')) h (by simp [kindsOf])))
      · next e he =>
        cases h'
        exact .inr (.inl (key (two (by decide) (by decide) (chktabStage_error he)) h (by simp [kindsOf])))

/-- Everything the end of a command can be: completion, error entry with a kind of the command's own (60_exceptions.md
R282, R287), or, for `GENTAB` without a tree of 10_state.md R36, a success with any result (assumption log 15). -/
theorem finish_cases (i : Instr) (s : State) :
    (∃ t, stageOf i s = .ok t ∧ s.finish i (stageOf i s) = t.complete) ∨
    (∃ e ∈ kindsOf i, e ≠ .ok ∧ (e = .capacityExceeded → ¬ noCapacity s.cfg) ∧
      s.finish i (stageOf i s) = s.raise (writeRegs i) (writeSpaces i) e) ∨
    (i = .gentab ∧ ¬ TreeInv s ∧ stageOf i s = .error .noTree ∧
      s.finish i (stageOf i s) = s.completeFree (writeRegs i) (writeSpaces i) .ok) := by
  rcases stage_cases i s with ⟨t, h⟩ | ⟨e, he, hne, h, hc⟩ | ⟨rfl, ht, h⟩
  · exact .inl ⟨t, h, by rw [h]; rfl⟩
  · exact .inr (.inl ⟨e, he, hne, hc, by rw [h]; rfl⟩)
  · rw [h]
    cases hf : noTreeRaises s.cfg (Config.freeValue .errKind s.freeCount 0) with
    | true =>
      refine .inr (.inl ⟨.capacityExceeded, by simp [kindsOf], by decide, fun _ hn => ?_, by simp [State.finish, hf]⟩)
      simp [noTreeRaises, hn.2.1, hn.2.2.1] at hf
    | false => exact .inr (.inr ⟨rfl, ht, rfl, by simp [State.finish, hf]⟩)

/-! ## A step -/

/-- Everything a step can do (20_memory.md R74). -/
theorem step_cases {s t : State} (h : step s = .next t) :
    (engineTurn s = true ∧ s.hazard = true ∧
      t = { s.completeUnspecified s.op.touchedRegs s.op.touchedSpaces with hazard := false }) ∨
    (engineTurn s = true ∧ s.hazard = false ∧ s.op = .illegal ∧ t = s.completeIllegal) ∨
    (∃ i, engineTurn s = true ∧ s.hazard = false ∧ s.op = .command i ∧ t = s.finish i (stageOf i s)) ∨
    (engineTurn s = false ∧ s.inputs = [] ∧ t = s) ∨
    (∃ m rest, engineTurn s = false ∧ s.inputs = m :: rest ∧
      hostMove m { s with inputs := rest, latency := s.latency - 1 } = .next t) := by
  unfold step at h
  cases ht : engineTurn s with
  | true =>
    simp only [ht, if_true, engineMove] at h
    cases hz : s.hazard with
    | true =>
      simp only [hz, if_true] at h
      cases h
      exact .inl ⟨rfl, rfl, rfl⟩
    | false =>
      simp only [hz, Bool.false_eq_true, if_false] at h
      cases ho : s.op with
      | illegal =>
        simp only [ho] at h
        cases h
        exact .inr (.inl ⟨rfl, rfl, rfl, rfl⟩)
      | command i =>
        simp only [ho, exec_eq] at h
        cases h
        exact .inr (.inr (.inl ⟨i, rfl, rfl, rfl, rfl⟩))
  | false =>
    simp only [ht, Bool.false_eq_true, if_false, hostTurn] at h
    split at h
    · next hi => cases h; exact .inr (.inr (.inr (.inl ⟨rfl, hi, rfl⟩)))
    · next m rest hi => exact .inr (.inr (.inr (.inr ⟨m, rest, rfl, hi, h⟩)))

/-- Everything a host's move can do. -/
theorem hostMove_cases {m : HostMove} {u t : State} (h : hostMove m u = .next t) :
    (∃ width offset, m = .regRead width offset ∧ t = u.readRegMove offset) ∨
    (∃ width offset v, m = .regWrite width offset v ∧ t = u.writeRegMove offset v) ∨
    (∃ c i, m = .memRead c i ∧ t = u.readMemMove c i) ∨
    (∃ c i v, m = .memWrite c i v ∧ t = u.writeMemMove c i v) ∨
    (m = .wait ∧ t = u.waitMove) ∨ (m = .reset ∧ t = u.resetEvent) := by
  cases m <;> simp only [hostMove] at h <;> (try split_ifs at h) <;> cases h <;> simp

/-! ## A command does not look at the host's side -/

/-- The engine's registers, memories and internal state of `s` beside the host's side, the status and the latched
command of `h`. -/
def State.onHost (s h : State) : State :=
  { h with cfg := s.cfg, regs := s.regs, mem := s.mem, int := s.int, freeCount := s.freeCount }

theorem gentabLoop_onHost (s h : State) (n : Nat) (w : GentabWork) :
    gentabLoop (s.onHost h) n w = gentabLoop s n w := by
  induction n generalizing w with
  | zero => unfold gentabLoop; rfl
  | succ n ih =>
    unfold gentabLoop
    split
    · rfl
    · next top rest hs =>
      have e : gentabPass (s.onHost h) top { w with stk := rest } = gentabPass s top { w with stk := rest } := rfl
      simp only [e]
      cases gentabPass s top { w with stk := rest } with
      | ok w' => exact ih w'
      | error a => rfl

theorem unpackLoop_onHost (s h : State) (table : List Entry) (n : Nat) (w : UnpackWork) :
    unpackLoop (s.onHost h) table n w = unpackLoop s table n w := by
  induction n generalizing w with
  | zero => rfl
  | succ n ih =>
    have e : unpackPass (s.onHost h) table w = unpackPass s table w := rfl
    have e2 : (s.onHost h).regs = s.regs := rfl
    simp only [unpackLoop, e, e2]
    split_ifs
    · cases unpackPass s table w with
      | ok w' => exact ih w'
      | error a => rfl
    · rfl

theorem thenStage_onHost {r : Except Abort State} {f : State → Except Abort State} {h : State}
    (hf : ∀ s : State, f (s.onHost h) = (f s).map (·.onHost h)) :
    thenStage (r.map (·.onHost h)) f = (thenStage r f).map (·.onHost h) := by
  cases r with
  | ok s => exact hf s
  | error a => rfl

theorem stage_onHost (i : Instr) (s h : State) : stageOf i (s.onHost h) = (stageOf i s).map (·.onHost h) := by
  have count : ∀ s : State, countStage (s.onHost h) = (countStage s).map (·.onHost h) := by
    intro s
    have e : countStage (s.onHost h) =
        if exceeds s.cfg.nMax s.regs.symLen then .error (.raise .capacityExceeded)
        else if s.regs.symLen = 0 then .error (.raise .emptyInput)
        else
          match countLoop s.cfg s.symList Internal.empty.count with
          | .error e => .error e
          | .ok w =>
            if exceeds s.cfg.kMax w.t.length then .error (.raise .capacityExceeded)
            else .ok ((s.start.writeFl (sortByFreq w.t)).onHost h) := rfl
    have e' : countStage s =
        if exceeds s.cfg.nMax s.regs.symLen then .error (.raise .capacityExceeded)
        else if s.regs.symLen = 0 then .error (.raise .emptyInput)
        else
          match countLoop s.cfg s.symList Internal.empty.count with
          | .error e => .error e
          | .ok w =>
            if exceeds s.cfg.kMax w.t.length then .error (.raise .capacityExceeded)
            else .ok (s.start.writeFl (sortByFreq w.t)) := rfl
    rw [e, e']
    split_ifs
    · rfl
    · rfl
    · cases countLoop s.cfg s.symList Internal.empty.count with
      | error a => rfl
      | ok w => simp only; split_ifs <;> rfl
  have build : ∀ s : State, buildStage (s.onHost h) = (buildStage s).map (·.onHost h) := by
    intro s
    have e : buildStage (s.onHost h) =
        if exceeds s.cfg.kMax s.regs.flLen then .error (.raise .capacityExceeded)
        else if s.regs.flLen = 0 then .error (.raise .emptyInput)
        else
          match buildLoop s.cfg s.regs.flLen (buildLeaves s.flList Internal.empty.build) with
          | .error e => .error e
          | .ok w => .ok ((s.start.writeNodes w.nodes (rootOf w.pq)).onHost h) := rfl
    have e' : buildStage s =
        if exceeds s.cfg.kMax s.regs.flLen then .error (.raise .capacityExceeded)
        else if s.regs.flLen = 0 then .error (.raise .emptyInput)
        else
          match buildLoop s.cfg s.regs.flLen (buildLeaves s.flList Internal.empty.build) with
          | .error e => .error e
          | .ok w => .ok (s.start.writeNodes w.nodes (rootOf w.pq)) := rfl
    rw [e, e']
    split_ifs
    · rfl
    · rfl
    · cases buildLoop s.cfg s.regs.flLen (buildLeaves s.flList Internal.empty.build) <;> rfl
  have gentab : ∀ s : State, gentabStage (s.onHost h) = (gentabStage s).map (·.onHost h) := by
    intro s
    have e : gentabStage (s.onHost h) =
        if s.regs.nodeCnt = 0 then .error (.raise .emptyInput)
        else if exceeds (capacity s.cfg .node) s.regs.nodeCnt then .error (.raise .capacityExceeded)
        else if s.regs.nodeCnt ≤ s.regs.root then .error .noTree
        else if (s.nodeAt s.regs.root).leaf then
          if codeTooLong s.cfg 1 then .error (.raise .capacityExceeded)
          else .ok ((s.start.writeCt [{ sym := (s.nodeAt s.regs.root).sym, pat := 0, len := 1 }]).onHost h)
        else
          match gentabLoop (s.start.onHost h) s.regs.nodeCnt
            { stk := [{ node := s.regs.root, pat := 0, len := 0 }], table := [] } with
          | .error e => .error e
          | .ok w => .ok ((s.start.writeCt w.table).onHost h) := rfl
    rw [e, gentabStage_def, gentabLoop_onHost]
    split_ifs
    · rfl
    · rfl
    · rfl
    · rfl
    · rfl
    · cases gentabLoop s.start s.regs.nodeCnt
        { stk := [{ node := s.regs.root, pat := 0, len := 0 }], table := [] } <;> rfl
  have pack : ∀ s : State, packStage (s.onHost h) = (packStage s).map (·.onHost h) := by
    intro s
    have e : packStage (s.onHost h) =
        if exceeds s.cfg.nMax s.regs.symLen || exceeds s.cfg.kMax s.regs.ctLen then .error (.raise .capacityExceeded)
        else if s.regs.symLen = 0 then .error (.raise .emptyInput)
        else
          match packLoop s.cfg s.ctList s.symList Internal.empty.pack with
          | .error e => .error e
          | .ok w => .ok ((s.start.writeStream (packBytes w.stream) w.bl).onHost h) := rfl
    rw [e, packStage_eq]
    split_ifs
    · rfl
    · rfl
    · cases packLoop s.cfg s.ctList s.symList Internal.empty.pack <;> rfl
  have unpack : ∀ s : State, unpackStage (s.onHost h) = (unpackStage s).map (·.onHost h) := by
    intro s
    have e : unpackStage (s.onHost h) =
        if exceeds s.cfg.bMax s.regs.bufLen || exceeds s.cfg.kMax s.regs.ctLen then .error (.raise .capacityExceeded)
        else
          match unpackLoop (s.start.onHost h) s.ctList s.regs.bitLen Internal.empty.unpack with
          | .error e => .error e
          | .ok w =>
            if w.accLen ≠ 0 then .error (.raise .truncatedStream) else .ok ((s.start.writeOut w.syms).onHost h) := rfl
    rw [e, unpackStage_eq, unpackLoop_onHost]
    split_ifs
    · rfl
    · cases unpackLoop s.start s.ctList s.regs.bitLen Internal.empty.unpack with
      | error a => rfl
      | ok w => simp only; split_ifs <;> rfl
  have chktab : ∀ s : State, chktabStage (s.onHost h) = (chktabStage s).map (·.onHost h) := by
    intro s
    have e : chktabStage (s.onHost h) =
        if exceeds s.cfg.kMax s.regs.ctLen then .error (.raise .capacityExceeded)
        else if malformedTable s.cfg s.ctList then .error (.raise .invalidTable)
        else .ok (s.start.onHost h) := rfl
    rw [e, chktabStage_eq]
    split_ifs <;> rfl
  cases i with
  | count => exact count s
  | build => exact build s
  | gentab => exact gentab s
  | pack => exact pack s
  | unpack => exact unpack s
  | chktab => exact chktab s
  | encode =>
    simp only [stageOf, encodeStage, count, thenStage_onHost build, thenStage_onHost gentab, thenStage_onHost pack]
  | decode =>
    have e : decodeStage (s.onHost h) =
        if s.regs.bitLen = 0 then .ok ((s.writeOut []).onHost h)
        else thenStage (chktabStage (s.onHost h)) unpackStage := rfl
    have e' : decodeStage s =
        if s.regs.bitLen = 0 then .ok (s.writeOut []) else thenStage (chktabStage s) unpackStage := rfl
    show decodeStage (s.onHost h) = (decodeStage s).map (·.onHost h)
    rw [e, e', chktab, thenStage_onHost unpack]
    split_ifs <;> rfl

/-- The end of a command does not look at the host's side either. -/
theorem finish_onHost (i : Instr) (s h : State) :
    ((s.onHost h).finish i (stageOf i (s.onHost h))).status = (s.finish i (stageOf i s)).status ∧
    ((s.onHost h).finish i (stageOf i (s.onHost h))).regs = (s.finish i (stageOf i s)).regs ∧
    ((s.onHost h).finish i (stageOf i (s.onHost h))).mem = (s.finish i (stageOf i s)).mem := by
  rw [stage_onHost]
  cases stageOf i s with
  | ok t => exact ⟨rfl, rfl, rfl⟩
  | error a =>
    cases a with
    | raise e => exact ⟨rfl, rfl, rfl⟩
    | noTree =>
      have hc : (s.onHost h).cfg = s.cfg := rfl
      have hf : (s.onHost h).freeCount = s.freeCount := rfl
      simp only [Except.map, State.finish, hc, hf]
      cases noTreeRaises s.cfg (Config.freeValue .errKind s.freeCount 0) <;> exact ⟨rfl, rfl, rfl⟩

/-! ## What an access inside the hazard window touches -/

/-- `freeReg` writes one count register, or `STATUS` but for its `BUSY`, and draws once. -/
theorem freeReg_cases (s : State) (offset : Nat) :
    (∃ r v, v < 2 ^ 32 ∧
      s.freeReg offset = { s with regs := s.regs.set r v, freeCount := s.freeCount + 1 }) ∨
    (∃ done e, s.freeReg offset =
      { s with status := statusWord s.busy done (ErrKind.code e), freeCount := s.freeCount + 1 }) ∨
    s.freeReg offset = { s with freeCount := s.freeCount + 1 } := by
  unfold State.freeReg
  split
  · exact .inl ⟨_, _, Nat.mod_lt _ (Nat.two_pow_pos 32), rfl⟩
  · split_ifs
    · exact .inr (.inl ⟨_, _, rfl⟩)
    · exact .inr (.inr rfl)

/-- `spoil` marks a running command as disturbed, or, where it has completed, makes its results and `ERR` any value. -/
theorem spoil_cases (s : State) :
    (s.busy = true ∧ s.spoil = { s with hazard := true, freeCount := s.freeCount + 1 }) ∨
    (s.busy = false ∧ ∃ e, s.spoil =
      { s.completeUnspecified s.op.touchedRegs s.op.touchedSpaces with
        status := statusWord false (doneFlag s.status) (ErrKind.code e) }) := by
  unfold State.spoil State.freeStatus
  cases hb : s.busy with
  | true => exact .inl ⟨rfl, rfl⟩
  | false => exact .inr ⟨rfl, _, rfl⟩

/-- What `spoil` leaves alone: everything the running command does not touch, and while it runs every location. -/
theorem spoil_keeps (s : State) :
    s.spoil.cfg = s.cfg ∧ s.spoil.op = s.op ∧ s.spoil.inputs = s.inputs ∧ s.spoil.window = s.window ∧
    s.spoil.busy = s.busy ∧ doneFlag s.spoil.status = doneFlag s.status ∧
    (s.busy = true → s.spoil.hazard = true ∧ s.spoil.status = s.status) ∧
    (∀ r, s.busy = true ∨ r ∉ s.op.touchedRegs → s.spoil.regs.get r = s.regs.get r) ∧
    ∀ c k, s.busy = true ∨ spaceOf c ∉ s.op.touchedSpaces → s.spoil.fieldAt c k = s.fieldAt c k := by
  rcases spoil_cases s with ⟨hb, e⟩ | ⟨hb, k, e⟩ <;> rw [e]
  · exact ⟨rfl, rfl, rfl, rfl, rfl, rfl, fun _ => ⟨rfl, rfl⟩, fun _ _ => rfl, fun c _ _ => by cases c <;> rfl⟩
  · have f := framed_completeUnspecified s s.op.touchedRegs s.op.touchedSpaces
    have hf : s.busy ≠ true := by simp [hb]
    refine ⟨f.cfg, f.op, f.inputs, f.window, by rw [hb]; exact busyFlag_statusWord _ _ _, doneFlag_statusWord _ _ _,
      fun h => absurd h hf, fun r hr => f.regs r (hr.resolve_left hf), fun c k hc => ?_⟩
    exact fieldAt_of_sameSpace f.cfg (f.mem _ (hc.resolve_left hf)) k

/-- What `freeReg` leaves alone: all but the register of its offset, and of `STATUS` its `BUSY`. -/
theorem freeReg_keeps (s : State) (offset : Nat) :
    (s.freeReg offset).cfg = s.cfg ∧ (s.freeReg offset).op = s.op ∧ (s.freeReg offset).inputs = s.inputs ∧
    (s.freeReg offset).window = s.window ∧ (s.freeReg offset).hazard = s.hazard ∧ (s.freeReg offset).mem = s.mem ∧
    (s.freeReg offset).busy = s.busy ∧ (offset ≠ 0x04 → (s.freeReg offset).status = s.status) ∧
    ∀ r, countRegAt offset ≠ some r → (s.freeReg offset).regs.get r = s.regs.get r := by
  unfold State.freeReg
  split
  · next q hq => exact ⟨rfl, rfl, rfl, rfl, rfl, rfl, rfl, fun _ => rfl, fun r hr =>
      get_set_other _ _ _ _ fun h => hr (h ▸ hq)⟩
  · split_ifs with h4
    · exact ⟨rfl, rfl, rfl, rfl, rfl, rfl, busyFlag_statusWord _ _ _, fun h => absurd h4 h, fun _ _ => rfl⟩
    · exact ⟨rfl, rfl, rfl, rfl, rfl, rfl, rfl, fun _ => rfl, fun _ _ => rfl⟩

end Sys2Proof.Machine
end

