-- ==== Sys2Proof/Laws/Coding.lean ====
section
/-! SUPPORT. What successful commands do together: a property every stage keeps, the node of greatest frequency, the
depth of a tree, a decoder fed with codes, and a successful `ENCODE` in one lemma (46_encode_decode.md R256, R262). -/

namespace Sys2Proof.Machine

/-- What every stage keeps, every command keeps. -/
theorem stage_keeps {P : State → Prop} (hs : ∀ s, P s → P s.start)
   (h1 : ∀ s t, P s → countStage s = .ok t → P t)
   (h2 : ∀ s t, P s → buildStage s = .ok t → P t)
   (h3 : ∀ s t, P s → gentabStage s = .ok t → P t)
   (h4 : ∀ s t, P s → packStage s = .ok t → P t)
   (h5 : ∀ s t, P s → unpackStage s = .ok t → P t)
   (h6 : ∀ s, P s → P (s.writeOut []))
   (i : Instr) (s t : State) (h : P s) (hr : stageOf i s = .ok t) : P t := by
  cases i with
  | count => exact h1 s t h hr
  | build => exact h2 s t h hr
  | gentab => exact h3 s t h hr
  | pack => exact h4 s t h hr
  | unpack => exact h5 s t h hr
  | chktab => obtain ⟨rfl, -⟩ := chktabStage_form hr; exact hs s h
  | encode =>
    obtain ⟨a, b, c, ha, hb, hc, hd⟩ := encodeStage_form hr
    exact h4 _ _ (h3 _ _ (h2 _ _ (h1 _ _ h ha) hb) hc) hd
  | decode =>
    rcases decodeStage_form hr with ⟨-, rfl⟩ | ⟨-, -, hu⟩
    · exact h6 s h
    · exact h5 _ _ (hs s h) hu

/-- A command that ends in `Ok` ran its pseudocode to the end. -/
theorem finish_ok_of_endsOk {i : Instr} {s : State} (ht : TreeInv s) (h : (s.finish i (stageOf i s)).endsWith .ok) :
    ∃ t, stageOf i s = .ok t := by
  rcases stage_cases i s with ⟨u, hh⟩ | ⟨e, -, hne, hh, -⟩ | ⟨rfl, hn, -⟩
  · exact ⟨u, hh⟩
  · rw [hh] at h; exact absurd (completedStatus_injective h) hne
  · exact absurd ht hn

/-- A successful `ENCODE`, with no premise on the tree. -/
theorem encode_ok_of {s t : State} (h : exec .encode s = .next t) (hok : t.endsWith .ok) :
    ∃ u, encodeStage s = .ok u ∧ t = u.complete := by
  rw [exec_eq] at h; cases h
  rcases stage_cases .encode s with ⟨u, hh⟩ | ⟨e, -, hne, hh, -⟩ | ⟨hc, -⟩
  · exact ⟨u, hh, by rw [hh]; rfl⟩
  · rw [hh] at hok; exact absurd (completedStatus_injective hok) hne
  · cases hc

/-- No node outweighs the root (10_state.md R36). -/
theorem tree_le_root {s : State} (h : TreeOk s) (j) (hj : j < s.regs.nodeCnt) :
    (s.nodeAt j).freq ≤ (s.nodeAt s.regs.root).freq := by
  obtain ⟨h1, h2, h3, h4, h5, h6⟩ := h
  generalize hn : s.regs.nodeCnt - j = n
  induction n using Nat.strong_induction_on generalizing j with
  | _ n ih =>
    by_cases hr : j = s.regs.root
    · rw [hr]
    · obtain ⟨q, hq, ⟨hl, hc⟩, -⟩ := h5 j hj hr
      obtain ⟨a, b, -, d⟩ := h4 q hq hl
      have := ih (s.regs.nodeCnt - q) (by rcases hc with hc | hc <;> omega) q hq rfl
      rcases hc with hc | hc <;> rw [hc] at d <;> omega

/-- A path of a tree is shorter than the number of its leaves. -/
theorem HTree.path_lt_leaves (t : HTree) : ∀ x ∈ t.paths, x.1.length + 1 ≤ t.paths.length := by
  induction t with
  | leaf j => simp [HTree.paths]
  | node j l r ihl ihr =>
    have pos : ∀ u : HTree, 0 < u.paths.length := by
      intro u
      induction u with
      | leaf j => simp [HTree.paths]
      | node j l r ihl ihr => simp [HTree.paths]; omega
    intro x hx
    simp only [HTree.paths, List.mem_append, List.mem_map, List.length_append, List.length_map] at hx ⊢
    have pl := pos l
    have pr := pos r
    rcases hx with ⟨y, hy, rfl⟩ | ⟨y, hy, rfl⟩
    · have := ihl y hy; simp; omega
    · have := ihr y hy; simp; omega

/-- The entries of a traversal are well-formed and fit. -/
theorem gentabLoop_fit {s : State} {n w w'} (h : gentabLoop s n w = .ok w')
    (hs : ∀ x ∈ w.stk, x.pat < 2 ^ x.len)
    (ht : ∀ e ∈ w.table, e.pat < 2 ^ e.len ∧ codeTooLong s.cfg e.len = false) :
   ∀ e ∈ w'.table, e.pat < 2 ^ e.len ∧ codeTooLong s.cfg e.len = false := by
  induction n generalizing w with
  | zero =>
    unfold gentabLoop at h
    split at h
    · cases h; exact ht
    · cases h
  | succ n ih =>
    unfold gentabLoop at h
    split at h
    · cases h; exact ht
    · next top rest hst =>
      simp only at h
      split at h
      · next w1 h1 =>
        have htop := hs top (by rw [hst]; simp)
        have hrest : ∀ x ∈ rest, x.pat < 2 ^ x.len := fun x hx => hs x (by rw [hst]; simp [hx])
        unfold gentabPass at h1
        simp only at h1
        split_ifs at h1 with h2 h3 h4
        · cases h1
          refine ih h hrest ?_
          intro e he
          rcases List.mem_append.1 he with he | he
          · exact ht e he
          · rw [List.mem_singleton] at he; subst he
            exact ⟨htop, by simpa using h4⟩
        · cases h1
          refine ih h ?_ ht
          intro x hx
          simp only [List.mem_cons] at hx
          rcases hx with rfl | rfl | hx
          · simp only [pow_succ]; omega
          · simp only [pow_succ]; omega
          · exact hrest x hx
      · cases h

/-- A code that is not too long fits the fields of `CT`. -/
theorem fit_of_codeTooLong {p : Params} {e : Entry} (h : e.pat < 2 ^ e.len ∧ codeTooLong p e.len = false) :
    fits p.lMax e.pat = true ∧ fits (lenWidth p) e.len = true := by
  obtain ⟨h1, h2⟩ := h
  unfold codeTooLong at h2
  rw [Bool.or_eq_false_iff] at h2
  refine ⟨?_, by simpa using h2.2⟩
  cases hl : p.lMax with
  | none => rfl
  | some l =>
    simp [exceeds, hl] at h2
    simp [fits]
    exact lt_of_lt_of_le h1 (Nat.pow_le_pow_right (by decide) h2.1)

/-- Every code the decoder can emit has a bit (44_unpack.md R219). -/
theorem length_le_flatMap_code (table : List Entry) (es : List Entry) (h : ∀ e ∈ es, emits table e) :
    es.length ≤ (es.flatMap Entry.code).length := by
  rw [flatMap_code_length]
  induction es with
  | nil => simp
  | cons e es ih =>
    have := (h e (by simp)).1
    have := ih fun x hx => h x (by simp [hx])
    simp only [List.length_cons, lensOf_cons]; omega

/-- The decoder on a concatenation of codes it can emit (44_unpack.md R221). -/
theorem unpackStage_codes {s : State} {es : List Entry} (hb : exceeds s.cfg.bMax s.regs.bufLen = false)
    (hk : exceeds s.cfg.kMax s.regs.ctLen = false) (h8 : s.regs.bitLen ≤ 8 * s.regs.bufLen)
    (hes : ∀ e ∈ es, emits s.ctList e) (hcat : es.flatMap Entry.code = s.streamBits)
    (hn : exceeds s.cfg.nMax es.length = false) : unpackStage s = .ok (s.start.writeOut (es.map Entry.sym)) := by
  have hl : lensOf es = s.regs.bitLen := by rw [← flatMap_code_length, hcat, streamBits_length]
  have h := unpackLoop_codes (s := s.start) es hes Internal.empty.unpack
    (by simp only [start_regs]; rw [hl]; simpa [Internal.empty] using h8) ⟨rfl, rfl⟩ rfl
    (by rw [hcat]; exact List.prefix_refl s.streamBits) 0
  rw [unpackStage_eq, hb, hk, ← hl]
  simp only [Bool.or_self, Bool.false_eq_true, if_false]
  rw [Nat.add_zero] at h
  have h0 : Internal.empty.unpack.out + es.length = es.length := by simp [Internal.empty]
  rw [h, h0]
  simp only [start_cfg, hn, Bool.false_eq_true, and_false, if_false]
  simp [unpackLoop, afterCodes, Internal.empty]

/-- A stream within `8 * B_MAX` bits fits `B_MAX` bytes. -/
theorem bMax_ok {p : Params} {n : Nat} (h : streamTooLong p n = false) : exceeds p.bMax (ceil8 n) = false := by
  unfold streamTooLong at h; unfold exceeds ceil8
  cases hb : p.bMax with
  | none => rfl
  | some b => simp [hb] at h ⊢; omega

/-- The entry found for a symbol is that symbol's. -/
theorem entryOf_sym {table : List Entry} {c e} (h : entryOf table c = some e) : e.sym = c := by
  have := List.find?_some h
  simpa using this

/-- The entries found for a sequence carry its symbols. -/
theorem map_entryOf_sym {table : List Entry} {cs : List Word} {es : List Entry}
    (h : cs.map (entryOf table) = es.map some) : es.map Entry.sym = cs := by
  induction cs generalizing es with
  | nil => cases es with
    | nil => rfl
    | cons e es => simp at h
  | cons c cs ih =>
    cases es with
    | nil => simp at h
    | cons e es =>
      simp only [List.map_cons, List.cons.injEq] at h
      rw [List.map_cons, entryOf_sym h.1, ih h.2]

/-- What a successful `ENCODE` from `s` leaves in `t`, before completion: `l` its table, `es` the entries of the
symbols of `s`. -/
structure Encoded (s t : State) (l es : List Entry) : Prop where
  table : t.ctList = l
  freqs : t.flList = freqList s.symList
  found : s.symList.map (entryOf l) = es.map some
  mem : ∀ e ∈ es, e ∈ l
  pos : ∀ e ∈ l, 1 ≤ e.len
  valid : tableValid s.cfg l
  stream : t.streamBits = es.flatMap Entry.code
  bitLen : t.regs.bitLen = lensOf es
  bufLen : t.regs.bufLen = ceil8 (lensOf es)
  symFits : exceeds s.cfg.nMax s.regs.symLen = false
  tableFits : exceeds s.cfg.kMax l.length = false
  streamFits : streamTooLong s.cfg (lensOf es) = false
  cfg : t.cfg = s.cfg
  symLen : s.regs.symLen ≠ 0
  ctLen : t.regs.ctLen = l.length
  len : l.length = (freqList s.symList).length
  cover : (l.map Entry.sym).Perm ((freqList s.symList).map Symbol.cp)
  syms : t.symList = s.symList
  nodeCnt : t.regs.nodeCnt = 2 * (freqList s.symList).length - 1

/-- A successful `ENCODE`, in one lemma. -/
theorem encodeStage_encoded {s u : State} (h : encodeStage s = .ok u) : ∃ l es : List Entry, Encoded s u l es := by
  obtain ⟨a, b, c, ha, hb, hc, hd⟩ := encodeStage_form h
  obtain ⟨l, hp⟩ := pipeline ha hb hc
  obtain ⟨es, hes, rfl, h1, h2, h3, h4⟩ := packStage_form hd
  obtain ⟨-, h5, h6, -, h7⟩ := countStage_form ha
  have fa := framed_stage (i := .count) ha
  have fb := framed_stage (i := .build) hb
  have fc := framed_stage (i := .gentab) hc
  have hcb : b.cfg = s.cfg := fb.cfg.trans fa.cfg
  have hcc : c.cfg = s.cfg := fc.cfg.trans hcb
  have hlen := flatMap_code_length es
  have hfl : c.flList = a.flList := by
    have r1 : c.regs.flLen = a.regs.flLen :=
      (fc.regs .flLen (by simp [writeRegs])).trans (fb.regs .flLen (by simp [writeRegs]))
    have m1 : c.mem.fl = a.mem.fl := (fc.mem .fl (by simp [writeSpaces])).trans (fb.mem .fl (by simp [writeSpaces]))
    have : ∀ j, c.flAt j = a.flAt j := fun j => by simp only [State.flAt, m1, hcc, fa.cfg]
    unfold State.flList; rw [r1]; exact List.map_congr_left fun j _ => this j
  have hes' : s.symList.map (entryOf l) = es.map some := by rw [← hp.syms, ← hp.table]; exact hes
  refine ⟨l, es, ⟨?_, ?_, hes', ?_, ?_, ?_, ?_, rfl, rfl, h5, ?_, ?_, hcc, h6, ?_, hp.len, hp.cover, ?_, ?_⟩⟩
  · exact hp.table
  · exact hfl.trans hp.flList
  · intro e he
    have : some e ∈ s.symList.map (entryOf l) := by rw [hes']; exact List.mem_map_of_mem he
    obtain ⟨c, -, hc⟩ := List.mem_map.1 this
    exact List.mem_of_find?_eq_some hc
  · intro e he; exact (hp.tableOk.wf e he).2.1
  · rw [← hcb]; exact tableValid_of_ok hp.tableOk
  · exact streamBits_writeStream c.start _ hlen
  · rw [hp.len]; exact h7
  · rw [← hcc]; exact h1
  · show c.regs.ctLen = _; rw [← ctList_length, hp.table]
  · exact hp.syms
  · obtain ⟨nl, rfl, -, hnl, -⟩ := buildStage_form hb
    show c.regs.nodeCnt = _
    rw [fc.regs .nodeCnt (by simp [writeRegs]) |> fun h => (show c.regs.nodeCnt = _ from h)]
    show nl.length = _
    rw [hnl, ← flList_length, hp.flList]

end Sys2Proof.Machine
end

