-- ==== Sys2Proof/Laws/PerInstr.lean ====
section
/-! SUPPORT. Families of statements about every command as syntax, one lemma for each constructor. -/

namespace Sys2Proof.Laws.RoundTrip

/-- The decoder reads a command back from its word, and its word has no bit above the opcode field set
(30_encoding.md R91, R92). -/
def Statement (i : Instr) : Prop := decode (encode i) = .ok i ∧ zeroField (encode i) = 0

theorem count : Statement .count := by unfold Statement; decide
theorem build : Statement .build := by unfold Statement; decide
theorem gentab : Statement .gentab := by unfold Statement; decide
theorem pack : Statement .pack := by unfold Statement; decide
theorem unpack : Statement .unpack := by unfold Statement; decide
theorem chktab : Statement .chktab := by unfold Statement; decide
theorem encode : Statement .encode := by unfold Statement; decide
theorem decode : Statement .decode := by unfold Statement; decide

end Sys2Proof.Laws.RoundTrip
end

