-- ==== Sys2Proof/Tests/Slice0.lean ====
section
/-! SUPPORT. Tests. Expected values are spec/95_test_vectors.md's, named beside each test; words are written out from
30_encoding.md R91, R92. Then a witness for the hypotheses of every obligation that has any. -/

namespace Sys2Proof.Tests

open Sys2Proof Sys2Proof.Machine

/-! ## Decoding (V-CMD-1 to V-CMD-5) -/

theorem test_word_count : decode 0b00000000000000000000000000000001 = .ok .count := by decide
theorem test_word_build : decode 0b00000000000000000000000000000010 = .ok .build := by decide
theorem test_word_gentab : decode 0b00000000000000000000000000000011 = .ok .gentab := by decide
theorem test_word_pack : decode 0b00000000000000000000000000000100 = .ok .pack := by decide
theorem test_word_unpack : decode 0b00000000000000000000000000000101 = .ok .unpack := by decide
theorem test_word_chktab : decode 0b00000000000000000000000000000110 = .ok .chktab := by decide
theorem test_word_encode : decode 0b00000000000000000000000000000111 = .ok .encode := by decide
theorem test_word_decode : decode 0b00000000000000000000000000001000 = .ok .decode := by decide
theorem test_word_cleared : decode 0x00000000 = .error .clearedWord := by decide
theorem test_word_past_map : decode 0x00000009 = .error (.unassignedOpcode 0x09) := by decide
theorem test_word_zero_field : decode 0x00000101 = .error .zeroFieldSet := by decide
theorem test_word_all_ones : decode 0xFFFFFFFF = .error .zeroFieldSet := by decide

/-- The table's bits, and bits it does not give. -/
theorem test_tableWord : decodeTableWord 32 0x00000007 = some .encode ∧ decodeTableWord 8 0xFF08 = some .decode ∧
    decodeTableWord 40 0x0100000001 = none ∧ decodeTableWord 32 0x00000101 = none := by decide

/-! ## WellFormed: an ill-formed term for each check -/

/-- `FREQ_W` other than 32, and each capacity one past its bound (00_scope.md R10). -/
theorem test_params_legal : Params.default.legal = true ∧
    { Params.default with nMax := some (2 ^ 32) }.legal = false ∧
    { Params.default with kMax := some (2 ^ 31) }.legal = false ∧
    { Params.default with bMax := some (2 ^ 29) }.legal = false ∧
    { Params.default with freqW := some 31 }.legal = false := by decide

theorem test_entry_wf : Entry.wf { sym := 0x61, pat := 1, len := 1 } = true ∧
    Entry.wf { sym := 0x61, pat := 2, len := 1 } = false := by decide

theorem test_regAccess_wf : regAccessWf 32 0x24 = true ∧ regAccessWf 16 0x24 = false ∧ regAccessWf 32 0x22 = false := by
  decide

theorem test_memIndex_wf : memIndexWf { Params.default with kMax := some 4 } .nodeFreq 6 = true ∧
    memIndexWf { Params.default with kMax := some 4 } .nodeFreq 7 = false := by decide

theorem test_script_wf : scriptWf (pseudoRun .count ++ pseudoExpect) = true ∧
    scriptWf [lineCmd .count, lineRdStatus, lineRdStatus, .wait] = true ∧
    scriptWf [lineCmd .count, lineRd .flLen, .wait] = false ∧ scriptWf [lineCmd .count] = false := by decide

/-- Descending indices; a repeated index. -/
theorem test_memory_wf :
    Memory.wf { Memory.unspecified 0 with buf := { cells := [(1, 0x6E), (2, 0x8A)], gen := 0 } } = true ∧
    Memory.wf { Memory.unspecified 0 with buf := { cells := [(2, 0x6E), (1, 0x8A)], gen := 0 } } = false ∧
    Memory.wf { Memory.unspecified 0 with buf := { cells := [(1, 0x6E), (1, 0x8A)], gen := 0 } } = false := by decide

/-! ## One command, one step -/

/-- `SYM` and `SYM_LEN` of a text. -/
def input (l : List Word) (s : State) : State :=
  { s with regs := { s.regs with symLen := l.length }, mem := { s.mem with sym := .ofList 0 l } }

/-- `BUF`, `BUF_LEN` and a bit length. -/
def stream (bits : Nat) (l : List Byte) (s : State) : State :=
  { s with regs := { s.regs with bitLen := bits, bufLen := l.length }, mem := { s.mem with buf := .ofList 0 l } }

/-- The state one step after the launch of a command word. -/
def ran (w : Nat) (s : State) : State :=
  match step (s.withFetchWord 32 w) with
  | .next t => t
  | .fault _ => s
  | .refused _ => s

/-- "abracadabra". -/
def abracadabra : List Word := [0x61, 0x62, 0x72, 0x61, 0x63, 0x61, 0x64, 0x61, 0x62, 0x72, 0x61]

/-- V-GENTAB-6. -/
def abracadabraTable : List Entry :=
  [{ sym := 0x61, pat := 0, len := 1 }, { sym := 0x63, pat := 4, len := 3 }, { sym := 0x64, pat := 5, len := 3 },
    { sym := 0x62, pat := 6, len := 3 }, { sym := 0x72, pat := 7, len := 3 }]

/-- V-COUNT-8. -/
theorem test_count : (ran 1 (input abracadabra .reset)).status = 0x00000002 ∧
    (ran 1 (input abracadabra .reset)).flList =
      [⟨0x63, 1⟩, ⟨0x64, 1⟩, ⟨0x62, 2⟩, ⟨0x72, 2⟩, ⟨0x61, 5⟩] := by decide

/-- V-COUNT-1. -/
theorem test_count_empty : (ran 1 .reset).status = 0x00000012 ∧ (ran 1 .reset).regs.flLen = 0 := by decide

/-- V-BUILD-10: an unsorted list, a leaf before a merged node of the same frequency. -/
theorem test_build : (ran 2 (State.reset.writeFl [⟨0x70, 3⟩, ⟨0x71, 1⟩, ⟨0x72, 2⟩])).regs.root = 4 ∧
    (ran 2 (State.reset.writeFl [⟨0x70, 3⟩, ⟨0x71, 1⟩, ⟨0x72, 2⟩])).nodeList.drop 3 =
      [⟨false, 3, 0, 1, 2⟩, ⟨false, 6, 0, 0, 3⟩] := by decide

/-- V-BUILD-2. -/
theorem test_build_one : (ran 2 (State.reset.writeFl [⟨0x61, 4⟩])).nodeList = [⟨true, 4, 0x61, 0, 0⟩] := by decide

/-- The nodes of V-BUILD-8. -/
def mississippiNodes : List Node :=
  [⟨true, 1, 0x6D, 0, 0⟩, ⟨true, 2, 0x70, 0, 0⟩, ⟨true, 4, 0x69, 0, 0⟩, ⟨true, 4, 0x73, 0, 0⟩, ⟨false, 3, 0, 0, 1⟩,
    ⟨false, 7, 0, 4, 2⟩, ⟨false, 11, 0, 3, 5⟩]

/-- V-GENTAB-9. -/
theorem test_gentab : (ran 3 (State.reset.writeNodes mississippiNodes 6)).status = 0x00000002 ∧
    (ran 3 (State.reset.writeNodes mississippiNodes 6)).ctList =
      [⟨0x73, 0, 1⟩, ⟨0x6D, 4, 3⟩, ⟨0x70, 5, 3⟩, ⟨0x69, 3, 2⟩] := by decide

/-- V-GENTAB-1. -/
theorem test_gentab_empty : (ran 3 .reset).status = 0x00000012 := by decide

/-- V-PACK-7. -/
theorem test_pack : (ran 4 (input abracadabra (State.reset.writeCt abracadabraTable))).regs.bitLen = 23 ∧
    (ran 4 (input abracadabra (State.reset.writeCt abracadabraTable))).bufList = [0x6E, 0x8A, 0xDC] := by decide

/-- V-PACK-9. -/
theorem test_pack_missing :
    (ran 4 (input [0x61, 0x62, 0x78] (State.reset.writeCt [⟨0x61, 0, 1⟩, ⟨0x62, 1, 1⟩]))).status = 0x00000022 := by
  decide

/-- V-UNPACK-6. -/
theorem test_unpack : (ran 5 (stream 16 [0x6E, 0x8A] (State.reset.writeCt abracadabraTable))).outList =
    [0x61, 0x62, 0x72, 0x61, 0x63, 0x61, 0x64, 0x61] := by decide

/-- V-UNPACK-23: a table that is not prefix-free. -/
theorem test_unpack_truncated :
    (ran 5 (stream 2 [0x40] (State.reset.writeCt [⟨0x61, 0, 1⟩, ⟨0x62, 1, 2⟩]))).status = 0x00000032 := by decide

/-- V-CHKTAB-15. -/
theorem test_chktab : (ran 6 (State.reset.writeCt [⟨0x61, 1, 1⟩, ⟨0x62, 1, 2⟩])).status = 0x00000002 := by decide

/-- V-CHKTAB-16. -/
theorem test_chktab_prefix :
    (ran 6 (State.reset.writeCt [⟨0x61, 0xFFFE, 16⟩, ⟨0x62, 0x7FFF, 15⟩])).status = 0x00000042 := by decide

/-- V-ENC-3. -/
theorem test_encode : (ran 7 (input abracadabra .reset)).ctList = abracadabraTable ∧
    (ran 7 (input abracadabra .reset)).bufList = [0x6E, 0x8A, 0xDC] := by decide

/-- V-ENC-1. -/
theorem test_encode_empty : (ran 7 .reset).status = 0x00000012 := by decide

/-- V-DEC-1. -/
theorem test_decode :
    (ran 8 (stream 23 [0x6E, 0x8A, 0xDC] (State.reset.writeCt abracadabraTable))).outList = abracadabra := by decide

/-- V-DEC-5: `InvalidTable` before `TruncatedStream`. -/
theorem test_decode_invalid :
    (ran 8 (stream 1 [] (State.reset.writeCt [⟨0x61, 0, 1⟩, ⟨0x62, 0, 1⟩]))).status = 0x00000042 := by decide

/-- V-CMD-3. -/
theorem test_illegal : (ran 9 .reset).status = 0x00000062 := by decide

/-- The records of V-GENTAB-6 and V-GENTAB-7 (30_encoding.md R96). -/
theorem test_record : recordBytes .bigEndian ⟨0x72, 7, 3⟩ = [0x00, 0x00, 0x00, 0x72, 0x00, 0x07, 0x03] ∧
    recordBytes .bigEndian ⟨0x100, 0xFFFE, 16⟩ = [0x00, 0x00, 0x01, 0x00, 0xFF, 0xFE, 0x10] := by decide

/-! ## Witnesses: states and operands that meet all hypotheses of an obligation together -/

/-- An idle engine and the host's moves. -/
def idle (moves : List HostMove) : State := { State.reset with inputs := moves }

/-- A running `COUNT` that the host's next move comes before. -/
def running (moves : List HostMove) : State := { State.reset.latch (.command .count) 1 with inputs := moves }

/-- Finite capacities: four symbols, four entries, codes of four bits, four bytes, frequencies of four bits. -/
def small : Params where
  nMax := some 4
  kMax := some 4
  lMax := some 4
  bMax := some 4
  freqW := some 4
  tableByteOrder := .littleEndian

/-- A state with other parameters. -/
def under (p : Params) (s : State) : State := { s with cfg := p }

theorem witness_DecodeEncodeAgree : Instr.wf .decode = true ∧ decode 0x00000008 = .ok .decode := by decide

theorem witness_TableRoundTrip : ∀ e ∈ [Entry.mk 0x61 0xFFFF 0xFF, ⟨0, 0, 0⟩], e.pat < 2 ^ 16 ∧ e.len < 2 ^ 8 := by simp

theorem witness_ResetEvent : (idle [.reset]).inputs = [.reset] ∧ engineTurn (idle [.reset]) = false ∧
    (running [.reset]).inputs = [.reset] ∧ engineTurn (running [.reset]) = false := by decide

theorem witness_LaunchLatches : ∀ w ∈ [(0x00000001 : Word), 0x00000008, 0x00000000, 0xFFFFFFFF],
    (idle [.regWrite 32 0x00 w]).inputs = [.regWrite 32 0x00 w] ∧ (idle [.regWrite 32 0x00 w]).busy = false :=
  fun _ _ => ⟨rfl, (by decide : State.reset.busy = false)⟩

theorem witness_CmdWhileBusyDropped : (running [.regWrite 32 0x00 1]).inputs = [.regWrite 32 0x00 1] ∧
    (running [.regWrite 32 0x00 1]).busy = true ∧ engineTurn (running [.regWrite 32 0x00 1]) = false := by decide

theorem witness_IllegalWordChangesOnlyStatus : decode 0x00000009 = .error (.unassignedOpcode 0x09) ∧
    engineTurn (State.reset.launch 0x00000009) = true := by
  refine ⟨by decide, ?_⟩
  have h : (State.reset.launch 0x00000009).busy = true := by decide
  unfold engineTurn
  rw [h]
  exact Bool.or_true _

theorem witness_StepRunsDecodedCommand :
    (engineTurn (State.reset.latch (.command .pack) 0) = true ∧ (State.reset.latch (.command .pack) 0).hazard = false ∧
      (State.reset.latch (.command .pack) 0).op = .command .pack) ∧
    decode 4 = .ok .pack ∧ decodeTableWord 32 4 = some .pack ∧ decodeTableWord 8 4 = some .pack := by decide

/-- A completed `COUNT` whose completion the host has not seen: the window is open. -/
def completed (moves : List HostMove) : State := { ran 1 .reset with inputs := moves }

/-- Outside the window every offset; inside it the read of `STATUS`. -/
theorem witness_RegisterReads : (∀ offset ∈ [0x00, 0x04, 0x08, 0x24, 0x28, 0xFFFFFFFC],
      (idle [.regRead 32 offset]).inputs = [.regRead 32 offset] ∧ offset % 4 = 0 ∧
        (idle [.regRead 32 offset]).busy = false ∧ (idle [.regRead 32 offset]).window = false) ∧
    (completed [.regRead 32 0x04]).inputs = [.regRead 32 0x04] ∧ (completed [.regRead 32 0x04]).busy = false ∧
    (completed [.regRead 32 0x04]).window = true := by decide

theorem witness_RegisterWrites : ∀ offset ∈ [0x04, 0x08, 0x10, 0x24, 0x28],
    (idle [.regWrite 32 offset 0xFFFFFFFF]).inputs = [.regWrite 32 offset 0xFFFFFFFF] ∧ offset % 4 = 0 ∧ offset ≠ 0 ∧
      (idle [.regWrite 32 offset 0xFFFFFFFF]).busy = false ∧ (idle [.regWrite 32 offset 0xFFFFFFFF]).window = false := by
  decide

/-- The last entry of a space, of a writable and of a read-only field. -/
theorem witness_MemoryWrites : ∀ x ∈ [(Column.ctLen, 3, true), (.buf, 3, true), (.nodeFreq, 6, false), (.out, 3, false)],
    (under small (idle [.memWrite x.1 x.2.1 0x1FF])).inputs = [.memWrite x.1 x.2.1 0x1FF] ∧
      memIndexWf (under small (idle [.memWrite x.1 x.2.1 0x1FF])).cfg x.1 x.2.1 = true ∧ hostWritable x.1 = x.2.2 ∧
      (under small (idle [.memWrite x.1 x.2.1 0x1FF])).busy = false ∧
      (under small (idle [.memWrite x.1 x.2.1 0x1FF])).window = false := by decide

/-- A free value fits its field. -/
theorem reset_fieldsFit (p : Params) (moves : List HostMove) : FieldsFit (under p (idle moves)) := by
  have h : ∀ (w : Option Nat) (v : Nat), fits w (reduceTo w v) = true := by
    intro w v
    cases w with
    | none => rfl
    | some k => exact decide_eq_true (Nat.mod_lt v (Nat.two_pow_pos k))
  exact fun i => ⟨h _ _, h _ _, h _ _, h _ _⟩

theorem witness_MemoryReads : (under small (idle [.memRead .ctPat 3])).inputs = [.memRead .ctPat 3] ∧
    memIndexWf (under small (idle [.memRead .ctPat 3])).cfg .ctPat 3 = true ∧
    (under small (idle [.memRead .ctPat 3])).busy = false ∧ (under small (idle [.memRead .ctPat 3])).window = false ∧
    FieldsFit (under small (idle [.memRead .ctPat 3])) :=
  ⟨rfl, by decide, by decide, rfl, reset_fieldsFit small _⟩

theorem witness_UndefinedAccessRefused :
    hostMove (.regRead 16 0x04) .reset = .refused (.regAccess 16 0x04) ∧
    hostMove (.regWrite 32 0x02 0) .reset = .refused (.regAccess 32 0x02) ∧
    hostMove (.memRead .nodeLeft 7) (under small .reset) = .refused (.memIndex .nodeLeft 7) ∧
    hostMove (.memWrite .sym 4 0) (under small .reset) = .refused (.memIndex .sym 4) := ⟨rfl, rfl, rfl, rfl⟩

theorem running_inv (moves : List HostMove) : EngineInv (running moves) := by
  have h : EngineInv (running []) := by
    refine ⟨by decide, ⟨by decide, by decide, by decide⟩, ?_, fun _ => rfl, fun h => ?_, fun _ _ => ⟨by decide, by decide⟩⟩
    · unfold drawsPast; decide
    · cases h
  exact h

theorem witness_StatusReadWhileBusy : EngineInv (running [.regRead 32 0x04]) ∧
    (running [.regRead 32 0x04]).busy = true ∧ (running [.regRead 32 0x04]).hazard = false ∧
    engineTurn (running [.regRead 32 0x04]) = false ∧ (running [.regRead 32 0x04]).inputs = [.regRead 32 0x04] :=
  ⟨running_inv _, by decide, rfl, by decide, rfl⟩

theorem witness_EngineAlwaysCompletes : engineTurn (running []) = true ∧
    engineTurn { running [] with hazard := true } = true := by decide

/-- While `COUNT` runs and after its completion: registers and fields `COUNT` touches and others, `STATUS`, a reserved
offset. -/
theorem witness_HazardTouchesOnly :
    ∀ m ∈ [HostMove.regWrite 32 0x04 0x62, .regRead 32 0x08, .regWrite 32 0x24 7, .regRead 32 0xFFFFFFFC, .regRead 32 0x00,
        .memRead .sym 0, .memWrite .buf 3 0xFF],
      m.allowedInWindow = false ∧ m.defined small = true ∧
      (let s := under small (running [m]);
        s.inputs = [m] ∧ engineTurn s = false ∧ s.window = true ∧ s.busy = true) ∧
      (let s := under small (completed [m]);
        s.inputs = [m] ∧ engineTurn s = false ∧ s.window = true ∧ s.busy = false) := by decide

theorem witness_WaitEnds : (running [.wait]).busy = true ∧ (running [.wait]).inputs = [.wait] := by decide

theorem witness_RunLineRunsCommand : ∀ i ∈ [Instr.count, .encode], (idle (pseudoRun i)).busy = false ∧
    (idle (pseudoRun i)).inputs = pseudoRun i ++ [] := by decide

theorem witness_SymsLineLoads : ∀ vs ∈ [[], [(0x61 : Word), 0, 0xFFFFFFFF, 0x61]],
    (under small (idle (pseudoSyms vs))).busy = false ∧ (under small (idle (pseudoSyms vs))).window = false ∧
      vs.length < 2 ^ 32 ∧ exceeds small.nMax vs.length = false ∧
      (under small (idle (pseudoSyms vs))).inputs = pseudoSyms vs ++ [] := by decide

/-- A tree of `BUILD`. -/
def mississippiTree : State := State.reset.writeNodes mississippiNodes 6

theorem mississippi_tree : TreeOk mississippiTree :=
  ⟨by decide, by decide, by decide, by decide, by decide, by decide⟩

theorem mississippi_tree_unbounded : TreeOk (under .unbounded mississippiTree) :=
  ⟨by decide, by decide, by decide, by decide, by decide, by decide⟩

theorem reset_tree : TreeInv .reset := fun h => absurd h (by decide)

/-- A tree, and a `NODE` that holds none: `ROOT` is no node. -/
theorem witness_KindsReported : noCapacity (under .unbounded mississippiTree).cfg ∧
    noCapacity (under .unbounded (State.reset.writeNodes mississippiNodes 7)).cfg := by decide

theorem witness_ErrorEntry : (∀ i ∈ [Instr.count, .build, .gentab, .pack, .encode],
      ∃ t, exec i .reset = .next t ∧ t.endsWith .emptyInput ∧ ErrKind.emptyInput ≠ .ok) ∧
    (State.reset.latch .illegal 0).op = .illegal ∧ (State.reset.latch .illegal 0).hazard = false ∧
    engineTurn (State.reset.latch .illegal 0) = true := by
  refine ⟨fun i hi => ?_, rfl, rfl, by decide⟩
  simp only [List.mem_cons, List.not_mem_nil, or_false] at hi
  rcases hi with rfl | rfl | rfl | rfl | rfl <;> exact ⟨_, rfl, by decide, by decide⟩

/-- Two states that differ outside the read set of `COUNT`. -/
theorem witness_ResultDependsOnReadSet :
    let s := input abracadabra .reset
    let s' := { s with status := 0x62, regs := { s.regs with outLen := 7 } }
    s.cfg = s'.cfg ∧ s ≠ s' ∧ TreeInv s ∧ TreeInv s' ∧ agreeOnReads .count s s' ∧
      (∃ t, exec .count s = .next t) ∧ ∃ t', exec .count s' = .next t' := by
  refine ⟨rfl, fun h => ?_, fun h => absurd h (by decide), fun h => absurd h (by decide), ⟨fun r hr => ?_, fun sp hsp => ?_⟩,
    ⟨_, rfl⟩, ⟨_, rfl⟩⟩
  · exact absurd (congrArg (fun s => s.regs.outLen) h) (by decide)
  · simp only [readRegs, List.mem_singleton] at hr
    subst hr; rfl
  · simp only [readSpaces, List.mem_singleton] at hsp
    subst hsp; rfl

theorem witness_CapacitiesOnlyRefuse :
    let s := input abracadabra .reset
    let s' := under .unbounded s
    noCapacity s'.cfg ∧ TreeInv s ∧ TreeInv s' ∧ agreeOnReads .encode s s' ∧
      (∃ t, exec .encode s = .next t ∧ t.endsWith .ok) ∧ ∃ t', exec .encode s' = .next t' := by
  refine ⟨by decide, fun h => absurd h (by decide), fun h => absurd h (by decide), ⟨fun r hr => ?_, fun sp hsp => ?_⟩,
    ⟨_, rfl, by decide⟩, ⟨_, rfl⟩⟩
  · simp only [readRegs, List.mem_singleton] at hr
    subst hr; rfl
  · simp only [readSpaces, List.mem_singleton] at hsp
    subst hsp; exact (by decide : (input abracadabra .reset).symList = (under .unbounded (input abracadabra .reset)).symList)

/-- Every capacity just met. -/
theorem witness_CountResult :
    let s := under small (input [0x61, 0x62, 0x63, 0x64] .reset)
    0 < s.regs.symLen ∧ exceeds s.cfg.nMax s.regs.symLen = false ∧
      (∀ c ∈ s.symList, fits s.cfg.freqW (s.symList.count c) = true) ∧
      exceeds s.cfg.kMax s.symList.dedup.length = false := by
  have e : (under small (input [0x61, 0x62, 0x63, 0x64] .reset)).symList = [0x61, 0x62, 0x63, 0x64] := by decide
  have hn : List.Nodup [(0x61 : Word), 0x62, 0x63, 0x64] := by simp
  refine ⟨by decide, by decide, ?_, ?_⟩
  · rw [e]
    simp [fits]
    rfl
  · rw [e, hn.dedup]; decide

theorem witness_CountErrors :
    exceeds small.nMax (under small (input [0, 1, 2, 3, 4] .reset)).regs.symLen = true ∧
    (exceeds small.nMax (under small .reset).regs.symLen = false ∧ (under small .reset).regs.symLen = 0) ∧
    (let s := under { small with freqW := some 1 } (input [0x61, 0x61] .reset);
      exceeds s.cfg.nMax s.regs.symLen = false ∧ s.regs.symLen ≠ 0 ∧
        ∃ c ∈ s.symList, fits s.cfg.freqW (s.symList.count c) = false) ∧
    (let s := under { small with kMax := some 1 } (input [0x61, 0x62] .reset);
      exceeds s.cfg.nMax s.regs.symLen = false ∧ s.regs.symLen ≠ 0 ∧
        exceeds s.cfg.kMax s.symList.dedup.length = true) := by
  have e : (under { small with kMax := some 1 } (input [0x61, 0x62] .reset)).symList = [0x61, 0x62] := by decide
  have hn : List.Nodup [(0x61 : Word), 0x62] := by simp
  have ea : (under { small with freqW := some 1 } (input [0x61, 0x61] .reset)).symList = [0x61, 0x61] := by decide
  refine ⟨by decide, by decide, ⟨by decide, by decide, 0x61, by rw [ea]; decide, by rw [ea]; decide⟩, by decide,
    by decide, ?_⟩
  rw [e, hn.dedup]
  decide

/-- A frequency list. -/
def frequencies (l : List Machine.Symbol) : State := under small (State.reset.writeFl l)

/-- One symbol; and a sum that just fits. -/
theorem witness_BuildMergesLowest : ∀ l ∈ [[⟨0x61, 15⟩], [⟨0x61, 14⟩, ⟨0x62, 1⟩], [⟨0x61, 3⟩, ⟨0x62, 1⟩, ⟨0x63, 2⟩, ⟨0x64, 0⟩]],
    0 < (frequencies l).regs.flLen ∧ exceeds small.kMax (frequencies l).regs.flLen = false ∧
      ((frequencies l).regs.flLen = 1 ∨ fits small.freqW ((frequencies l).flList.map Symbol.freq).sum = true) := by decide

theorem witness_BuildTwoSymbols : ∀ l ∈ [[⟨0x61, 1⟩, ⟨0x62, 1⟩], [⟨0x61, 2⟩, ⟨0x62, 1⟩]], (frequencies l).regs.flLen = 2 ∧
    exceeds small.kMax 2 = false ∧
    fits small.freqW (((frequencies l).flAt 0).freq + ((frequencies l).flAt 1).freq) = true := by decide

theorem witness_BuildErrors :
    exceeds small.kMax (frequencies [⟨0, 1⟩, ⟨1, 1⟩, ⟨2, 1⟩, ⟨3, 1⟩, ⟨4, 1⟩]).regs.flLen = true ∧
    (exceeds small.kMax (frequencies []).regs.flLen = false ∧ (frequencies []).regs.flLen = 0) ∧
    (exceeds small.kMax (frequencies [⟨0, 15⟩, ⟨1, 1⟩]).regs.flLen = false ∧
      2 ≤ (frequencies [⟨0, 15⟩, ⟨1, 1⟩]).regs.flLen ∧
      fits small.freqW ((frequencies [⟨0, 15⟩, ⟨1, 1⟩]).flList.map Symbol.freq).sum = false) := by decide

/-- The tree of V-BUILD-8. -/
def mississippiShape : HTree := .node 6 (.leaf 3) (.node 5 (.node 4 (.leaf 0) (.leaf 1)) (.leaf 2))

theorem mississippi_rep (p : Params) : mississippiShape.Rep (under p mississippiTree) := by
  have h : ∀ j < 7, j < (under p mississippiTree).regs.nodeCnt := fun _ hj => hj
  exact ⟨h 6 (by decide), rfl, rfl, rfl, ⟨h 3 (by decide), rfl⟩, h 5 (by decide), rfl, rfl, rfl,
    ⟨h 4 (by decide), rfl, rfl, rfl, ⟨h 0 (by decide), rfl⟩, h 1 (by decide), rfl⟩, h 2 (by decide), rfl⟩

/-- Every code of this tree just fits `L_MAX = 3`. -/
theorem witness_GentabWritesPaths :
    let s := under { small with lMax := some 3 } mississippiTree
    TreeOk s ∧ (s.nodeAt s.regs.root).leaf = false ∧
      ∀ bs j, walk s s.regs.root bs = some j → (s.nodeAt j).leaf = true → codeTooLong s.cfg bs.length = false := by
  refine ⟨⟨by decide, by decide, by decide, by decide, by decide, by decide⟩, rfl, fun bs j hw hj => ?_⟩
  have h := walk_paths (mississippi_rep _) hw hj
  have all : ∀ x ∈ mississippiShape.paths, codeTooLong { small with lMax := some 3 } x.1.length = false := by decide
  exact all _ h

theorem witness_GentabSingleLeaf :
    let s := under { small with lMax := some 1 } (State.reset.writeNodes [⟨true, 4, 0x61, 0, 0⟩] 0)
    TreeOk s ∧ (s.nodeAt s.regs.root).leaf = true ∧ codeTooLong s.cfg 1 = false :=
  ⟨⟨by decide, by decide, by decide, by decide, by decide, by decide⟩, by decide, by decide⟩

/-- `L_MAX = 2` is one bit too few for the tree, `L_MAX = 0` for a single leaf; and `K_MAX = 3` leaves no room for its
seven nodes. -/
theorem witness_GentabErrors : State.reset.regs.nodeCnt = 0 ∧
    (let s := under { small with lMax := some 2 } mississippiTree;
      TreeOk s ∧ (s.nodeAt s.regs.root).leaf = false ∧
        walk s s.regs.root [true, false, false] = some 0 ∧ (s.nodeAt 0).leaf = true ∧
        codeTooLong s.cfg [true, false, false].length = true) ∧
    (let s := under { small with lMax := some 0 } (State.reset.writeNodes [⟨true, 4, 0x61, 0, 0⟩] 0);
      TreeOk s ∧ (s.nodeAt s.regs.root).leaf = true ∧ codeTooLong s.cfg 1 = true) ∧
    exceeds (capacity { small with kMax := some 3 } .node) mississippiTree.regs.nodeCnt = true :=
  ⟨rfl, ⟨⟨by decide, by decide, by decide, by decide, by decide, by decide⟩, by decide, by decide, by decide, by decide⟩,
    ⟨⟨by decide, by decide, by decide, by decide, by decide, by decide⟩, by decide, by decide⟩, by decide⟩

/-- The table of V-PACK-14 beside an input. -/
def packing (p : Params) (l : List Word) : State :=
  under p (input l (State.reset.writeCt [⟨0x61, 0, 1⟩, ⟨0x62, 1, 1⟩, ⟨0x7A, 2, 2⟩]))

theorem witness_PackResult : 0 < (packing small [0x61, 0x62, 0x7A]).regs.symLen ∧
    exceeds small.nMax (packing small [0x61, 0x62, 0x7A]).regs.symLen = false ∧
    exceeds small.kMax (packing small [0x61, 0x62, 0x7A]).regs.ctLen = false ∧
    (packing small [0x61, 0x62, 0x7A]).symList.map (packing small [0x61, 0x62, 0x7A]).codeOf =
      [⟨0x61, 0, 1⟩, ⟨0x62, 1, 1⟩, ⟨0x7A, 2, 2⟩].map some ∧
    streamTooLong small ([Entry.mk 0x61 0 1, ⟨0x62, 1, 1⟩, ⟨0x7A, 2, 2⟩].map Entry.len).sum = false := by decide

theorem witness_PackErrors :
    exceeds small.nMax (packing small [0, 0, 0, 0, 0]).regs.symLen = true ∧
    exceeds (some 2) (packing small []).regs.ctLen = true ∧
    (exceeds small.nMax (packing small []).regs.symLen = false ∧
      exceeds small.kMax (packing small []).regs.ctLen = false ∧ (packing small []).regs.symLen = 0) ∧
    -- a symbol without an entry, at index 1
    (let s := packing small [0x61, 0x78];
      1 < s.regs.symLen ∧ (s.symList.take 1).map s.codeOf = [⟨0x61, 0, 1⟩].map some ∧ s.codeOf (s.symAt 1) = none ∧
        streamTooLong s.cfg ([Entry.mk 0x61 0 1].map Entry.len).sum = false) ∧
    -- `B_MAX = 0`: the first code is too long
    (let s := packing { small with bMax := some 0 } [0x61];
      0 < s.regs.symLen ∧ (s.symList.take 0).map s.codeOf = [].map some ∧ s.codeOf (s.symAt 0) = some ⟨0x61, 0, 1⟩ ∧
        streamTooLong s.cfg (([].map Entry.len).sum + 1) = true) := by decide

/-- V-UNPACK-6 as a state. -/
def unpacking (p : Params) (bits : Nat) : State :=
  under p (stream bits [0x6E, 0x8A] (State.reset.writeCt abracadabraTable))

theorem unpacking_valid (p : Params) (bits : Nat) (h : p.lMax = some 4 ∨ p.lMax = none) :
    tableValid (unpacking p bits).cfg (unpacking p bits).ctList := by
  have e : (unpacking p bits).ctList = abracadabraTable := ctList_writeCt .reset abracadabraTable
  rw [e]
  have hc : (unpacking p bits).cfg = p := rfl
  rw [hc, ← malformedTable_eq_false_iff]
  unfold malformedTable malformedEntry
  rcases h with h | h <;> rw [h] <;> decide

/-- The entries of "abracada". -/
def abracada : List Entry :=
  [⟨0x61, 0, 1⟩, ⟨0x62, 6, 3⟩, ⟨0x72, 7, 3⟩, ⟨0x61, 0, 1⟩, ⟨0x63, 4, 3⟩, ⟨0x61, 0, 1⟩, ⟨0x64, 5, 3⟩, ⟨0x61, 0, 1⟩]

theorem abracada_emits (p : Params) (bits : Nat) (h : p.lMax = some 4 ∨ p.lMax = none) :
    ∀ e ∈ abracada, emits (unpacking p bits).ctList e := by
  intro e he
  refine emits_of_valid (unpacking_valid p bits h) ?_ ?_
  · have hct : (unpacking p bits).ctList = abracadabraTable := ctList_writeCt .reset abracadabraTable
    rw [hct]
    exact (by decide : ∀ e ∈ abracada, e ∈ abracadabraTable) e he
  · exact (by decide : ∀ e ∈ abracada, 0 < e.len) e he

/-- Room for eight symbols and two bytes, just enough. -/
theorem witness_ConcatenationDecodes :
    let s := unpacking { small with nMax := some 8, kMax := some 5, bMax := some 2 } 16
    tableValid s.cfg s.ctList ∧ exceeds s.cfg.bMax s.regs.bufLen = false ∧
      exceeds s.cfg.kMax s.regs.ctLen = false ∧ s.regs.bitLen ≤ 8 * s.regs.bufLen ∧
      (∀ e ∈ abracada, emits s.ctList e) ∧ abracada.flatMap Entry.code = s.streamBits ∧
      exceeds s.cfg.nMax abracada.length = false :=
  ⟨unpacking_valid _ _ (.inl rfl), by decide, by decide, by decide, abracada_emits _ _ (.inl rfl), by decide, by decide⟩

/-- An accepted table, its last entry, and a stream of its codes that fills `BUF` and `OUT`. -/
theorem witness_ValidTableEmitsAll :
    let s := unpacking { small with nMax := some 8, kMax := some 5, bMax := some 2 } 16
    (∃ t, exec .chktab s = .next t ∧ t.endsWith .ok) ∧ s.ctList[4]? = some ⟨0x72, 7, 3⟩ ∧
      (∀ e ∈ abracada, e ∈ s.ctList ∧ 0 < e.len) ∧ abracada.flatMap Entry.code = s.streamBits ∧
      s.regs.bitLen ≤ 8 * s.regs.bufLen ∧ exceeds s.cfg.bMax s.regs.bufLen = false ∧
      exceeds s.cfg.nMax abracada.length = false :=
  ⟨⟨_, rfl, by decide⟩, by decide, by decide, by decide, by decide, by decide, by decide⟩

/-- The three ends: eight symbols decode; with `N_MAX = 7` they overflow, though bit 16 of 17 has no byte; and 17 bits
with room in `OUT` do neither. -/
theorem witness_UnpackSucceedsIff :
    (let s := unpacking { small with nMax := some 8, kMax := some 5, bMax := some 2 } 16;
      exceeds s.cfg.bMax s.regs.bufLen = false ∧ exceeds s.cfg.kMax s.regs.ctLen = false ∧ s.decodesStream) ∧
    (let s := unpacking { small with nMax := some 7, kMax := some 5, bMax := some 2 } 17;
      exceeds s.cfg.bMax s.regs.bufLen = false ∧ exceeds s.cfg.kMax s.regs.ctLen = false ∧ s.overflowsOut) ∧
    (let s := unpacking { small with nMax := none, kMax := some 5, bMax := some 2 } 17;
      exceeds s.cfg.bMax s.regs.bufLen = false ∧ exceeds s.cfg.kMax s.regs.ctLen = false ∧ ¬ s.decodesStream ∧
        ¬ s.overflowsOut) :=
  ⟨⟨by decide, by decide, by decide, abracada, abracada_emits _ _ (.inl rfl), by decide, by decide⟩,
    ⟨by decide, by decide, abracada, abracada_emits _ _ (.inl rfl), by decide, by decide, by decide⟩,
    by decide, by decide, fun h => absurd h.1 (by decide), fun ⟨_, _, _, _, h⟩ => Bool.noConfusion h⟩

/-- Each capacity passed; the third with a byte missing behind the symbols `OUT` has no room for. -/
theorem witness_UnpackCapacity :
    exceeds (some 1) (unpacking { small with bMax := some 1 } 16).regs.bufLen = true ∧
    exceeds (some 4) (unpacking small 16).regs.ctLen = true ∧
    (let s := unpacking { small with nMax := some 7, kMax := some 5 } 17;
      (abracada.map Entry.len).sum ≤ 8 * s.regs.bufLen ∧ (∀ e ∈ abracada, emits s.ctList e) ∧
        abracada.flatMap Entry.code <+: s.streamBits ∧ exceeds s.cfg.nMax abracada.length = true ∧
        ¬ s.regs.bitLen ≤ 8 * s.regs.bufLen) :=
  ⟨by decide, by decide, by decide, abracada_emits _ _ (.inl rfl), by decide, by decide, by decide⟩

theorem witness_OutLenAtMostBitLen : (∃ t, exec .unpack (unpacking small 16) = .next t) ∧
    ∃ t, exec .decode (unpacking small 16) = .next t := ⟨⟨_, rfl⟩, ⟨_, rfl⟩⟩

/-- V-UNPACK-14 against V-UNPACK-1: a padding bit set, and a byte more. -/
theorem witness_PaddingIgnored :
    let s := stream 23 [0x6E, 0x8A, 0xDC] (State.reset.writeCt abracadabraTable)
    let s' := stream 23 [0x6E, 0x8A, 0xDD, 0xFF] (State.reset.writeCt abracadabraTable)
    s.cfg = s'.cfg ∧ s.ctList = s'.ctList ∧ s.streamBits = s'.streamBits ∧ s.regs.bitLen ≤ 8 * s.regs.bufLen ∧
      s'.regs.bitLen ≤ 8 * s'.regs.bufLen ∧ exceeds s.cfg.bMax s.regs.bufLen = false ∧
      exceeds s.cfg.bMax s'.regs.bufLen = false ∧ (∃ t, exec .unpack s = .next t) ∧ ∃ t, exec .unpack s' = .next t :=
  ⟨by decide, by decide, by decide, by decide, by decide, by decide, by decide, ⟨_, rfl⟩, ⟨_, rfl⟩⟩

/-- Both verdicts (V-CHKTAB-2, V-CHKTAB-7), and a table longer than `K_MAX`. -/
theorem witness_ChktabVerdict :
    (let s := under small (State.reset.writeCt [⟨0x61, 0, 1⟩, ⟨0x62, 1, 1⟩]);
      exceeds s.cfg.kMax s.regs.ctLen = false ∧ tableValid s.cfg s.ctList) ∧
    (let s := under small (State.reset.writeCt [⟨0x61, 0, 1⟩, ⟨0x62, 1, 2⟩]);
      exceeds s.cfg.kMax s.regs.ctLen = false ∧ ¬ tableValid s.cfg s.ctList) ∧
    (let s := under { small with kMax := some 1 } (State.reset.writeCt [⟨0x61, 0, 1⟩, ⟨0x62, 1, 1⟩]);
      exceeds s.cfg.kMax s.regs.ctLen = true) :=
  ⟨⟨by decide, (malformedTable_eq_false_iff _ _).1 (by decide)⟩,
    ⟨by decide, fun h => absurd ((malformedTable_eq_false_iff _ _).2 h) (by decide)⟩, by decide⟩

theorem witness_GeneratedTableAccepted :
    let s := under small mississippiTree
    TreeInv s ∧ ∃ t, exec .gentab s = .next t ∧ t.endsWith .ok :=
  ⟨fun _ => ⟨by decide, by decide, by decide, by decide, by decide, by decide⟩, _, rfl, by decide⟩

/-- Unbounded capacities; and finite ones that an `ENCODE` keeps to. -/
theorem witness_EncodeDecodeRoundTrip :
    (noCapacity (under .unbounded (input [0x61] .reset)).cfg ∧
      1 ≤ (under .unbounded (input [0x61] .reset)).regs.symLen) ∧
    (1 ≤ (input abracadabra .reset).regs.symLen ∧
      ∃ t, exec .encode (input abracadabra .reset) = .next t ∧ ¬ t.endsWith .capacityExceeded) :=
  ⟨by decide, by decide, _, rfl, by decide⟩

/-- Two symbols with codes of one bit; one symbol with codes of 255 bits. -/
theorem witness_EncodeWithinCodeLength : ∀ x ∈ [([(0x61 : Word), 0x62], 1), ([0x61], 255)],
    let s := under { Params.unbounded with lMax := some x.2 } (input x.1 .reset)
    s.cfg.nMax = none ∧ s.cfg.kMax = none ∧ s.cfg.bMax = none ∧ s.cfg.freqW = none ∧ s.cfg.lMax = some x.2 ∧ 1 ≤ x.2 ∧
      x.2 ≤ 255 ∧ 1 ≤ s.regs.symLen ∧ s.symList.dedup.length ≤ x.2 + 1 := by decide

theorem witness_BitAccounting : ∃ t, exec .encode (input abracadabra .reset) = .next t ∧ t.endsWith .ok ∧ t.flList ≠ [] :=
  ⟨_, rfl, by decide, by decide⟩

theorem witness_EncodeIsFourStages : ∃ a b c d, exec .count (input abracadabra .reset) = .next a ∧ a.endsWith .ok ∧
    exec .build a = .next b ∧ b.endsWith .ok ∧ exec .gentab b = .next c ∧ c.endsWith .ok ∧ exec .pack c = .next d ∧
    d.endsWith .ok :=
  ⟨_, _, _, _, rfl, by decide, rfl, by decide, rfl, by decide, rfl, by decide⟩

/-- Each stage in its turn: nothing to count; frequencies 8 and 8 whose sum needs five bits; a third symbol with
`L_MAX = 1`; no byte for the stream. -/
theorem witness_EncodeFailsWithStage :
    (∃ a, exec .count .reset = .next a ∧ a.endsWith .emptyInput) ∧
    (let s := under { small with nMax := some 16 } (input (List.replicate 8 0x61 ++ List.replicate 8 0x62) .reset);
      ∃ a b, exec .count s = .next a ∧ a.endsWith .ok ∧ exec .build a = .next b ∧ b.endsWith .capacityExceeded) ∧
    (let s := under { small with lMax := some 1 } (input [0x61, 0x62, 0x63] .reset);
      ∃ a b c, exec .count s = .next a ∧ a.endsWith .ok ∧ exec .build a = .next b ∧ b.endsWith .ok ∧
        exec .gentab b = .next c ∧ c.endsWith .capacityExceeded) ∧
    (let s := under { small with bMax := some 0 } (input [0x61] .reset);
      ∃ a b c d, exec .count s = .next a ∧ a.endsWith .ok ∧ exec .build a = .next b ∧ b.endsWith .ok ∧
        exec .gentab b = .next c ∧ c.endsWith .ok ∧ exec .pack c = .next d ∧ d.endsWith .capacityExceeded) :=
  ⟨⟨_, rfl, by decide⟩, ⟨_, _, rfl, by decide, rfl, by decide⟩, ⟨_, _, _, rfl, by decide, rfl, by decide, rfl, by decide⟩,
    _, _, _, _, rfl, by decide, rfl, by decide, rfl, by decide, rfl, by decide⟩

/-- A valid table, an empty stream with a malformed table; with `BIT_LEN > 0`, a table longer than `K_MAX`, a malformed
one and a valid one, both with a buffer longer than `B_MAX`. -/
theorem witness_DecodeIsCheckedUnpack :
    (let s := unpacking { small with kMax := some 5 } 16;
      exceeds s.cfg.bMax s.regs.bufLen = false ∧ exceeds s.cfg.kMax s.regs.ctLen = false ∧ tableValid s.cfg s.ctList) ∧
    (let s := under small (stream 0 [0x40] (State.reset.writeCt [⟨0x61, 0, 1⟩, ⟨0x62, 1, 2⟩]));
      exceeds s.cfg.bMax s.regs.bufLen = false ∧ exceeds s.cfg.kMax s.regs.ctLen = false ∧ s.regs.bitLen = 0) ∧
    (let s := unpacking small 16; 0 < s.regs.bitLen ∧ exceeds s.cfg.kMax s.regs.ctLen = true) ∧
    (let s := under { small with bMax := some 0 }
        (stream 1 [0x40] (State.reset.writeCt [⟨0x61, 0, 1⟩, ⟨0x62, 1, 2⟩]));
      0 < s.regs.bitLen ∧ exceeds s.cfg.kMax s.regs.ctLen = false ∧ ¬ tableValid s.cfg s.ctList ∧
        exceeds s.cfg.bMax s.regs.bufLen = true) ∧
    (let s := unpacking { small with kMax := some 5, bMax := some 1 } 16;
      0 < s.regs.bitLen ∧ exceeds s.cfg.kMax s.regs.ctLen = false ∧ tableValid s.cfg s.ctList ∧
        exceeds s.cfg.bMax s.regs.bufLen = true) :=
  ⟨⟨by decide, by decide, unpacking_valid _ _ (.inl rfl)⟩, by decide, by decide,
    ⟨by decide, by decide, fun h => absurd ((malformedTable_eq_false_iff _ _).2 h) (by decide), by decide⟩,
    by decide, by decide, unpacking_valid _ _ (.inl rfl), by decide⟩

theorem witness_EmptyInputs : State.reset.regs.symLen = 0 ∧ State.reset.regs.bitLen = 0 := ⟨rfl, rfl⟩

theorem witness_CopiesOfOneSymbol : (input (List.replicate 4 0x61) .reset).symList = List.replicate 4 0x61 ∧
    ∃ t, exec .encode (input (List.replicate 4 0x61) .reset) = .next t ∧ t.endsWith .ok :=
  ⟨by decide, _, rfl, by decide⟩

/-- Cut to nothing, after the eighth symbol, and at the end. -/
theorem witness_CutStream : ∃ t, exec .encode (input abracadabra .reset) = .next t ∧ t.endsWith .ok ∧
    ∀ x ∈ [(0, 0), (8, 2), (11, 3)], ∃ es : List Entry, x.1 ≤ abracadabra.length ∧
      ((input abracadabra .reset).symList.take x.1).map t.codeOf = es.map some ∧
      (es.map Entry.len).sum ≤ 8 * x.2 ∧ x.2 ≤ t.regs.bufLen := by
  refine ⟨_, rfl, by decide, fun x hx => ?_⟩
  simp only [List.mem_cons, List.not_mem_nil, or_false] at hx
  rcases hx with rfl | rfl | rfl
  · exact ⟨[], by decide, by decide, by decide, by decide⟩
  · exact ⟨abracada, by decide, by decide, by decide, by decide⟩
  · exact ⟨abracada ++ [⟨0x62, 6, 3⟩, ⟨0x72, 7, 3⟩, ⟨0x61, 0, 1⟩], by decide, by decide, by decide, by decide⟩

theorem witness_StepKeepsEngineInv : EngineInv (running [.regRead 32 0x04]) ∧
    ∃ t, step (running [.regRead 32 0x04]) = .next t := ⟨running_inv _, _, rfl⟩

/-- The step that runs `BUILD`, and one that spoils nothing. -/
theorem witness_StepKeepsTree :
    (let s := (State.reset.writeFl [⟨0x61, 1⟩, ⟨0x62, 2⟩]).latch (.command .build) 0;
      hostKeepsRules s ∧ TreeInv s ∧ ∃ t, step s = .next t) ∧
    (let s := { mississippiTree with inputs := [.memRead .nodeLeft 0] };
      hostKeepsRules s ∧ TreeInv s ∧ ∃ t, step s = .next t) :=
  ⟨⟨⟨rfl, fun _ m hm => by cases hm⟩, fun h => absurd h (by decide), _, rfl⟩,
    ⟨⟨rfl, fun h => by cases h⟩, fun _ => mississippi_tree, _, rfl⟩⟩

theorem witness_StepKeepsFieldWidths : FieldsFit (under small (idle [.memWrite .ctLen 3 0x1FF])) ∧
    ∃ t, step (under small (idle [.memWrite .ctLen 3 0x1FF])) = .next t := ⟨reset_fieldsFit small _, _, rfl⟩

theorem witness_StepKeepsRegisterWidths :
    let s := under { small with freqW := some 32 } (idle [.regWrite 32 0x08 0xFFFFFFFF])
    finiteParams s.cfg ∧ RegsFit s ∧ ∃ t, step s = .next t := by
  refine ⟨⟨by decide, by decide, by decide, by decide⟩, fun r => ?_, _, rfl⟩
  cases r <;> decide

end Sys2Proof.Tests
end

section
/-! Capacities only refuse (00_scope.md R9, 60_exceptions.md R285): a command that succeeds succeeds with the same
results under capacities that bound less, `noCapacity` among them. Each stage is followed once, for two states that
agree on its read set; `ENCODE` is the four stages in turn. -/

namespace Sys2Proof.Machine

/-! ## Capacities that bound less -/

/-- Whatever passes a capacity check of `p` passes that check of `q`. -/
structure Relaxes (q p : Params) : Prop where
  nMax : ∀ {v}, exceeds p.nMax v = false → exceeds q.nMax v = false
  kMax : ∀ {v}, exceeds p.kMax v = false → exceeds q.kMax v = false
  lMax : ∀ {v}, exceeds p.lMax v = false → exceeds q.lMax v = false
  bMax : ∀ {v}, exceeds p.bMax v = false → exceeds q.bMax v = false
  freqW : ∀ {v}, fits p.freqW v = true → fits q.freqW v = true
  node : ∀ {v}, exceeds (capacity p .node) v = false → exceeds (capacity q .node) v = false
  code : ∀ {v}, codeTooLong p v = false → codeTooLong q v = false
  stream : ∀ {v}, streamTooLong p v = false → streamTooLong q v = false

theorem relaxes_of_noCapacity {q : Params} (h : noCapacity q) (p : Params) : Relaxes q p := by
  obtain ⟨hn, hk, hl, hb, hf⟩ := id h
  constructor <;> intro v _
  · rw [hn]; rfl
  · rw [hk]; rfl
  · rw [hl]; rfl
  · rw [hb]; rfl
  · rw [hf]; rfl
  · rw [capacity, hk]; rfl
  · exact codeTooLong_noCapacity h v
  · rw [streamTooLong, hb]

/-! ## Agreement on registers and spaces -/

/-- Two states agree on the named registers and on the valid entries of the named spaces. -/
def agreeOn (rs : List CountReg) (sps : List Space) (s t : State) : Prop :=
  (∀ r ∈ rs, s.regs.get r = t.regs.get r) ∧ ∀ sp ∈ sps, spaceAgrees s t sp

theorem agreeOn.mono {rs rs' : List CountReg} {sps sps' : List Space} {s t : State} (h : agreeOn rs sps s t)
    (hr : rs' ⊆ rs) (hs : sps' ⊆ sps) : agreeOn rs' sps' s t :=
  ⟨fun r hm => h.1 r (hr hm), fun sp hm => h.2 sp (hs hm)⟩

theorem spaceAgrees.symm {s t : State} {sp : Space} (h : spaceAgrees s t sp) : spaceAgrees t s sp := by
  cases sp <;> exact Eq.symm h

theorem spaceAgrees.trans {s t u : State} {sp : Space} (h : spaceAgrees s t sp) (h' : spaceAgrees t u sp) :
    spaceAgrees s u sp := by
  cases sp <;> exact Eq.trans h h'

theorem spaceAgrees_start {s t : State} {sp : Space} : spaceAgrees s.start t.start sp ↔ spaceAgrees s t sp := by
  cases sp <;> rfl

theorem spaceAgrees_complete {s t : State} {sp : Space} :
    spaceAgrees s.complete t.complete sp ↔ spaceAgrees s t sp := by
  cases sp <;> rfl

theorem agreeOn_writeFl (s t : State) (l : List Symbol) : agreeOn [.flLen] [.fl] (s.writeFl l) (t.writeFl l) := by
  simp [agreeOn, Regs.get, spaceAgrees, flList_writeFl]

theorem agreeOn_writeNodes (s t : State) (l : List Node) (n : Nat) :
    agreeOn [.nodeCnt, .root] [.node] (s.writeNodes l n) (t.writeNodes l n) := by
  simp [agreeOn, Regs.get, spaceAgrees, nodeList_writeNodes]

theorem agreeOn_writeCt (s t : State) (l : List Entry) : agreeOn [.ctLen] [.ct] (s.writeCt l) (t.writeCt l) := by
  simp [agreeOn, Regs.get, spaceAgrees, ctList_writeCt]

theorem agreeOn_writeStream (s t : State) {l : List Byte} {n : Nat} (h : l.length = ceil8 n) :
    agreeOn [.bitLen, .bufLen] [.buf] (s.writeStream l n) (t.writeStream l n) := by
  simp [agreeOn, Regs.get, spaceAgrees, bufList_writeStream _ _ _ h]

theorem agreeOn_writeOut (s t : State) (l : List Word) : agreeOn [.outLen] [.out] (s.writeOut l) (t.writeOut l) := by
  simp [agreeOn, Regs.get, spaceAgrees, outList_writeOut]

/-! ## Agreement outlives a stage -/

/-- The register that bounds the valid entries of a space (10_state.md R30 to R35). -/
def lengthReg : Space → CountReg
  | .sym => .symLen
  | .fl => .flLen
  | .node => .nodeCnt
  | .ct => .ctLen
  | .buf => .bufLen
  | .out => .outLen

theorem lengthReg_written {i : Instr} {sp : Space} (h : lengthReg sp ∈ writeRegs i) : sp ∈ writeSpaces i := by
  cases i <;> cases sp <;> revert h <;> decide

theorem spaceAgrees_of_framed {rs : List CountReg} {sps : List Space} {s t : State} {sp : Space}
    (h : Framed rs sps s t) (hr : lengthReg sp ∉ rs) (hs : sp ∉ sps) : spaceAgrees t s sp := by
  have hreg := h.regs _ hr
  have hmem := h.mem _ hs
  have hcfg := h.cfg
  cases sp <;> simp only [lengthReg, Regs.get, Memory.sameSpace] at hreg hmem <;>
    simp only [spaceAgrees, State.symList, State.flList, State.nodeList, State.ctList, State.bufList, State.outList,
      hreg] <;>
    refine List.map_congr_left fun k _ => ?_ <;>
    simp only [State.symAt, State.flAt, State.nodeAt, State.ctAt, State.bufAt, State.outAt, hmem, hcfg]

/-- What a stage does not write it leaves in agreement. -/
theorem agreeOn_after_stage {i : Instr} {rs : List CountReg} {sps : List Space} {s s' t t' : State}
    (ha : agreeOn rs sps s s') (h : stageOf i s = .ok t) (h' : stageOf i s' = .ok t')
    (hw : agreeOn (writeRegs i) (writeSpaces i) t t') :
    agreeOn (rs ++ writeRegs i) (sps ++ writeSpaces i) t t' := by
  have hf := framed_stage h
  have hf' := framed_stage h'
  refine ⟨fun r hr => ?_, fun sp hsp => ?_⟩
  · by_cases hwr : r ∈ writeRegs i
    · exact hw.1 r hwr
    · have hrs : r ∈ rs := (List.mem_append.1 hr).resolve_right hwr
      rw [hf.regs r hwr, hf'.regs r hwr, ha.1 r hrs]
  · by_cases hws : sp ∈ writeSpaces i
    · exact hw.2 sp hws
    · have hsps : sp ∈ sps := (List.mem_append.1 hsp).resolve_right hws
      have hlen : lengthReg sp ∉ writeRegs i := fun e => hws (lengthReg_written e)
      exact ((spaceAgrees_of_framed hf hlen hws).trans (ha.2 sp hsps)).trans (spaceAgrees_of_framed hf' hlen hws).symm

/-! ## Every stage keeps its success -/

/-- A success of the command's pseudocode is one under capacities that bound less, from any state that agrees on the
read set, and it writes the same. -/
def KeepsSuccess (i : Instr) : Prop :=
  ∀ {s s' t : State}, Relaxes s'.cfg s.cfg → agreeOnReads i s s' → stageOf i s = .ok t →
    ∃ t', stageOf i s' = .ok t' ∧ agreeOn (writeRegs i) (writeSpaces i) t t'

theorem keepsSuccess_count : KeepsSuccess .count := by
  intro s s' t hq ⟨hregs, hspaces⟩ h
  have hlen : s.regs.symLen = s'.regs.symLen := hregs .symLen (by decide)
  have hsym : s.symList = s'.symList := hspaces .sym (by decide)
  obtain ⟨rfl, hn, h0, hfit, hk⟩ := countStage_form h
  rw [hlen] at hn h0
  rw [hsym] at hfit hk ⊢
  have h' : countStage s' = .ok (s'.start.writeFl (freqList s'.symList)) := by
    rw [countStage_eq, hq.nMax hn, if_neg Bool.false_ne_true, if_neg h0,
      if_pos ⟨fun c hc => hq.freqW (hfit c hc), hq.kMax hk⟩]
  exact ⟨_, h', agreeOn_writeFl _ _ _⟩

theorem buildLoop_relaxed {p q : Params} (hq : Relaxes q p) {n : Nat} {w w' : BuildWork}
    (h : buildLoop p n w = .ok w') : buildLoop q n w = .ok w' := by
  induction n generalizing w with
  | zero => exact h
  | succ n ih =>
    simp only [buildLoop, buildPass] at h ⊢
    match hpq : w.pq with
    | [] | [_] => simpa only [hpq] using h
    | a :: b :: rest =>
      simp only [hpq] at h ⊢
      by_cases hf : fits p.freqW (a.freq + b.freq) = true
      · rw [if_pos hf] at h
        rw [if_pos (hq.freqW hf)]
        exact ih h
      · simp only [if_neg hf] at h
        cases h

theorem buildStage_ok_iff {s t : State} : buildStage s = .ok t ↔
    exceeds s.cfg.kMax s.regs.flLen = false ∧ s.regs.flLen ≠ 0 ∧
      ∃ w, buildLoop s.cfg s.regs.flLen (buildLeaves s.flList Internal.empty.build) = .ok w ∧
        s.start.writeNodes w.nodes (rootOf w.pq) = t := by
  unfold buildStage
  simp only [start_cfg, start_regs, start_int, start_flList]
  by_cases hk : exceeds s.cfg.kMax s.regs.flLen = true
  · simp [hk]
  by_cases h0 : s.regs.flLen = 0
  · simp only [h0] at hk ⊢
    simp [hk]
  simp only [h0, if_false]
  cases buildLoop s.cfg s.regs.flLen (buildLeaves s.flList Internal.empty.build) <;> simp [hk, h0]

theorem keepsSuccess_build : KeepsSuccess .build := by
  intro s s' t hq ⟨hregs, hspaces⟩ h
  have hlen : s.regs.flLen = s'.regs.flLen := hregs .flLen (by decide)
  have hfl : s.flList = s'.flList := hspaces .fl (by decide)
  obtain ⟨hk, h0, w, hw, rfl⟩ := buildStage_ok_iff.1 h
  rw [hlen] at hk h0
  rw [hlen, hfl] at hw
  exact ⟨_, buildStage_ok_iff.2 ⟨hq.kMax hk, h0, w, buildLoop_relaxed hq hw, rfl⟩, agreeOn_writeNodes _ _ _ _⟩

/-- Two states hold the same nodes of a tree. -/
def sameNodes (s s' : State) : Prop :=
  s.regs.nodeCnt = s'.regs.nodeCnt ∧ ∀ j < s.regs.nodeCnt, s.nodeAt j = s'.nodeAt j

theorem sameNodes_of_nodeList {s s' : State} (h : s.nodeList = s'.nodeList) : sameNodes s s' := by
  have hc : s.regs.nodeCnt = s'.regs.nodeCnt := by rw [← nodeList_length, h, nodeList_length]
  refine ⟨hc, fun j hj => ?_⟩
  rw [State.nodeList, State.nodeList, ← hc, List.map_inj_left] at h
  exact h j (List.mem_range.2 hj)

theorem gentabPass_relaxed {s s' : State} (hq : Relaxes s'.cfg s.cfg) (hn : sameNodes s s') {top : StackItem}
    {w w' : GentabWork} (h : gentabPass s top w = .ok w') : gentabPass s' top w = .ok w' := by
  obtain ⟨hc, hnode⟩ := hn
  unfold gentabPass at h ⊢
  by_cases hj : s.regs.nodeCnt ≤ top.node
  · rw [if_pos hj] at h
    cases h
  · rw [if_neg hj, hnode _ (Nat.not_le.1 hj)] at h
    rw [hc] at hj
    rw [if_neg hj]
    simp only at h ⊢
    split_ifs at h with hlf hlong
    · rw [if_pos hlf, hq.code (Bool.eq_false_of_not_eq_true hlong), if_neg Bool.false_ne_true]
      exact h
    · rw [if_neg hlf]
      exact h

theorem gentabLoop_relaxed {s s' : State} (hq : Relaxes s'.cfg s.cfg) (hn : sameNodes s s') {n : Nat}
    {w w' : GentabWork} (h : gentabLoop s n w = .ok w') : gentabLoop s' n w = .ok w' := by
  induction n generalizing w with
  | zero => unfold gentabLoop at h ⊢; exact h
  | succ n ih =>
    unfold gentabLoop at h ⊢
    match hs : w.stk with
    | [] => simpa only [hs] using h
    | top :: rest =>
      simp only [hs] at h ⊢
      cases hp : gentabPass s top { w with stk := rest } with
      | error e => simp only [hp] at h; cases h
      | ok w1 =>
        simp only [hp] at h
        rw [gentabPass_relaxed hq hn hp]
        exact ih h

theorem keepsSuccess_gentab : KeepsSuccess .gentab := by
  intro s s' t hq ⟨hregs, hspaces⟩ h
  have hroot : s.regs.root = s'.regs.root := hregs .root (by decide)
  have hnodes : sameNodes s s' := sameNodes_of_nodeList (hspaces .node (by decide))
  obtain ⟨hc, hnode⟩ := id hnodes
  simp only [stageOf, gentabStage_def] at h ⊢
  rw [hc] at h hnode
  rw [hroot] at h
  split_ifs at h with h0 hcap hr hlf hlong
  all_goals
    have hcap' := hq.node (Bool.eq_false_of_not_eq_true hcap)
    rw [hnode _ (Nat.not_le.1 hr)] at hlf
    simp only [h0, hcap', hr, hlf, Bool.false_eq_true, if_false, if_true]
  · rw [hnode _ (Nat.not_le.1 hr)] at h
    cases h
    simp only [hq.code (Bool.eq_false_of_not_eq_true hlong), Bool.false_eq_true, if_false]
    exact ⟨_, rfl, agreeOn_writeCt _ _ _⟩
  · split at h
    · cases h
    · next w hl =>
      cases h
      rw [gentabLoop_relaxed (s := s.start) (s' := s'.start) hq hnodes hl]
      exact ⟨_, rfl, agreeOn_writeCt _ _ _⟩

theorem keepsSuccess_pack : KeepsSuccess .pack := by
  intro s s' t hq ⟨hregs, hspaces⟩ h
  have hlen : s.regs.symLen = s'.regs.symLen := hregs .symLen (by decide)
  have hctl : s.regs.ctLen = s'.regs.ctLen := hregs .ctLen (by decide)
  have hsym : s.symList = s'.symList := hspaces .sym (by decide)
  have hct : s.ctList = s'.ctList := hspaces .ct (by decide)
  obtain ⟨es, hes, rfl, hb, hn, hk, h0⟩ := packStage_form h
  rw [hlen] at hn h0
  rw [hctl] at hk
  rw [hsym, hct] at hes
  have h' : packStage s' = .ok (s'.start.writeStream (packBytes (es.flatMap Entry.code)) (lensOf es)) := by
    rw [packStage_eq, packLoop_found _ _ _ es _ hes (streamTooLong_zero _)]
    simp [hq.nMax hn, hq.kMax hk, h0, hq.stream hb, Internal.empty]
  exact ⟨_, h', agreeOn_writeStream _ _ (by rw [packBytes_length, flatMap_code_length])⟩

theorem streamBits_congr {s s' : State} (hbit : s.regs.bitLen = s'.regs.bitLen) (hbuf : s.bufList = s'.bufList)
    (h8 : s.regs.bitLen ≤ 8 * s.regs.bufLen) : s.streamBits = s'.streamBits := by
  have hl : s.regs.bufLen = s'.regs.bufLen := by rw [← bufList_length, hbuf, bufList_length]
  rw [State.bufList, State.bufList, ← hl, List.map_inj_left] at hbuf
  rw [State.streamBits, State.streamBits, ← hbit, List.map_inj_left]
  intro q hq
  have hq := List.mem_range.1 hq
  rw [State.streamBit, State.streamBit, hbuf (q / 8) (List.mem_range.2 (by omega))]

/-- Every symbol of a stream that decodes had room in `OUT` (44_unpack.md R228). -/
theorem unpackStage_room {s t : State} {es : List Entry} (h : unpackStage s = .ok t) (hes : ∀ e ∈ es, emits s.ctList e)
    (hcat : es.flatMap Entry.code = s.streamBits) (h8 : s.regs.bitLen ≤ 8 * s.regs.bufLen) :
    exceeds s.cfg.nMax es.length = false ∨ es = [] := by
  by_contra hno
  rw [not_or, Bool.not_eq_false] at hno
  obtain ⟨hx, hne⟩ := hno
  have hl : lensOf es = s.regs.bitLen := by rw [← flatMap_code_length, hcat, streamBits_length]
  have hloop := unpackLoop_codes (s := s.start) es hes Internal.empty.unpack
    (by simpa [Internal.empty, hl] using h8) ⟨rfl, rfl⟩ rfl (by rw [hcat]; exact List.prefix_refl s.streamBits) 0
  rw [if_pos ⟨hne, by simpa [Internal.empty] using hx⟩, Nat.add_zero, hl] at hloop
  rw [unpackStage_eq, hloop] at h
  split_ifs at h

theorem keepsSuccess_unpack : KeepsSuccess .unpack := by
  intro s s' t hq ⟨hregs, hspaces⟩ h
  have hbit : s.regs.bitLen = s'.regs.bitLen := hregs .bitLen (by decide)
  have hbl : s.regs.bufLen = s'.regs.bufLen := hregs .bufLen (by decide)
  have hctl : s.regs.ctLen = s'.regs.ctLen := hregs .ctLen (by decide)
  have hct : s.ctList = s'.ctList := hspaces .ct (by decide)
  obtain ⟨es, hes, hcat, rfl, h8, hb, hk⟩ := unpackStage_form h
  have hroom : exceeds s'.cfg.nMax es.length = false := by
    rcases unpackStage_room h hes hcat h8 with hn | rfl
    · exact hq.nMax hn
    · cases hn : s'.cfg.nMax <;> simp [exceeds]
  rw [streamBits_congr hbit (hspaces .buf (by decide)) h8] at hcat
  rw [hct] at hes
  rw [hbit, hbl] at h8
  rw [hbl] at hb
  rw [hctl] at hk
  exact ⟨_, unpackStage_codes (hq.bMax hb) (hq.kMax hk) h8 hes hcat hroom, agreeOn_writeOut _ _ _⟩

theorem tableValid_relaxed {p q : Params} (hq : Relaxes q p) {table : List Entry} (h : tableValid p table) :
    tableValid q table :=
  ⟨fun e he => ⟨hq.lMax (h.1 e he).1, (h.1 e he).2⟩, h.2⟩

theorem chktabStage_of_valid {s : State} (hk : exceeds s.cfg.kMax s.regs.ctLen = false)
    (hv : tableValid s.cfg s.ctList) : chktabStage s = .ok s.start := by
  simp [chktabStage_eq, hk, (malformedTable_eq_false_iff _ _).2 hv]

theorem keepsSuccess_chktab : KeepsSuccess .chktab := by
  intro s s' t hq ⟨hregs, hspaces⟩ h
  have hlen : s.regs.ctLen = s'.regs.ctLen := hregs .ctLen (by decide)
  have hct : s.ctList = s'.ctList := hspaces .ct (by decide)
  obtain ⟨rfl, hv, hk⟩ := chktabStage_form h
  rw [hlen] at hk
  rw [hct] at hv
  have h' := chktabStage_of_valid (hq.kMax hk) (tableValid_relaxed hq hv)
  exact ⟨_, h', by simp [agreeOn, writeRegs, writeSpaces]⟩

/-- With a table `CHKTAB` accepts, `DECODE` is `UNPACK` (46_encode_decode.md R258). -/
theorem decodeStage_of_valid {s : State} (h0 : s.regs.bitLen ≠ 0) (hk : exceeds s.cfg.kMax s.regs.ctLen = false)
    (hv : tableValid s.cfg s.ctList) : decodeStage s = unpackStage s.start := by
  rw [decodeStage, if_neg h0, chktabStage_of_valid hk hv, thenStage]

theorem keepsSuccess_decode : KeepsSuccess .decode := by
  intro s s' t hq ha h
  obtain ⟨hregs, hspaces⟩ := id ha
  have hbit : s.regs.bitLen = s'.regs.bitLen := hregs .bitLen (by decide)
  rcases decodeStage_form h with ⟨h0, rfl⟩ | ⟨h0, hv, hu⟩ <;> rw [hbit] at h0
  · have h' : decodeStage s' = .ok (s'.writeOut []) := if_pos h0
    exact ⟨_, h', agreeOn_writeOut _ _ _⟩
  · have hstart : agreeOnReads .unpack s.start s'.start :=
      ⟨hregs, fun sp hsp => spaceAgrees_start.2 (hspaces sp hsp)⟩
    obtain ⟨t', h', hw⟩ := keepsSuccess_unpack (s := s.start) (s' := s'.start) hq hstart hu
    obtain ⟨-, -, -, -, -, -, hk⟩ := unpackStage_form h'
    have hct : s.ctList = s'.ctList := hspaces .ct (by decide)
    rw [hct] at hv
    exact ⟨t', (decodeStage_of_valid h0 hk (tableValid_relaxed hq hv)).trans h', hw⟩

/-- One stage after another, from states that agree on what the stage reads. -/
theorem KeepsSuccess.extend {i : Instr} (hi : KeepsSuccess i) {rs : List CountReg} {sps : List Space}
    {s s' t : State} (hq : Relaxes s'.cfg s.cfg) (ha : agreeOn rs sps s s') (hr : readRegs i ⊆ rs)
    (hs : readSpaces i ⊆ sps) (h : stageOf i s = .ok t) :
    ∃ t', stageOf i s' = .ok t' ∧ Relaxes t'.cfg t.cfg ∧ agreeOn (rs ++ writeRegs i) (sps ++ writeSpaces i) t t' := by
  obtain ⟨t', h', hw⟩ := hi hq (ha.mono hr hs) h
  refine ⟨t', h', ?_, agreeOn_after_stage ha h h' hw⟩
  rw [(framed_stage h).cfg, (framed_stage h').cfg]
  exact hq

theorem encodeStage_of_stages {s a b c t : State} (ha : countStage s = .ok a) (hb : buildStage a = .ok b)
    (hc : gentabStage b = .ok c) (ht : packStage c = .ok t) : encodeStage s = .ok t := by
  simp only [encodeStage, thenStage, ha, hb, hc, ht]

theorem keepsSuccess_encode : KeepsSuccess .encode := by
  intro s s' t hq hagree h
  obtain ⟨a, b, c, ha, hb, hc, ht⟩ := encodeStage_form h
  obtain ⟨a', ha', hqa, hwa⟩ := keepsSuccess_count.extend hq hagree (by decide) (by decide) ha
  obtain ⟨b', hb', hqb, hwb⟩ := keepsSuccess_build.extend hqa hwa (by decide) (by decide) hb
  obtain ⟨c', hc', hqc, hwc⟩ := keepsSuccess_gentab.extend hqb hwb (by decide) (by decide) hc
  obtain ⟨t', ht', -, hwt⟩ := keepsSuccess_pack.extend hqc hwc (by decide) (by decide) ht
  exact ⟨t', encodeStage_of_stages ha' hb' hc' ht', hwt.mono (by decide) (by decide)⟩

theorem keepsSuccess (i : Instr) : KeepsSuccess i := by
  cases i with
  | count => exact keepsSuccess_count
  | build => exact keepsSuccess_build
  | gentab => exact keepsSuccess_gentab
  | pack => exact keepsSuccess_pack
  | unpack => exact keepsSuccess_unpack
  | chktab => exact keepsSuccess_chktab
  | encode => exact keepsSuccess_encode
  | decode => exact keepsSuccess_decode

/-- The results of two successful commands agree when what their stages wrote agrees. -/
theorem sameResults_complete {i : Instr} {u u' : State} (h : agreeOn (writeRegs i) (writeSpaces i) u u') :
    sameResults i u.complete u'.complete :=
  ⟨rfl, h.1, fun sp hsp => spaceAgrees_complete.2 (h.2 sp hsp)⟩

/-- Settles O27: the pseudocode's success carries over to the state without capacities by `keepsSuccess`; no tree is
needed there, only where the success under capacities is read off `STATUS`. -/
theorem capacitiesOnlyRefuse : Obligations.CapacitiesOnlyRefuse := by
  intro i s s' t t' hno htree _ hagree ht hok ht'
  rw [exec_eq] at ht ht'
  cases ht
  cases ht'
  obtain ⟨u, hu⟩ := finish_ok_of_endsOk htree hok
  obtain ⟨u', hu', hw⟩ := keepsSuccess i (relaxes_of_noCapacity hno s.cfg) hagree hu
  rw [hu, hu']
  exact sameResults_complete hw

end Sys2Proof.Machine
end

section
/-! What the host sees of the registers (10_state.md R21, R23, R46): the layout of `STATUS`, the values after reset, and
the accesses of the count registers while no command runs. -/

namespace Sys2Proof.Machine

/-! ## The layout of `STATUS` -/

theorem statusWord_toNat (busy done : Bool) (err : BitVec 3) :
    (statusWord busy done err).toNat = busy.toNat + 2 * done.toNat + 16 * err.toNat := by
  revert busy done err; decide

/-- Settles O6, by `statusWord_toNat` over the values of the three fields. -/
theorem statusLayout : Obligations.StatusLayout := ⟨statusWord_toNat, rfl, rfl, rfl, rfl, rfl, rfl, rfl⟩

theorem busyFlag_zero : busyFlag 0 = false := by decide

theorem statusLegal_zero : statusLegal 0 := ⟨by decide, by decide, by decide⟩

/-! ## The register map -/

@[simp] theorem countRegAt_offsetOf (r : CountReg) : countRegAt (offsetOf r) = some r := by cases r <;> rfl

theorem offsetOf_injective {q r : CountReg} (h : offsetOf q = offsetOf r) : q = r := by
  simpa using congrArg countRegAt h

theorem countRegAt_eq_some_iff {offset : Nat} {r : CountReg} : countRegAt offset = some r ↔ offset = offsetOf r := by
  refine ⟨fun h => ?_, fun h => h ▸ countRegAt_offsetOf r⟩
  unfold countRegAt at h
  split at h <;> cases h <;> rfl

@[simp] theorem regValue_offsetOf (s : State) (r : CountReg) : regValue s (offsetOf r) = s.regs.get r := by
  cases r <;> rfl

/-- `CMD` and the reserved offsets read 0 (10_state.md R21). -/
theorem regValue_reserved (s : State) {offset : Nat} (h : offset = 0x00 ∨ 0x28 ≤ offset) : regValue s offset = 0 := by
  unfold regValue
  split <;> omega

/-- The map of the statements is the model's own. -/
theorem mem_registerMap {x : Nat × CountReg × Bool} (h : x ∈ registerMap) :
    x.1 = offsetOf x.2.1 ∧ x.2.2 = hostWritesReg x.2.1 := by
  revert x; decide

theorem offsetOf_ne_status (r : CountReg) : offsetOf r ≠ 0x04 := by cases r <;> decide

/-- A write reaches the register at its offset and no other, and that one only when it is `RW` (10_state.md R21). -/
theorem writeReg_get (s : State) (offset : Nat) (v : Word) (r : CountReg) : (s.writeReg offset v).regs.get r =
    if offset = offsetOf r ∧ hostWritesReg r = true then v.toNat else s.regs.get r := by
  unfold State.writeReg
  split
  · next hnone =>
    rw [if_neg]
    rintro ⟨rfl, -⟩
    simp at hnone
  · next q hq =>
    obtain rfl := countRegAt_eq_some_iff.1 hq
    by_cases hqr : q = r
    · subst hqr
      cases hostWritesReg q <;> simp [get_set]
    · have hother : ¬ (offsetOf q = offsetOf r ∧ hostWritesReg r = true) := fun h => hqr (offsetOf_injective h.1)
      rw [if_neg hother]
      split_ifs
      · exact get_set_other _ _ _ _ hqr
      · rfl

/-- A write touches nothing but count registers. -/
theorem writeReg_keeps (s : State) (offset : Nat) (v : Word) :
    s.writeReg offset v = { s with regs := (s.writeReg offset v).regs } := by
  unfold State.writeReg
  split
  · rfl
  · split_ifs <;> rfl

/-! ## The host's turn -/

theorem engineTurn_idle {s : State} (h : s.busy = false) : engineTurn s = false := by simp [engineTurn, h]

theorem step_host {s : State} {m : HostMove} {rest : List HostMove} (hi : s.inputs = m :: rest)
    (ht : engineTurn s = false) : step s = hostMove m { s with inputs := rest, latency := s.latency - 1 } := by
  simp [step, ht, hostTurn, hi]

theorem regAccessWf_aligned {offset : Nat} (h : offset % 4 = 0) : regAccessWf 32 offset = true := by
  simp [regAccessWf, h]

/-- Settles O13: `STATUS` closes the window; any other read is `regValue` at the register's offset, the window being
closed. -/
theorem registerReads : Obligations.RegisterReads := by
  intro s offset rest hi halign hidle hwin
  have hidle' : State.busy { s with inputs := rest, latency := s.latency - 1 } = false := hidle
  rw [step_host hi (engineTurn_idle hidle), hostMove, if_pos (regAccessWf_aligned halign), State.readRegMove]
  by_cases h4 : offset = 0x04
  · refine ⟨_, s.status.toNat, congrArg _ (if_pos h4), rfl, rfl, rfl, rfl, rfl, ?_, fun _ => rfl, fun x hx hox => ?_,
      fun h => ?_⟩
    · simp [State.readStatus, hidle']
    · exact absurd (hox.symm.trans h4) ((mem_registerMap hx).1 ▸ offsetOf_ne_status _)
    · omega
  · have hclosed : s.window = false := Bool.eq_false_iff.2 fun h => h4 (hwin h)
    refine ⟨_, regValue s offset, congrArg _ ((if_neg h4).trans (if_neg (by simp [hclosed]))), rfl, rfl, rfl, rfl, rfl,
      hclosed, fun h => absurd h h4, fun x hx hox => ?_, regValue_reserved s⟩
    rw [hox, (mem_registerMap hx).1, regValue_offsetOf]

/-- Settles O14, by `writeReg_get` at each row of the register map. -/
theorem registerWrites : Obligations.RegisterWrites := by
  intro s offset v rest hi halign h0 hidle hwin
  rw [step_host hi (engineTurn_idle hidle), hostMove, if_pos (regAccessWf_aligned halign), State.writeRegMove,
    if_neg h0, if_neg (by simp [hwin]), writeReg_keeps]
  refine ⟨_, rfl, rfl, rfl, rfl, rfl, fun x hx => ?_⟩
  obtain ⟨hoff, hrw⟩ := mem_registerMap hx
  rw [hoff, hrw]
  exact writeReg_get _ offset v x.2.1

/-! ## Reset -/

theorem zero_get (r : CountReg) : Regs.zero.get r = 0 := by cases r <;> rfl

/-- Settles O7, at each offset of the register map. -/
theorem resetValues : Obligations.ResetValues := by
  refine ⟨fun offset => ?_, by decide, zero_get, rfl⟩
  unfold regValue
  split <;> rfl

theorem fits_reduceTo (width : Option Nat) (v : Nat) : fits width (reduceTo width v) = true := by
  cases width with
  | none => rfl
  | some w => exact decide_eq_true (Nat.mod_lt v (Nat.two_pow_pos w))

theorem engineInv_reset : EngineInv State.reset := by
  refine ⟨rfl, statusLegal_zero, ?_, fun h => ?_, fun h => ?_, fun h => ?_⟩
  · unfold drawsPast; decide
  all_goals exact absurd h (by decide)

/-- A field no known value was written to holds a free value of its width. -/
theorem fieldsFit_reset : FieldsFit State.reset :=
  fun _ => ⟨fits_reduceTo _ _, fits_reduceTo _ _, fits_reduceTo _ _, fits_reduceTo _ _⟩

/-- Settles O54. After reset the tree invariant holds because `NODE_CNT` is 0. -/
theorem resetMeetsInvariants : Obligations.ResetMeetsInvariants := by
  refine ⟨engineInv_reset, fun h => absurd h (by decide), fun r => ?_, fieldsFit_reset, rfl⟩
  exact (zero_get r).trans_lt (Nat.two_pow_pos 32)

end Sys2Proof.Machine
end

section
/-! What a step does to the engine, sorted once by its effect (20_memory.md R70 to R74, 70_reset_and_hazards.md R330), and
the invariants that follow from it: the engine's, the tree's (10_state.md R36) and the widths of the count registers
(R22). -/

namespace Sys2Proof.Machine

/-! ## The effect of a host move -/

/-- The effect of the host's move `m` on the engine `u`; an access inside the hazard window is one that
70_reset_and_hazards.md R330 does not allow there. -/
inductive HostEffect (m : HostMove) (u : State) : State → Prop
  /-- the access changes nothing -/
  | none : HostEffect m u u
  /-- the move returns a value too -/
  | returned {t : State} (v : Nat) : HostEffect m u t → HostEffect m u (t.observe v)
  | readStatus : HostEffect m u u.readStatus
  | writeCmd (w : Word) : HostEffect m u (u.writeCmd w)
  | writeReg (offset : Nat) (v : Word) : HostEffect m u (u.writeReg offset v)
  | writeMem (c : Column) (i v : Nat) : HostEffect m u (u.writeMem c i v)
  | hazardReg (offset : Nat) : u.window = true → m.allowedInWindow = false → HostEffect m u (u.spoil.freeReg offset)
  | hazardField (c : Column) (i : Nat) :
      u.window = true → m.allowedInWindow = false → HostEffect m u (u.spoil.freeField c i)
  | wait : HostEffect m u u.waitMove
  | reset : HostEffect m u u.resetEvent

theorem hostMove_effect {m : HostMove} {u t : State} (h : hostMove m u = .next t) : HostEffect m u t := by
  rcases hostMove_cases h with ⟨width, offset, rfl, rfl⟩ | ⟨width, offset, v, rfl, rfl⟩ | ⟨c, i, rfl, rfl⟩ |
    ⟨c, i, v, rfl, rfl⟩ | ⟨rfl, rfl⟩ | ⟨rfl, rfl⟩
  · unfold State.readRegMove
    split_ifs with h4 hw
    · exact .readStatus
    · exact .returned _ (.hazardReg offset hw (beq_eq_false_iff_ne.2 h4))
    · exact .returned _ .none
  · unfold State.writeRegMove
    split_ifs with h0 hw
    · exact .writeCmd v
    · exact .hazardReg offset hw (beq_eq_false_iff_ne.2 h0)
    · exact .writeReg offset v
  · unfold State.readMemMove
    split_ifs with hw
    · exact .returned _ (.hazardField c i hw rfl)
    · exact .returned _ .none
  · unfold State.writeMemMove
    split_ifs with hw
    · exact .hazardField c i hw rfl
    · exact .writeMem c i v
  · exact .wait
  · exact .reset

/-! ## The operations of the host's moves, field by field -/

@[simp] theorem writeCmd_cfg (s : State) (w : Word) : (s.writeCmd w).cfg = s.cfg := by
  unfold State.writeCmd; split_ifs <;> rfl

@[simp] theorem writeCmd_regs (s : State) (w : Word) : (s.writeCmd w).regs = s.regs := by
  unfold State.writeCmd; split_ifs <;> rfl

@[simp] theorem writeCmd_mem (s : State) (w : Word) : (s.writeCmd w).mem = s.mem := by
  unfold State.writeCmd; split_ifs <;> rfl

theorem writeCmd_freeCount (s : State) (w : Word) : s.freeCount ≤ (s.writeCmd w).freeCount := by
  unfold State.writeCmd; split_ifs <;> simp

/-- A write of memory touches nothing but memory. -/
theorem writeMem_keeps (s : State) (c : Column) (i v : Nat) :
    s.writeMem c i v = { s with mem := (s.writeMem c i v).mem } := by
  unfold State.writeMem; split_ifs <;> rfl

/-- `WAIT` touches neither registers nor memory. -/
theorem waitMove_keeps (s : State) :
    s.waitMove = { s with inputs := s.waitMove.inputs, window := s.waitMove.window } := by
  unfold State.waitMove; split_ifs <;> rfl

theorem freeReg_freeCount (s : State) (offset : Nat) : (s.freeReg offset).freeCount = s.freeCount + 1 := by
  rcases freeReg_cases s offset with ⟨r, v, -, e⟩ | ⟨d, k, e⟩ | e <;> rw [e]

/-! ## The configuration -/

theorem HostEffect.cfg {m : HostMove} {u t : State} (h : HostEffect m u t) : t.cfg = u.cfg := by
  induction h with
  | none => rfl
  | returned v _ ih => exact ih
  | readStatus => rfl
  | writeCmd w => exact writeCmd_cfg u w
  | writeReg offset v => rw [writeReg_keeps]
  | writeMem c i v => rw [writeMem_keeps]
  | hazardReg offset _ _ => exact (freeReg_keeps u.spoil offset).1.trans (spoil_keeps u).1
  | hazardField c i _ _ => exact (spoil_keeps u).1
  | wait => rw [waitMove_keeps]
  | reset => rfl

theorem step_cfg {s t : State} (h : step s = .next t) : t.cfg = s.cfg := by
  rcases step_cases h with ⟨-, -, rfl⟩ | ⟨-, -, -, rfl⟩ | ⟨i, -, -, -, rfl⟩ | ⟨-, -, rfl⟩ | ⟨m, rest, -, -, hm⟩
  · rfl
  · rfl
  · exact (framed_finish i s).cfg
  · rfl
  · exact (hostMove_effect hm).cfg

/-! ## Memory is canonical and its free values are drawn -/

/-- The draw that gave the unlisted entries of a field their values. -/
def Memory.gen (m : Memory) : Column → Nat
  | .sym => m.sym.gen
  | .flCp => m.fl.cp.gen
  | .flFreq => m.fl.freq.gen
  | .nodeLeaf => m.node.leaf.gen
  | .nodeFreq => m.node.freq.gen
  | .nodeSym => m.node.sym.gen
  | .nodeLeft => m.node.left.gen
  | .nodeRight => m.node.right.gen
  | .ctSym => m.ct.sym.gen
  | .ctPat => m.ct.pat.gen
  | .ctLen => m.ct.len.gen
  | .buf => m.buf.gen
  | .out => m.out.gen

theorem drawsPast_iff (s : State) : drawsPast s ↔ ∀ c, s.mem.gen c < s.freeCount := by
  constructor
  · rintro ⟨h1, h2, h3, h4, h5, h6, h7, h8, h9, h10, h11, h12, h13⟩ c
    cases c <;> assumption
  · intro h
    exact ⟨h .sym, h .flCp, h .flFreq, h .nodeLeaf, h .nodeFreq, h .nodeSym, h .nodeLeft, h .nodeRight, h .ctSym,
      h .ctPat, h .ctLen, h .buf, h .out⟩

@[simp] theorem gen_writeField (m : Memory) (p : Params) (c d : Column) (i v : Nat) :
    (m.writeField p c i v).gen d = m.gen d := by
  cases c <;> cases d <;> rfl

theorem gen_freeSpace (m : Memory) (draw : Nat) (sp : Space) (c : Column) :
    (m.freeSpace draw sp).gen c = if spaceOf c = sp then draw else m.gen c := by
  cases sp <;> cases c <;> rfl

theorem gen_freed (m : Memory) (draw : Nat) (sps : List Space) (c : Column) :
    (m.freed draw sps).gen c = if spaceOf c ∈ sps then draw else m.gen c := by
  unfold Memory.freed
  induction sps generalizing m with
  | nil => rfl
  | cons sp sps ih =>
    rw [List.foldl_cons, ih, gen_freeSpace]
    by_cases hc : spaceOf c = sp <;> simp [hc]

theorem gen_writeFl (s : State) (l : List Symbol) (c : Column) :
    (s.writeFl l).mem.gen c = if spaceOf c ∈ [Space.fl] then s.freeCount else s.mem.gen c := by
  cases c <;> rfl

theorem gen_writeNodes (s : State) (l : List Node) (root : Nat) (c : Column) :
    (s.writeNodes l root).mem.gen c = if spaceOf c ∈ [Space.node] then s.freeCount else s.mem.gen c := by
  cases c <;> rfl

theorem gen_writeCt (s : State) (l : List Entry) (c : Column) :
    (s.writeCt l).mem.gen c = if spaceOf c ∈ [Space.ct] then s.freeCount else s.mem.gen c := by
  cases c <;> rfl

theorem gen_writeStream (s : State) (l : List Byte) (n : Nat) (c : Column) :
    (s.writeStream l n).mem.gen c = if spaceOf c ∈ [Space.buf] then s.freeCount else s.mem.gen c := by
  cases c <;> rfl

theorem gen_writeOut (s : State) (l : List Word) (c : Column) :
    (s.writeOut l).mem.gen c = if spaceOf c ∈ [Space.out] then s.freeCount else s.mem.gen c := by
  cases c <;> rfl

theorem gen_unspecified (draw : Nat) (c : Column) : (Memory.unspecified draw).gen c = draw := by cases c <;> rfl

/-- The part of the engine's invariant that speaks of memory. -/
def MemInv (s : State) : Prop := s.mem.wf = true ∧ drawsPast s

/-- A write of whole spaces by the current draw. -/
theorem memInv_of_gen {s t : State} {sps : List Space} (h : MemInv s) (hwf : t.mem.wf = true)
    (hfree : s.freeCount < t.freeCount)
    (hgen : ∀ c, t.mem.gen c = if spaceOf c ∈ sps then s.freeCount else s.mem.gen c) : MemInv t := by
  obtain ⟨-, hd⟩ := h
  rw [drawsPast_iff] at hd
  refine ⟨hwf, (drawsPast_iff t).2 fun c => ?_⟩
  rw [hgen]
  split_ifs
  · exact hfree
  · exact (hd c).trans hfree

theorem memInv_of_mem_eq {s t : State} (h : MemInv s) (hm : t.mem = s.mem) (hfree : s.freeCount ≤ t.freeCount) :
    MemInv t := by
  obtain ⟨hwf, hd⟩ := h
  rw [drawsPast_iff] at hd
  exact ⟨hm ▸ hwf, (drawsPast_iff t).2 fun c => hm ▸ (hd c).trans_le hfree⟩

theorem memInv_of_freed {s t : State} {sps : List Space} (h : MemInv s) (hm : t.mem = s.mem.freed s.freeCount sps)
    (hfree : t.freeCount = s.freeCount + 1) : MemInv t :=
  memInv_of_gen h (hm ▸ wf_freed _ _ _ h.1) (by omega) fun c => hm ▸ gen_freed _ _ _ c

theorem memInv_of_writeField {s t : State} {c : Column} {i v : Nat} (h : MemInv s)
    (hm : t.mem = s.mem.writeField s.cfg c i v) (hfree : s.freeCount ≤ t.freeCount) : MemInv t := by
  obtain ⟨hwf, hd⟩ := h
  rw [drawsPast_iff] at hd
  refine ⟨hm ▸ wf_writeField _ _ _ _ _ hwf, (drawsPast_iff t).2 fun d => ?_⟩
  rw [hm, gen_writeField]
  exact (hd d).trans_le hfree

theorem memInv_writeOut {s : State} (l : List Word) (h : MemInv s) : MemInv (s.writeOut l) :=
  memInv_of_gen h (wf_writeOut s l h.1) (Nat.lt_succ_self _) (gen_writeOut s l)

theorem memInv_stage (i : Instr) (s t : State) (h : MemInv s) (hr : stageOf i s = .ok t) : MemInv t := by
  refine stage_keeps (P := MemInv) (fun s h => h) ?_ ?_ ?_ ?_ ?_ (fun s h => memInv_writeOut [] h) i s t h hr
  · intro s t h hr
    obtain ⟨rfl, -⟩ := countStage_form hr
    exact memInv_of_gen h (wf_writeFl _ _ h.1) (Nat.lt_succ_self _) (gen_writeFl _ _)
  · intro s t h hr
    obtain ⟨l, rfl, -⟩ := buildStage_form hr
    exact memInv_of_gen h (wf_writeNodes _ _ _ h.1) (Nat.lt_succ_self _) (gen_writeNodes _ _ _)
  · intro s t h hr
    obtain ⟨l, rfl, -⟩ := gentabStage_form hr
    exact memInv_of_gen h (wf_writeCt _ _ h.1) (Nat.lt_succ_self _) (gen_writeCt _ _)
  · intro s t h hr
    obtain ⟨es, -, rfl, -⟩ := packStage_form hr
    exact memInv_of_gen h (wf_writeStream _ _ _ h.1) (Nat.lt_succ_self _) (gen_writeStream _ _ _)
  · intro s t h hr
    obtain ⟨es, -, -, rfl, -⟩ := unpackStage_form hr
    exact memInv_writeOut (s := s.start) _ h

theorem memInv_finish (i : Instr) {s : State} (h : MemInv s) : MemInv (s.finish i (stageOf i s)) := by
  rcases finish_cases i s with ⟨t, ht, e⟩ | ⟨k, -, -, -, e⟩ | ⟨-, -, -, e⟩ <;> rw [e]
  · exact memInv_stage i s t h ht
  · exact memInv_of_freed h rfl rfl
  · exact memInv_of_freed h rfl rfl

theorem memInv_spoil {s : State} (h : MemInv s) : MemInv s.spoil := by
  rcases spoil_cases s with ⟨-, e⟩ | ⟨-, k, e⟩ <;> rw [e]
  · exact memInv_of_mem_eq h rfl (Nat.le_succ _)
  · exact memInv_of_freed h rfl rfl

theorem HostEffect.memInv {m : HostMove} {u t : State} (he : HostEffect m u t) (h : MemInv u) : MemInv t := by
  induction he with
  | none => exact h
  | returned v _ ih => exact ih
  | readStatus => exact h
  | writeCmd w => exact memInv_of_mem_eq h (writeCmd_mem u w) (writeCmd_freeCount u w)
  | writeReg offset v => rw [writeReg_keeps]; exact h
  | writeMem c i v =>
    unfold State.writeMem
    split_ifs
    · exact memInv_of_writeField h rfl le_rfl
    · exact h
  | hazardReg offset _ _ =>
    obtain ⟨-, -, -, -, -, hmem, -⟩ := freeReg_keeps u.spoil offset
    exact memInv_of_mem_eq (memInv_spoil h) hmem (by rw [freeReg_freeCount]; exact Nat.le_succ _)
  | hazardField c i _ _ => exact memInv_of_writeField (memInv_spoil h) rfl (Nat.le_succ _)
  | wait => rw [waitMove_keeps]; exact h
  | reset =>
    refine ⟨rfl, (drawsPast_iff _).2 fun c => ?_⟩
    rw [resetEvent_mem, gen_unspecified]
    exact Nat.lt_succ_self _

theorem step_memInv {s t : State} (h : MemInv s) (hs : step s = .next t) : MemInv t := by
  rcases step_cases hs with ⟨-, -, rfl⟩ | ⟨-, -, -, rfl⟩ | ⟨i, -, -, -, rfl⟩ | ⟨-, -, rfl⟩ | ⟨m, rest, -, -, hm⟩
  · exact memInv_of_freed h rfl rfl
  · exact h
  · exact memInv_finish i h
  · exact h
  · exact (hostMove_effect hm).memInv h

/-! ## `STATUS`, the window and the hazard -/

/-- The part of the engine's invariant that speaks of `STATUS` and of the bookkeeping of the window. -/
structure ControlInv (s : State) : Prop where
  legal : statusLegal s.status
  window : s.busy = true → s.window = true
  hazard : s.hazard = true → s.busy = true
  running : s.busy = true → s.hazard = false → doneFlag s.status = false ∧ errField s.status = 0

theorem engineInv_iff (s : State) : EngineInv s ↔ MemInv s ∧ ControlInv s :=
  ⟨fun ⟨h1, h2, h3, h4, h5, h6⟩ => ⟨⟨h1, h3⟩, ⟨h2, h4, h5, h6⟩⟩,
    fun ⟨⟨h1, h3⟩, ⟨h2, h4, h5, h6⟩⟩ => ⟨h1, h2, h3, h4, h5, h6⟩⟩

theorem controlInv_idle {s : State} (hl : statusLegal s.status) (hb : s.busy = false) (hz : s.hazard = false) :
    ControlInv s where
  legal := hl
  window := fun h => by simp [hb] at h
  hazard := fun h => by simp [hz] at h
  running := fun h => by simp [hb] at h

/-- Once a running command is disturbed, `DONE` and `ERR` are free. -/
theorem controlInv_disturbed {s : State} (hl : statusLegal s.status) (hw : s.window = true)
    (hz : s.busy = s.hazard) : ControlInv s where
  legal := hl
  window := fun _ => hw
  hazard := fun h => hz.trans h
  running := fun hb hn => by simp [← hz, hb] at hn

theorem ControlInv.hazard_of_idle {s : State} (h : ControlInv s) (hb : s.busy = false) : s.hazard = false :=
  Bool.eq_false_iff.2 fun hz => by simp [h.hazard hz] at hb

/-- After an access inside the window a command that runs is a disturbed one. -/
theorem spoil_disturbed {s : State} (h : ControlInv s) :
    statusLegal s.spoil.status ∧ s.spoil.busy = s.spoil.hazard := by
  rcases spoil_cases s with ⟨hb, e⟩ | ⟨hb, k, e⟩ <;> rw [e]
  · exact ⟨h.legal, hb⟩
  · exact ⟨statusLegal_statusWord _ _ k, (busyFlag_statusWord _ _ _).trans (h.hazard_of_idle hb).symm⟩

theorem statusLegal_freeReg {s : State} (h : statusLegal s.status) (offset : Nat) :
    statusLegal (s.freeReg offset).status := by
  rcases freeReg_cases s offset with ⟨r, v, -, e⟩ | ⟨d, k, e⟩ | e <;> rw [e]
  · exact h
  · exact statusLegal_statusWord _ _ _
  · exact h

theorem HostEffect.controlInv {m : HostMove} {u t : State} (he : HostEffect m u t) (h : ControlInv u) :
    ControlInv t := by
  induction he with
  | none => exact h
  | returned v _ ih => exact ⟨ih.legal, ih.window, ih.hazard, ih.running⟩
  | readStatus => exact ⟨h.legal, fun hb => Bool.and_eq_true_iff.2 ⟨h.window hb, hb⟩, h.hazard, h.running⟩
  | writeCmd w =>
    unfold State.writeCmd
    split_ifs
    · exact h
    · exact ⟨statusLegal_launched, fun _ => rfl, fun hz => (Bool.false_ne_true hz).elim,
        fun _ _ => ⟨doneFlag_launched, errField_launched⟩⟩
  | writeReg offset v => rw [writeReg_keeps]; exact ⟨h.legal, h.window, h.hazard, h.running⟩
  | writeMem c i v => rw [writeMem_keeps]; exact ⟨h.legal, h.window, h.hazard, h.running⟩
  | hazardReg offset hw _ =>
    obtain ⟨hl, hz⟩ := spoil_disturbed h
    obtain ⟨-, -, -, hwin, hhaz, -, hbusy, -⟩ := freeReg_keeps u.spoil offset
    obtain ⟨-, -, -, hwin', -⟩ := spoil_keeps u
    exact controlInv_disturbed (statusLegal_freeReg hl offset) ((hwin.trans hwin').trans hw)
      (hbusy.trans (hz.trans hhaz.symm))
  | hazardField c i hw _ =>
    obtain ⟨hl, hz⟩ := spoil_disturbed h
    obtain ⟨-, -, -, hwin, -⟩ := spoil_keeps u
    exact controlInv_disturbed hl (hwin.trans hw) hz
  | wait =>
    unfold State.waitMove
    split_ifs with hb
    · exact ⟨h.legal, h.window, h.hazard, h.running⟩
    · exact controlInv_idle h.legal (Bool.eq_false_iff.2 hb) (h.hazard_of_idle (Bool.eq_false_iff.2 hb))
  | reset => exact controlInv_idle statusLegal_zero busyFlag_zero rfl

/-- Every command ends with a status of one of the kinds (70_reset_and_hazards.md R333). -/
theorem finish_ends (i : Instr) (s : State) : ∃ e, (s.finish i (stageOf i s)).endsWith e := by
  rcases finish_cases i s with ⟨t, -, e⟩ | ⟨k, -, -, -, e⟩ | ⟨-, -, -, e⟩ <;> rw [e] <;> exact ⟨_, rfl⟩

theorem controlInv_of_ends {s : State} {e : ErrKind} (h : s.endsWith e) (hz : s.hazard = false) : ControlInv s :=
  controlInv_idle (h ▸ statusLegal_completed e) (by rw [State.busy, h, busyFlag_completed]) hz

theorem step_controlInv {s t : State} (h : ControlInv s) (hs : step s = .next t) : ControlInv t := by
  rcases step_cases hs with ⟨-, -, rfl⟩ | ⟨-, hz, -, rfl⟩ | ⟨i, -, hz, -, rfl⟩ | ⟨-, -, rfl⟩ | ⟨m, rest, -, -, hm⟩
  · exact controlInv_of_ends rfl rfl
  · exact controlInv_of_ends rfl hz
  · obtain ⟨e, he⟩ := finish_ends i s
    exact controlInv_of_ends he ((framed_finish i s).hazard.trans hz)
  · exact h
  · exact (hostMove_effect hm).controlInv ⟨h.legal, h.window, h.hazard, h.running⟩

/-- Settles O55: what the invariant says of memory and what it says of `STATUS` and the window are each kept. -/
theorem stepKeepsEngineInv : Obligations.StepKeepsEngineInv := by
  intro s t hs hstep
  obtain ⟨hmem, hcontrol⟩ := (engineInv_iff s).1 hs
  exact ⟨(engineInv_iff t).2 ⟨step_memInv hmem hstep, step_controlInv hcontrol hstep⟩, step_cfg hstep⟩

/-- Settles O23, by the frame of a command and the kinds it can end with. -/
theorem commandFrame : Obligations.CommandFrame := by
  intro i s
  obtain ⟨e, he⟩ := finish_ends i s
  have hf := framed_finish i s
  exact ⟨_, exec_eq i s, by rw [he, busyFlag_completed], by rw [he, doneFlag_completed], hf.regs,
    fun c k hc => fieldAt_of_sameSpace hf.cfg (hf.mem _ hc) k, hf.op, hf.cfg, hf.inputs, hf.observed, hf.window,
    hf.hazard⟩

/-! ## The tree of `NODE` -/

/-- The tree invariants look at nothing but `NODE`, `NODE_CNT`, `ROOT` and the configuration. -/
theorem treeInv_congr {s t : State} (h : TreeInv s) (hcfg : t.cfg = s.cfg) (hcnt : t.regs.nodeCnt = s.regs.nodeCnt)
    (hroot : t.regs.root = s.regs.root) (hnode : t.mem.node = s.mem.node) : TreeInv t := by
  have hat : ∀ j, t.nodeAt j = s.nodeAt j := fun j => by simp only [State.nodeAt, hnode, hcfg]
  unfold TreeInv TreeOk isChild at h ⊢
  simpa only [hat, hcnt, hroot, hcfg] using h

theorem treeInv_of_framed {rs : List CountReg} {sps : List Space} {s t : State} (hf : Framed rs sps s t)
    (hcnt : .nodeCnt ∉ rs) (hroot : .root ∉ rs) (hnode : .node ∉ sps) (h : TreeInv s) : TreeInv t :=
  treeInv_congr h hf.cfg (hf.regs _ hcnt) (hf.regs _ hroot) (hf.mem _ hnode)

theorem treeInv_of_empty {s : State} (h : s.regs.nodeCnt = 0) : TreeInv s := fun hp => absurd h hp.ne'

theorem treeInv_stage (i : Instr) (s t : State) (h : TreeInv s) (hr : stageOf i s = .ok t) : TreeInv t := by
  refine stage_keeps (P := TreeInv) (fun s h => h) ?_ ?_ ?_ ?_ ?_ ?_ i s t h hr
  · exact fun s t h hr => treeInv_of_framed (framed_stage (i := .count) hr) (by decide) (by decide) (by decide) h
  · exact fun s t _ hr _ => buildStage_tree hr
  · exact fun s t h hr => treeInv_of_framed (framed_stage (i := .gentab) hr) (by decide) (by decide) (by decide) h
  · exact fun s t h hr => treeInv_of_framed (framed_stage (i := .pack) hr) (by decide) (by decide) (by decide) h
  · exact fun s t h hr => treeInv_of_framed (framed_stage (i := .unpack) hr) (by decide) (by decide) (by decide) h
  · exact fun s h => treeInv_of_framed (framed_writeOut s []) (by decide) (by decide) (by decide) h

/-- A command writes all of the tree or none of it (10_state.md R45). -/
theorem writes_tree (i : Instr) :
    .nodeCnt ∈ writeRegs i ∨ (.nodeCnt ∉ writeRegs i ∧ .root ∉ writeRegs i ∧ .node ∉ writeSpaces i) := by
  cases i <;> decide

theorem treeInv_finish (i : Instr) {s : State} (h : TreeInv s) : TreeInv (s.finish i (stageOf i s)) := by
  have hf := framed_finish i s
  rcases finish_cases i s with ⟨t, ht, e⟩ | ⟨k, -, -, -, e⟩ | ⟨rfl, -, -, -⟩
  · rw [e]
    exact treeInv_stage i s t h ht
  · rcases writes_tree i with hw | ⟨hcnt, hroot, hnode⟩
    · rw [e]
      exact treeInv_of_empty (zeroed_get s.regs _ hw)
    · exact treeInv_of_framed hf hcnt hroot hnode h
  · exact treeInv_of_framed hf (by decide) (by decide) (by decide) h

theorem writeMem_node (s : State) (c : Column) (i v : Nat) : (s.writeMem c i v).mem.node = s.mem.node := by
  unfold State.writeMem
  split_ifs with h
  · cases c <;> first | rfl | exact absurd h (by decide)
  · rfl

/-- The host cannot write `NODE_CNT` or `ROOT` (10_state.md R21). -/
theorem writeReg_readOnly (s : State) (offset : Nat) (v : Word) {r : CountReg} (h : hostWritesReg r = false) :
    (s.writeReg offset v).regs.get r = s.regs.get r := by
  rw [writeReg_get, if_neg (by simp [h])]

theorem HostEffect.treeInv {m : HostMove} {u t : State} (he : HostEffect m u t)
    (hallowed : u.window = true → m.allowedInWindow = true) (h : TreeInv u) : TreeInv t := by
  induction he with
  | none => exact h
  | returned v _ ih => exact ih
  | readStatus => exact h
  | writeCmd w => exact treeInv_congr h (writeCmd_cfg u w) (by simp) (by simp) (by simp)
  | writeReg offset v =>
    have hcnt : (u.writeReg offset v).regs.nodeCnt = u.regs.nodeCnt := writeReg_readOnly u offset v (r := .nodeCnt) rfl
    have hroot : (u.writeReg offset v).regs.root = u.regs.root := writeReg_readOnly u offset v (r := .root) rfl
    rw [writeReg_keeps]
    exact treeInv_congr h rfl hcnt hroot rfl
  | writeMem c i v =>
    have hnode := writeMem_node u c i v
    rw [writeMem_keeps]
    exact treeInv_congr h rfl rfl rfl hnode
  | hazardReg _ hw hno => simp [hallowed hw] at hno
  | hazardField _ _ hw hno => simp [hallowed hw] at hno
  | wait => rw [waitMove_keeps]; exact h
  | reset => exact treeInv_of_empty rfl

/-- Settles O56: a command writes a whole tree, gives it up or does not touch it, and a host that keeps to
70_reset_and_hazards.md R330 cannot write it. -/
theorem stepKeepsTree : Obligations.StepKeepsTree := by
  rintro s t ⟨hz, hrules⟩ h hs
  rcases step_cases hs with ⟨-, hz', -⟩ | ⟨-, -, -, rfl⟩ | ⟨i, -, -, -, rfl⟩ | ⟨-, -, rfl⟩ | ⟨m, rest, -, hi, hm⟩
  · simp [hz] at hz'
  · exact h
  · exact treeInv_finish i h
  · exact h
  · exact (hostMove_effect hm).treeInv (fun hw => hrules hw m (by simp [hi])) h

/-! ## The widths of the count registers -/

theorem regsFit_freed {r : Regs} (h : ∀ n, r.get n < 2 ^ 32) (draw : Nat) (ns : List CountReg) (n : CountReg) :
    (r.freed draw ns).get n < 2 ^ 32 := by
  by_cases hn : n ∈ ns
  · rw [freedRegs_get r draw ns hn]
    exact Nat.mod_lt _ (Nat.two_pow_pos 32)
  · rw [freedRegs_other r draw ns hn]
    exact h n

theorem regsFit_zeroed {r : Regs} (h : ∀ n, r.get n < 2 ^ 32) (ns : List CountReg) (n : CountReg) :
    (r.zeroed ns).get n < 2 ^ 32 := by
  by_cases hn : n ∈ ns
  · rw [zeroed_get r ns hn]
    exact Nat.two_pow_pos 32
  · rw [zeroed_other r ns hn]
    exact h n

theorem regsFit_set {r : Regs} (h : ∀ n, r.get n < 2 ^ 32) (n : CountReg) {v : Nat} (hv : v < 2 ^ 32) (q : CountReg) :
    (r.set n v).get q < 2 ^ 32 := by
  by_cases hq : n = q
  · rw [get_set _ _ _ _ hq]
    exact hv
  · rw [get_set_other _ _ _ _ hq]
    exact h q

/-- A count within a finite bound of 00_scope.md R10. -/
theorem lt_of_not_exceeds {cap : Option Nat} {b v : Nat} (hfin : cap ≠ none) (hcap : cap.all (· < b) = true)
    (h : exceeds cap v = false) : v < b := by
  cases cap with
  | none => exact absurd rfl hfin
  | some c => simp [exceeds] at hcap h; omega

theorem kMax_bound {p : Params} (hp : finiteParams p) {v : Nat} (h : exceeds p.kMax v = false) : v < 2 ^ 31 := by
  obtain ⟨hlegal, -, hk, -⟩ := hp
  simp only [Params.legal, Bool.and_eq_true] at hlegal
  exact lt_of_not_exceeds hk hlegal.1.1.2 h

theorem stream_bound {p : Params} (hp : finiteParams p) {bits : Nat} (h : streamTooLong p bits = false) :
    bits < 2 ^ 32 := by
  obtain ⟨hlegal, -, -, hb⟩ := hp
  simp only [Params.legal, Bool.and_eq_true] at hlegal
  have := lt_of_not_exceeds hb hlegal.1.2 (bMax_ok h)
  unfold ceil8 at this
  omega

/-- A count register keeps its width when a stage writes it a value of that width. -/
theorem RegsFit.stage {i : Instr} {s t : State} (h : RegsFit s) (ht : stageOf i s = .ok t)
    (hw : ∀ r ∈ writeRegs i, t.regs.get r < 2 ^ 32) : RegsFit t := by
  intro r
  by_cases hr : r ∈ writeRegs i
  · exact hw r hr
  · rw [(framed_stage ht).regs r hr]
    exact h r

theorem regsFit_stage (i : Instr) (s t : State) (h : finiteParams s.cfg ∧ RegsFit s) (hr : stageOf i s = .ok t) :
    finiteParams t.cfg ∧ RegsFit t := by
  refine stage_keeps (P := fun s => finiteParams s.cfg ∧ RegsFit s) (fun s h => h) ?_ ?_ ?_ ?_ ?_ ?_ i s t h hr
  · rintro s t ⟨hp, h⟩ hr
    have hfit := h.stage (i := .count) hr
    obtain ⟨rfl, -, -, -, hk⟩ := countStage_form hr
    have := kMax_bound hp hk
    exact ⟨hp, hfit (by simp [writeRegs, Regs.get]; omega)⟩
  · rintro s t ⟨hp, h⟩ hr
    have hfit := h.stage (i := .build) hr
    obtain ⟨l, rfl, -, hl, -, -, hk, -⟩ := buildStage_form hr
    have := kMax_bound hp hk
    exact ⟨hp, hfit (by simp [writeRegs, Regs.get]; omega)⟩
  · rintro s t ⟨hp, h⟩ hr
    have hfit := h.stage (i := .gentab) hr
    obtain ⟨l, rfl, hl⟩ := gentabStage_form hr
    have : s.regs.nodeCnt < 2 ^ 32 := h .nodeCnt
    exact ⟨hp, hfit (by simp [writeRegs, Regs.get]; omega)⟩
  · rintro s t ⟨hp, h⟩ hr
    have hfit := h.stage (i := .pack) hr
    obtain ⟨es, -, rfl, hb, -⟩ := packStage_form hr
    have := stream_bound hp hb
    exact ⟨hp, hfit (by simp [writeRegs, Regs.get, ceil8]; omega)⟩
  · rintro s t ⟨hp, h⟩ hr
    have hfit := h.stage (i := .unpack) hr
    obtain ⟨es, hes, hcat, rfl, -⟩ := unpackStage_form hr
    have hbits := length_le_flatMap_code _ es hes
    rw [hcat, streamBits_length] at hbits
    have : s.regs.bitLen < 2 ^ 32 := h .bitLen
    exact ⟨hp, hfit (by simp [writeRegs, Regs.get]; omega)⟩
  · exact fun s ⟨hp, h⟩ => ⟨hp, fun r => regsFit_set h .outLen (Nat.two_pow_pos 32) r⟩

theorem regsFit_finish (i : Instr) {s : State} (hp : finiteParams s.cfg) (h : RegsFit s) :
    RegsFit (s.finish i (stageOf i s)) := by
  rcases finish_cases i s with ⟨t, ht, e⟩ | ⟨k, -, -, -, e⟩ | ⟨-, -, -, e⟩ <;> rw [e]
  · exact (regsFit_stage i s t ⟨hp, h⟩ ht).2
  · exact regsFit_zeroed h _
  · exact regsFit_freed h _ _

theorem regsFit_spoil {s : State} (h : RegsFit s) : RegsFit s.spoil := by
  rcases spoil_cases s with ⟨-, e⟩ | ⟨-, k, e⟩ <;> rw [e]
  · exact h
  · exact regsFit_freed h _ _

theorem regsFit_freeReg {s : State} (h : RegsFit s) (offset : Nat) : RegsFit (s.freeReg offset) := by
  rcases freeReg_cases s offset with ⟨r, v, hv, e⟩ | ⟨d, k, e⟩ | e <;> rw [e]
  · exact regsFit_set h r hv
  · exact h
  · exact h

theorem HostEffect.regsFit {m : HostMove} {u t : State} (he : HostEffect m u t) (h : RegsFit u) : RegsFit t := by
  induction he with
  | none => exact h
  | returned v _ ih => exact ih
  | readStatus => exact h
  | writeCmd w => intro r; rw [writeCmd_regs]; exact h r
  | writeReg offset v =>
    intro r
    rw [writeReg_get]
    split_ifs
    · exact v.isLt
    · exact h r
  | writeMem c i v => rw [writeMem_keeps]; exact h
  | hazardReg offset _ _ => exact regsFit_freeReg (regsFit_spoil h) offset
  | hazardField c i _ _ => exact regsFit_spoil h
  | wait => rw [waitMove_keeps]; exact h
  | reset => exact fun r => (zero_get r).trans_lt (Nat.two_pow_pos 32)

/-- Settles O58: each command bounds the counts it writes by a capacity or by a count it reads. -/
theorem stepKeepsRegisterWidths : Obligations.StepKeepsRegisterWidths := by
  intro s t hp h hs
  rcases step_cases hs with ⟨-, -, rfl⟩ | ⟨-, -, -, rfl⟩ | ⟨i, -, -, -, rfl⟩ | ⟨-, -, rfl⟩ | ⟨m, rest, -, -, hm⟩
  · exact regsFit_freed h _ _
  · exact h
  · exact regsFit_finish i hp h
  · exact h
  · exact (hostMove_effect hm).regsFit h

end Sys2Proof.Machine
end

section
/-! A command's result depends on nothing but its read set (10_state.md R45, 00_scope.md R17). That a success carries over
is `keepsSuccess`; here each stage is followed once where it ends early: on states that agree on its read set it ends with
the same abort. `ENCODE` and `DECODE` are their stages in turn. -/

namespace Sys2Proof.Machine

theorem relaxes_refl (p : Params) : Relaxes p p := ⟨id, id, id, id, id, id, id, id⟩

/-- An early end of the command's pseudocode is the same one from any state with the same configuration that agrees on
the read set. -/
def KeepsAbort (i : Instr) : Prop :=
  ∀ {s s' : State} {a : Abort}, s.cfg = s'.cfg → agreeOnReads i s s' → stageOf i s = .error a → stageOf i s' = .error a

/-! ## The single stages -/

theorem keepsAbort_count : KeepsAbort .count := by
  intro s s' a hcfg ⟨hregs, hspaces⟩ h
  have hlen : s.regs.symLen = s'.regs.symLen := hregs .symLen (by decide)
  have hsym : s.symList = s'.symList := hspaces .sym (by decide)
  simp only [stageOf, countStage_eq, hcfg, hlen, hsym] at h ⊢
  split_ifs at h ⊢ <;> exact h

theorem buildStage_def (s : State) : buildStage s =
    if exceeds s.cfg.kMax s.regs.flLen then .error (.raise .capacityExceeded)
    else if s.regs.flLen = 0 then .error (.raise .emptyInput)
    else
      match buildLoop s.cfg s.regs.flLen (buildLeaves s.flList Internal.empty.build) with
      | .error e => .error e
      | .ok w => .ok (s.start.writeNodes w.nodes (rootOf w.pq)) := rfl

theorem keepsAbort_build : KeepsAbort .build := by
  intro s s' a hcfg ⟨hregs, hspaces⟩ h
  have hlen : s.regs.flLen = s'.regs.flLen := hregs .flLen (by decide)
  have hfl : s.flList = s'.flList := hspaces .fl (by decide)
  simp only [stageOf, buildStage_def, hcfg, hlen, hfl] at h ⊢
  split_ifs at h ⊢
  · exact h
  · exact h
  · split at h
    · exact h
    · cases h

theorem gentabPass_congr {s s' : State} (hcfg : s.cfg = s'.cfg) (hn : sameNodes s s') (top : StackItem)
    (w : GentabWork) : gentabPass s top w = gentabPass s' top w := by
  obtain ⟨hc, hnode⟩ := hn
  unfold gentabPass
  rw [← hc, ← hcfg]
  by_cases hj : s.regs.nodeCnt ≤ top.node
  · simp only [hj, if_true]
  · rw [hnode _ (Nat.not_le.1 hj)]

theorem gentabLoop_congr {s s' : State} (hcfg : s.cfg = s'.cfg) (hn : sameNodes s s') (n : Nat) (w : GentabWork) :
    gentabLoop s n w = gentabLoop s' n w := by
  induction n generalizing w with
  | zero => unfold gentabLoop; rfl
  | succ n ih =>
    unfold gentabLoop
    simp only [gentabPass_congr hcfg hn, ih]

theorem keepsAbort_gentab : KeepsAbort .gentab := by
  intro s s' a hcfg ⟨hregs, hspaces⟩ h
  have hroot : s.regs.root = s'.regs.root := hregs .root (by decide)
  have hnodes : sameNodes s s' := sameNodes_of_nodeList (hspaces .node (by decide))
  have hloop := gentabLoop_congr (s := s.start) (s' := s'.start) hcfg hnodes
  obtain ⟨hc, hnode⟩ := id hnodes
  simp only [stageOf, gentabStage_def, hcfg, hc, hroot, hloop] at h ⊢
  by_cases hr : s'.regs.nodeCnt ≤ s'.regs.root
  · simpa only [hr, if_true] using h
  · rw [hnode _ (by omega)] at h
    split_ifs at h ⊢
    · exact h
    · exact h
    · exact h
    · split at h
      · exact h
      · cases h

theorem keepsAbort_pack : KeepsAbort .pack := by
  intro s s' a hcfg ⟨hregs, hspaces⟩ h
  have hlen : s.regs.symLen = s'.regs.symLen := hregs .symLen (by decide)
  have hctl : s.regs.ctLen = s'.regs.ctLen := hregs .ctLen (by decide)
  have hsym : s.symList = s'.symList := hspaces .sym (by decide)
  have hct : s.ctList = s'.ctList := hspaces .ct (by decide)
  simp only [stageOf, packStage_eq, hcfg, hlen, hctl, hsym, hct] at h ⊢
  split_ifs at h ⊢
  · exact h
  · exact h
  · split at h
    · exact h
    · cases h

/-- The decoder reads no byte at or above `BUF_LEN` (44_unpack.md R222). -/
theorem unpackPass_congr {s s' : State} (hcfg : s.cfg = s'.cfg) (hbuf : s.bufList = s'.bufList) (table : List Entry)
    (w : UnpackWork) : unpackPass s table w = unpackPass s' table w := by
  have hl : s.regs.bufLen = s'.regs.bufLen := by rw [← bufList_length, hbuf, bufList_length]
  rw [State.bufList, State.bufList, ← hl, List.map_inj_left] at hbuf
  unfold unpackPass
  rw [← hl, ← hcfg]
  by_cases hpos : s.regs.bufLen ≤ w.pos / 8
  · simp only [hpos, if_true]
  · rw [hbuf _ (List.mem_range.2 (Nat.not_le.1 hpos))]

theorem unpackLoop_congr {s s' : State} (hcfg : s.cfg = s'.cfg) (hbit : s.regs.bitLen = s'.regs.bitLen)
    (hbuf : s.bufList = s'.bufList) (table : List Entry) (n : Nat) (w : UnpackWork) :
    unpackLoop s table n w = unpackLoop s' table n w := by
  induction n generalizing w with
  | zero => rfl
  | succ n ih => simp only [unpackLoop, hbit, unpackPass_congr hcfg hbuf, ih]

theorem keepsAbort_unpack : KeepsAbort .unpack := by
  intro s s' a hcfg ⟨hregs, hspaces⟩ h
  have hbit : s.regs.bitLen = s'.regs.bitLen := hregs .bitLen (by decide)
  have hbl : s.regs.bufLen = s'.regs.bufLen := hregs .bufLen (by decide)
  have hctl : s.regs.ctLen = s'.regs.ctLen := hregs .ctLen (by decide)
  have hct : s.ctList = s'.ctList := hspaces .ct (by decide)
  have hloop := unpackLoop_congr (s := s.start) (s' := s'.start) hcfg hbit (hspaces .buf (by decide))
  simp only [stageOf, unpackStage_eq, hcfg, hbit, hbl, hctl, hct, hloop] at h ⊢
  split_ifs at h ⊢
  · exact h
  · split at h
    · exact h
    · split_ifs at h ⊢
      exact h

theorem keepsAbort_chktab : KeepsAbort .chktab := by
  intro s s' a hcfg ⟨hregs, hspaces⟩ h
  have hctl : s.regs.ctLen = s'.regs.ctLen := hregs .ctLen (by decide)
  have hct : s.ctList = s'.ctList := hspaces .ct (by decide)
  simp only [stageOf, chktabStage_eq, hcfg, hctl, hct] at h ⊢
  split_ifs at h ⊢ <;> exact h

/-! ## One stage after another -/

/-- Two runs end alike: with the same abort, or in states of the same configuration that agree on the named registers
and spaces. -/
inductive EndsAlike (rs : List CountReg) (sps : List Space) : Except Abort State → Except Abort State → Prop
  | ok {t t' : State} : t.cfg = t'.cfg → agreeOn rs sps t t' → EndsAlike rs sps (.ok t) (.ok t')
  | error (a : Abort) : EndsAlike rs sps (.error a) (.error a)

theorem EndsAlike.abort {rs : List CountReg} {sps : List Space} {r r' : Except Abort State} {a : Abort}
    (h : EndsAlike rs sps r r') (ha : r = .error a) : r' = .error a := by
  cases h with
  | ok _ _ => cases ha
  | error b => exact ha

theorem KeepsAbort.endsAlike {i : Instr} (hi : KeepsAbort i) {rs : List CountReg} {sps : List Space} {s s' : State}
    (hcfg : s.cfg = s'.cfg) (ha : agreeOn rs sps s s') (hr : readRegs i ⊆ rs) (hs : readSpaces i ⊆ sps) :
    EndsAlike (rs ++ writeRegs i) (sps ++ writeSpaces i) (stageOf i s) (stageOf i s') := by
  cases h : stageOf i s with
  | ok t =>
    obtain ⟨t', h', -, hw⟩ := KeepsSuccess.extend (keepsSuccess i) (hcfg ▸ relaxes_refl s.cfg) ha hr hs h
    rw [h']
    exact .ok (((framed_stage h).cfg.trans hcfg).trans (framed_stage h').cfg.symm) hw
  | error a =>
    rw [hi hcfg (ha.mono hr hs) h]
    exact .error a

theorem EndsAlike.thenStage {i : Instr} (hi : KeepsAbort i) {rs : List CountReg} {sps : List Space}
    {r r' : Except Abort State} (h : EndsAlike rs sps r r') (hr : readRegs i ⊆ rs) (hs : readSpaces i ⊆ sps) :
    EndsAlike (rs ++ writeRegs i) (sps ++ writeSpaces i) (thenStage r (stageOf i)) (thenStage r' (stageOf i)) := by
  cases h with
  | ok hcfg ha => exact hi.endsAlike hcfg ha hr hs
  | error a => exact .error a

theorem keepsAbort_encode : KeepsAbort .encode := by
  intro s s' a hcfg hagree h
  have hcount := keepsAbort_count.endsAlike hcfg hagree (by decide) (by decide)
  have hbuild := hcount.thenStage keepsAbort_build (by decide) (by decide)
  have hgentab := hbuild.thenStage keepsAbort_gentab (by decide) (by decide)
  have hpack := hgentab.thenStage keepsAbort_pack (by decide) (by decide)
  exact hpack.abort h

theorem keepsAbort_decode : KeepsAbort .decode := by
  intro s s' a hcfg hagree h
  have hbit : s.regs.bitLen = s'.regs.bitLen := hagree.1 .bitLen (by decide)
  simp only [stageOf, decodeStage, hbit] at h ⊢
  split_ifs at h ⊢
  have hchktab := keepsAbort_chktab.endsAlike hcfg hagree (by decide) (by decide)
  have hunpack := hchktab.thenStage keepsAbort_unpack (by decide) (by decide)
  exact hunpack.abort h

theorem keepsAbort (i : Instr) : KeepsAbort i := by
  cases i with
  | count => exact keepsAbort_count
  | build => exact keepsAbort_build
  | gentab => exact keepsAbort_gentab
  | pack => exact keepsAbort_pack
  | unpack => exact keepsAbort_unpack
  | chktab => exact keepsAbort_chktab
  | encode => exact keepsAbort_encode
  | decode => exact keepsAbort_decode

/-! ## The results -/

/-- A space whose length register is 0 has no valid entries. -/
theorem spaceAgrees_of_empty {s t : State} {sp : Space} (hs : s.regs.get (lengthReg sp) = 0)
    (ht : t.regs.get (lengthReg sp) = 0) : spaceAgrees s t sp := by
  cases sp <;> simp only [lengthReg, Regs.get] at hs ht <;>
    simp only [spaceAgrees, State.symList, State.flList, State.nodeList, State.ctList, State.bufList, State.outList, hs,
      ht, List.range_zero, List.map_nil]

theorem lengthReg_of_written {i : Instr} {sp : Space} (h : sp ∈ writeSpaces i) : lengthReg sp ∈ writeRegs i := by
  cases i <;> cases sp <;> revert h <;> decide

/-- Error entry leaves no result but the kind (60_exceptions.md R287). -/
theorem sameResults_raise (i : Instr) (s s' : State) (e : ErrKind) :
    sameResults i (s.raise (writeRegs i) (writeSpaces i) e) (s'.raise (writeRegs i) (writeSpaces i) e) := by
  refine ⟨rfl, fun r hr => ?_, fun sp hsp => ?_⟩
  · exact (zeroed_get s.regs _ hr).trans (zeroed_get s'.regs _ hr).symm
  · have hlen := lengthReg_of_written hsp
    exact spaceAgrees_of_empty (zeroed_get s.regs _ hlen) (zeroed_get s'.regs _ hlen)

/-- Settles O26: success carries over by `keepsSuccess`, an early end by `keepsAbort`. The tree of 10_state.md R36 is what
keeps `GENTAB` from a traversal whose result is free (assumption log 15). -/
theorem resultDependsOnReadSet : Obligations.ResultDependsOnReadSet := by
  intro i s s' t t' hcfg htree _ hagree ht ht'
  rw [exec_eq] at ht ht'
  cases ht
  cases ht'
  rcases stage_cases i s with ⟨u, hu⟩ | ⟨e, -, -, he, -⟩ | ⟨-, hno, -⟩
  · obtain ⟨u', hu', hw⟩ := keepsSuccess i (hcfg ▸ relaxes_refl s.cfg) hagree hu
    rw [hu, hu']
    exact sameResults_complete hw
  · rw [he, keepsAbort i hcfg hagree he]
    exact sameResults_raise i s s' e
  · exact absurd htree hno

end Sys2Proof.Machine
end

section
/-! The memory fields' widths and the host's accesses of memory (20_memory.md R60 to R63, R70 to R74): every field fits its
width along every step, a write reaches one field and reduces its value, a read returns it, and what the spec does not
define is refused. -/

namespace Sys2Proof.Machine

/-! ## Fields fit their widths -/

theorem fits_word (w : Word) : fits (some 32) w.toNat = true := decide_eq_true w.isLt

theorem fieldWidth_ctLen (p : Params) : fieldWidth p .ctLen = lenWidth p := by
  unfold fieldWidth lenWidth
  cases p.lMax <;> rfl

/-- Every natural field of a space holds a value of its width. -/
def SpaceFits (s : State) : Space → Prop
  | .fl => ∀ i, fits s.cfg.freqW (s.flAt i).freq = true
  | .node => ∀ i, fits s.cfg.freqW (s.nodeAt i).freq = true
  | .ct => ∀ i, fits s.cfg.lMax (s.ctAt i).pat = true ∧ fits (lenWidth s.cfg) (s.ctAt i).len = true
  | .sym | .buf | .out => True

theorem fieldsFit_iff_spaceFits (s : State) : FieldsFit s ↔ ∀ sp, SpaceFits s sp := by
  constructor
  · intro h sp
    cases sp with
    | fl => exact fun i => (h i).1
    | node => exact fun i => (h i).2.1
    | ct => exact fun i => (h i).2.2
    | sym | buf | out => trivial
  · intro h i
    exact ⟨h .fl i, h .node i, h .ct i⟩

/-- What a host reads of a field says whether it fits (20_memory.md R62); a field of fixed width always does. -/
theorem fieldsFit_iff_fieldAt (s : State) :
    FieldsFit s ↔ ∀ c i, fits (fieldWidth s.cfg c) (s.fieldAt c i) = true := by
  constructor
  · intro h c i
    obtain ⟨hfl, hnode, hpat, hlen⟩ := h i
    cases c with
    | sym | flCp | nodeSym | ctSym | out => exact fits_word _
    | flFreq => exact hfl
    | nodeFreq => exact hnode
    | nodeLeaf => exact decide_eq_true (Bool.toNat_lt _)
    | nodeLeft | nodeRight => rfl
    | ctPat => exact hpat
    | ctLen => rw [fieldWidth_ctLen]; exact hlen
    | buf => exact decide_eq_true (s.bufAt i).isLt
  · intro h i
    exact ⟨h .flFreq i, h .nodeFreq i, h .ctPat i, fieldWidth_ctLen s.cfg ▸ h .ctLen i⟩

theorem spaceFits_congr {s t : State} {sp : Space} (h : SpaceFits s sp) (hcfg : t.cfg = s.cfg)
    (hmem : t.mem.sameSpace s.mem sp) : SpaceFits t sp := by
  cases sp with
  | fl | node | ct =>
    simp only [Memory.sameSpace] at hmem
    simpa only [SpaceFits, State.flAt, State.nodeAt, State.ctAt, hcfg, hmem] using h
  | sym | buf | out => trivial

/-- A free value is one of its field's width. -/
theorem spaceFits_of_spaceFree {t : State} {draw : Nat} {sp : Space} (h : t.mem.spaceFree draw sp) :
    SpaceFits t sp := by
  cases sp with
  | fl =>
    obtain ⟨-, hfreq⟩ := h
    intro i
    rw [State.flAt, hfreq]
    exact fits_reduceTo _ _
  | node =>
    obtain ⟨-, hfreq, -⟩ := h
    intro i
    rw [State.nodeAt, hfreq]
    exact fits_reduceTo _ _
  | ct =>
    obtain ⟨-, hpat, hlen⟩ := h
    intro i
    rw [State.ctAt, hpat, hlen]
    exact ⟨fits_reduceTo _ _, fits_reduceTo _ _⟩
  | sym | buf | out => trivial

/-- Only the spaces that change have to be looked at. -/
theorem FieldsFit.of_changed {sps : List Space} {s t : State} (h : FieldsFit s) (hcfg : t.cfg = s.cfg)
    (hmem : ∀ sp ∉ sps, t.mem.sameSpace s.mem sp) (hw : ∀ sp ∈ sps, SpaceFits t sp) : FieldsFit t := by
  rw [fieldsFit_iff_spaceFits] at h ⊢
  intro sp
  by_cases hsp : sp ∈ sps
  · exact hw sp hsp
  · exact spaceFits_congr (h sp) hcfg (hmem sp hsp)

theorem FieldsFit.freed {sps : List Space} {s t : State} {draw : Nat} (h : FieldsFit s) (hcfg : t.cfg = s.cfg)
    (hmem : t.mem = s.mem.freed draw sps) : FieldsFit t :=
  h.of_changed hcfg (fun _ hsp => hmem ▸ freedMem_other _ _ _ hsp)
    fun _ hsp => spaceFits_of_spaceFree (hmem ▸ freedMem_free _ _ _ hsp)

theorem FieldsFit.congr {s t : State} (h : FieldsFit s) (hcfg : t.cfg = s.cfg) (hmem : t.mem = s.mem) : FieldsFit t :=
  h.of_changed (sps := []) hcfg (fun sp _ => hmem ▸ Memory.sameSpace_refl _ sp) (by simp)

/-! ## Writing one field -/

/-- A field write stores the value reduced to the field's width (20_memory.md R62). -/
theorem fieldAt_writeField_same (s : State) (c : Column) (i v : Nat) :
    State.fieldAt { s with mem := s.mem.writeField s.cfg c i v } c i = reduceTo (fieldWidth s.cfg c) v := by
  cases c with
  | ctLen => rw [fieldWidth_ctLen]; exact read_write_same _ _ _ _
  | nodeLeaf =>
    refine (congrArg Bool.toNat (read_write_same _ _ _ _)).trans ?_
    rcases Nat.mod_two_eq_zero_or_one v with h | h <;> simp [fieldWidth, reduceTo, h]
  | sym | flCp | nodeSym | ctSym | out | buf =>
    exact (congrArg BitVec.toNat (read_write_same _ _ _ _)).trans (BitVec.toNat_ofNat _ _)
  | flFreq | nodeFreq | nodeLeft | nodeRight | ctPat => exact read_write_same _ _ _ _

theorem FieldsFit.writeField {s t : State} (h : FieldsFit s) (c : Column) (i v : Nat) (hcfg : t.cfg = s.cfg)
    (hmem : t.mem = s.mem.writeField s.cfg c i v) : FieldsFit t := by
  rw [fieldsFit_iff_fieldAt] at h
  refine FieldsFit.congr (s := { s with mem := s.mem.writeField s.cfg c i v }) ?_ hcfg hmem
  refine (fieldsFit_iff_fieldAt _).2 fun d k => ?_
  by_cases hdk : d = c ∧ k = i
  · obtain ⟨rfl, rfl⟩ := hdk
    rw [fieldAt_writeField_same]
    exact fits_reduceTo _ _
  · rw [fieldAt_writeField_other _ _ _ _ _ _ (by tauto)]
    exact h d k

/-! ## Writing a list -/

/-- A list of values of the field's width leaves a column of such values: above the list they are free. -/
theorem fits_read_ofList {α : Type} {w : Option Nat} (c : Column) (g : Nat) {l : List α} {f : α → Nat}
    (h : ∀ x ∈ l, fits w (f x) = true) (i : Nat) :
    fits w ((Col.ofList g (l.map f)).read (freeNat c w) i) = true := by
  by_cases hi : i < l.length
  · rw [read_ofList _ _ _ _ (by simpa using hi), List.getElem_map]
    exact h _ (List.getElem_mem hi)
  · rw [Col.read, (freeFrom_map g f l).2 i (Nat.le_of_not_lt hi)]
    exact fits_reduceTo _ _

theorem spaceFits_writeFl {s : State} {l : List Symbol} (h : ∀ x ∈ l, fits s.cfg.freqW x.freq = true) :
    SpaceFits (s.writeFl l) .fl := fun i => fits_read_ofList .flFreq _ h i

theorem spaceFits_writeNodes {s : State} {l : List Node} {root : Nat}
    (h : ∀ x ∈ l, fits s.cfg.freqW x.freq = true) : SpaceFits (s.writeNodes l root) .node :=
  fun i => fits_read_ofList .nodeFreq _ h i

theorem spaceFits_writeCt {s : State} {l : List Entry}
    (h : ∀ e ∈ l, fits s.cfg.lMax e.pat = true ∧ fits (lenWidth s.cfg) e.len = true) :
    SpaceFits (s.writeCt l) .ct := fun i =>
  ⟨fits_read_ofList .ctPat _ (fun e he => (h e he).1) i, fits_read_ofList .ctLen _ (fun e he => (h e he).2) i⟩

/-! ## What the stages write -/

/-- `COUNT` tests every count (40_count.md R121). -/
theorem countStage_spaceFits {s t : State} (h : countStage s = .ok t) : SpaceFits t .fl := by
  obtain ⟨rfl, -, -, hfit, -⟩ := countStage_form h
  refine spaceFits_writeFl fun x hx => ?_
  rw [freqList_freq s.symList x hx]
  exact hfit _ ((freqList_cps _ _).1 (List.mem_map_of_mem hx))

/-- `BUILD` tests every sum, and of a single leaf there is none (41_build.md R152): the total fits. -/
theorem total_fits {s : State} (h : FieldsFit s)
    (hsum : s.regs.flLen = 1 ∨ fits s.cfg.freqW (s.flList.map Symbol.freq).sum = true) :
    fits s.cfg.freqW (s.flList.map Symbol.freq).sum = true := by
  rcases hsum with h1 | hsum
  · simpa [State.flList, h1] using (h 0).1
  · exact hsum

/-- No node of the tree `BUILD` leaves outweighs the root, whose frequency is the total. -/
theorem buildStage_spaceFits {s t : State} (hs : FieldsFit s) (h : buildStage s = .ok t) : SpaceFits t .node := by
  have htree := buildStage_tree h
  obtain ⟨l, rfl, -, hlen, hroot, h0, -, hsum⟩ := buildStage_form h
  have hlast : 2 * s.regs.flLen - 2 < l.length := by omega
  have htotal := total_fits hs hsum
  rw [← hroot] at htotal
  refine spaceFits_writeNodes fun x hx => fits_mono ?_ htotal
  obtain ⟨j, hj, rfl⟩ := List.getElem_of_mem hx
  have hle := tree_le_root htree j hj
  rw [nodeAt_writeNodes _ _ _ _ hj] at hle
  simpa [nodeAt_writeNodes _ _ _ _ hlast, nth, hlast] using hle

/-- `GENTAB` tests every code (42_gentab.md R178), on a tree or on none. -/
theorem gentabStage_spaceFits {s t : State} (h : gentabStage s = .ok t) : SpaceFits t .ct := by
  rw [gentabStage_def] at h
  split_ifs at h with h0 hcap hr hleaf hlong
  · obtain rfl := Except.ok.inj h
    refine spaceFits_writeCt fun e he => ?_
    obtain rfl := List.mem_singleton.1 he
    exact fit_of_codeTooLong ⟨Nat.one_pos.trans Nat.one_lt_two, by simpa using hlong⟩
  · split at h
    · cases h
    · next w hw =>
      obtain rfl := Except.ok.inj h
      exact spaceFits_writeCt fun e he => fit_of_codeTooLong (gentabLoop_fit hw (by simp) (by simp) e he)

/-! ## Commands -/

theorem FieldsFit.stage {i : Instr} {s t : State} (h : FieldsFit s) (ht : stageOf i s = .ok t)
    (hw : ∀ sp ∈ writeSpaces i, SpaceFits t sp) : FieldsFit t :=
  h.of_changed (framed_stage ht).cfg (framed_stage ht).mem hw

theorem fieldsFit_stage (i : Instr) (s t : State) (h : FieldsFit s) (hr : stageOf i s = .ok t) : FieldsFit t := by
  refine stage_keeps (P := FieldsFit) (fun s h => h) ?_ ?_ ?_ ?_ ?_ ?_ i s t h hr
  · exact fun s t h hr => h.stage (i := .count) hr (by simpa [writeSpaces] using countStage_spaceFits hr)
  · exact fun s t h hr => h.stage (i := .build) hr (by simpa [writeSpaces] using buildStage_spaceFits h hr)
  · exact fun s t h hr => h.stage (i := .gentab) hr (by simpa [writeSpaces] using gentabStage_spaceFits hr)
  · exact fun s t h hr => h.stage (i := .pack) hr (by simp [writeSpaces, SpaceFits])
  · exact fun s t h hr => h.stage (i := .unpack) hr (by simp [writeSpaces, SpaceFits])
  · exact fun s h => h.of_changed rfl (framed_writeOut s []).mem (by simp [SpaceFits])

theorem fieldsFit_finish (i : Instr) {s : State} (h : FieldsFit s) : FieldsFit (s.finish i (stageOf i s)) := by
  rcases finish_cases i s with ⟨t, ht, e⟩ | ⟨k, -, -, -, e⟩ | ⟨-, -, -, e⟩ <;> rw [e]
  · exact fieldsFit_stage i s t h ht
  · exact h.freed rfl rfl
  · exact h.freed rfl rfl

/-! ## Host moves and steps -/

theorem fieldsFit_spoil {s : State} (h : FieldsFit s) : FieldsFit s.spoil := by
  rcases spoil_cases s with ⟨-, e⟩ | ⟨-, k, e⟩ <;> rw [e]
  · exact h
  · exact h.freed rfl rfl

theorem HostEffect.fieldsFit {m : HostMove} {u t : State} (he : HostEffect m u t) (h : FieldsFit u) :
    FieldsFit t := by
  induction he with
  | none => exact h
  | returned v _ ih => exact ih
  | readStatus => exact h
  | writeCmd w => exact h.congr (writeCmd_cfg u w) (writeCmd_mem u w)
  | writeReg offset v => rw [writeReg_keeps]; exact h
  | writeMem c i v =>
    unfold State.writeMem
    split_ifs
    · exact h.writeField c i v rfl rfl
    · exact h
  | hazardReg offset _ _ =>
    obtain ⟨hcfg, -, -, -, -, hmem, -⟩ := freeReg_keeps u.spoil offset
    exact (fieldsFit_spoil h).congr hcfg hmem
  | hazardField c i _ _ => exact (fieldsFit_spoil h).writeField c i _ rfl rfl
  | wait => rw [waitMove_keeps]; exact h
  | reset => exact fun _ => ⟨fits_reduceTo _ _, fits_reduceTo _ _, fits_reduceTo _ _, fits_reduceTo _ _⟩

/-- Settles O57: `COUNT`, `BUILD` and `GENTAB` test what they write, a host write is reduced, and a free value is one of its
field's width. -/
theorem stepKeepsFieldWidths : Obligations.StepKeepsFieldWidths := by
  intro s t h hs
  rcases step_cases hs with ⟨-, -, rfl⟩ | ⟨-, -, -, rfl⟩ | ⟨i, -, -, -, rfl⟩ | ⟨-, -, rfl⟩ | ⟨m, rest, -, -, hm⟩
  · exact h.freed rfl rfl
  · exact h
  · exact fieldsFit_finish i h
  · exact h
  · exact (hostMove_effect hm).fieldsFit h

/-! ## The engine's turn -/

theorem step_engine {s : State} {i : Instr} (ht : engineTurn s = true) (hz : s.hazard = false)
    (hop : s.op = .command i) : step s = exec i s := by
  simp [step, ht, engineMove, hz, hop]

theorem opOfWord_of_decode {w : Word} {i : Instr} (h : decode w = .ok i) : opOfWord w = .command i := by
  simp [opOfWord, h]

theorem fetchOp_of_decodeTableWord {nbits w : Nat} {i : Instr} (h : decodeTableWord nbits w = some i) :
    fetchOp nbits w = .command i := by
  cases hv : tableWord nbits w with
  | none => simp [decodeTableWord, hv] at h
  | some v =>
    cases hd : decode v with
    | error r => simp [decodeTableWord, hv, hd] at h
    | ok j =>
      obtain rfl : j = i := by simpa [decodeTableWord, hv, hd] using h
      simp [fetchOp, hv, opOfWord_of_decode hd]

/-- A command latched with no host move before its completion is the engine's to run. -/
theorem engineTurn_latch (s : State) (op : Op) : engineTurn (s.latch op 0) = true := by
  simp [engineTurn, State.busy]

/-- Settles O12: a latched command is the engine's turn, and the engine's move is `exec` of it. -/
theorem stepRunsDecodedCommand : Obligations.StepRunsDecodedCommand :=
  ⟨fun _ _ => step_engine, fun _ _ => opOfWord_of_decode, fun s _ _ _ h =>
    ⟨step_engine (engineTurn_latch s _) rfl (fetchOp_of_decodeTableWord h), rfl, rfl⟩⟩

/-! ## Memory accesses outside the hazard window -/

theorem hostWritable_eq (c : Column) : hostWritable c = hostWritesSpace (spaceOf c) := by cases c <;> rfl

/-- Settles O15: an `RW` space takes the field write, an `RO` space ignores it. -/
theorem memoryWrites : Obligations.MemoryWrites := by
  intro s c i v rest hi hwf hidle hwin
  rw [step_host hi (engineTurn_idle hidle), hostMove, if_pos hwf, State.writeMemMove, if_neg (by simp [hwin]),
    writeMem_keeps, hostWritable_eq]
  refine ⟨_, rfl, rfl, rfl, rfl, fun hrw => ?_, fun d k hd => ?_⟩
  · rw [← writeMem_keeps, State.writeMem, if_pos hrw]
    exact fieldAt_writeField_same _ c i v
  · rw [← writeMem_keeps, State.writeMem]
    split_ifs with hrw
    · exact fieldAt_writeField_other _ c d i k v (hd.resolve_left (by simp [hrw]))
    · cases d <;> rfl

/-- Settles O16: the value returned is the field's, and a field read that way fits by `fieldsFit_iff_fieldAt`. -/
theorem memoryReads : Obligations.MemoryReads := by
  intro s c i rest hi hwf hidle hwin
  rw [step_host hi (engineTurn_idle hidle), hostMove, if_pos hwf, State.readMemMove, if_neg (by simp [hwin])]
  refine ⟨_, rfl, rfl, ?_, rfl, rfl, rfl, fun h => (fieldsFit_iff_fieldAt s).1 h c i⟩
  cases c <;> rfl

/-! ## Accesses the spec does not define -/

theorem regAccessWf_eq_false_iff {width offset : Nat} :
    regAccessWf width offset = false ↔ width ≠ 32 ∨ offset % 4 ≠ 0 := by
  rw [regAccessWf, Bool.and_eq_false_iff, beq_eq_false_iff_ne, beq_eq_false_iff_ne]

theorem memIndexWf_eq_false_iff {p : Params} {c : Column} {i : Nat} :
    memIndexWf p c i = false ↔ ∃ n, capacity p (spaceOf c) = some n ∧ n ≤ i := by
  unfold memIndexWf
  cases capacity p (spaceOf c) <;> simp

/-- A move behind a check is refused exactly when the check fails. -/
theorem ite_eq_refused_iff {check : Bool} {t : State} {r : Refusal} :
    (if check then .next t else .refused r : Host.Outcome State Fault Refusal) = .refused r ↔ check = false := by
  cases check <;> simp

/-- Settles O17: each access stands behind the check of its kind. -/
theorem undefinedAccessRefused : Obligations.UndefinedAccessRefused :=
  ⟨fun _ _ _ => ite_eq_refused_iff.trans regAccessWf_eq_false_iff,
    fun _ _ _ _ => ite_eq_refused_iff.trans regAccessWf_eq_false_iff,
    fun _ _ _ _ =>
      ⟨ite_eq_refused_iff.trans memIndexWf_eq_false_iff, ite_eq_refused_iff.trans memIndexWf_eq_false_iff⟩⟩

/-! ## `STATUS` while a command runs -/

theorem flag_toNat (w : Word) (i : Nat) : (w.getLsbD i).toNat = w.toNat / 2 ^ i % 2 := by
  rw [BitVec.getLsbD, Nat.testBit_eq_decide_div_mod_eq]
  rcases Nat.mod_two_eq_zero_or_one (w.toNat / 2 ^ i) with h | h <;> simp [h]

/-- A legal `STATUS` is its three fields (10_state.md R23). -/
theorem statusWord_of_legal {w : Word} (h : statusLegal w) : statusWord (busyFlag w) (doneFlag w) (errField w) = w := by
  obtain ⟨hlow, hhigh, -⟩ := h
  have hlow := congrArg BitVec.toNat hlow
  have hhigh := congrArg BitVec.toNat hhigh
  have hw := w.isLt
  apply BitVec.eq_of_toNat_eq
  rw [statusWord_toNat, busyFlag, doneFlag, errField, flag_toNat, flag_toNat]
  simp only [BitVec.extractLsb'_toNat, Nat.shiftRight_eq_div_pow, BitVec.ofNat_eq_ofNat, BitVec.toNat_ofNat]
    at hlow hhigh ⊢
  omega

theorem status_running {s : State} (h : ControlInv s) (hb : s.busy = true) (hz : s.hazard = false) :
    s.status = launchedStatus := by
  obtain ⟨hdone, herr⟩ := h.running hb hz
  rw [← statusWord_of_legal h.legal, hdone, herr, ← State.busy, hb]
  rfl

/-- Settles O18: a running command's `STATUS` is the one its launch wrote. -/
theorem statusReadWhileBusy : Obligations.StatusReadWhileBusy := by
  intro s rest hinv hb hz ht hi
  obtain ⟨-, hcontrol⟩ := (engineInv_iff s).1 hinv
  have hone : s.status.toNat = 1 := by rw [status_running hcontrol hb hz]; rfl
  rw [step_host hi ht]
  refine ⟨_, rfl, congrArg (· :: s.observed) hone, rfl, rfl, rfl, rfl, rfl, ?_, hz⟩
  exact Bool.and_eq_true_iff.2 ⟨hcontrol.window hb, hb⟩

end Sys2Proof.Machine
end

section
/-! Encodings (30_encoding.md R91 to R97): the opcode map and its inverse, and the serialised code table. -/

namespace Sys2Proof.Machine

/-! ## Command words -/

theorem ofOpc_eq_ok_iff {opc : Byte} {i : Instr} : ofOpc opc = .ok i ↔ opc = opcOf i := by
  constructor
  · intro h
    unfold ofOpc at h
    split at h <;> cases h <;> exact BitVec.eq_of_toNat_eq ‹_›
  · rintro rfl
    cases i <;> rfl

/-- The decoder reads a command exactly from the zero field and that command's code (30_encoding.md R92). -/
theorem decode_eq_ok_iff (w : Word) (i : Instr) : decode w = .ok i ↔ zeroField w = 0 ∧ opcField w = opcOf i := by
  unfold decode
  split_ifs with hz
  · exact ofOpc_eq_ok_iff.trans (and_iff_right hz).symm
  · exact iff_of_false nofun fun h => hz h.1

/-- Settles O1, each row by `decode_eq_ok_iff`. -/
theorem opcodeMap : Obligations.OpcodeMap := fun w =>
  ⟨decode_eq_ok_iff w .count, decode_eq_ok_iff w .build, decode_eq_ok_iff w .gentab, decode_eq_ok_iff w .pack,
    decode_eq_ok_iff w .unpack, decode_eq_ok_iff w .chktab, decode_eq_ok_iff w .encode, decode_eq_ok_iff w .decode⟩

/-- A word is its two fields, `zero` above `opc` (30_encoding.md R91). -/
theorem zeroField_append_opcField (w : Word) : zeroField w ++ opcField w = w := by
  apply BitVec.eq_of_toNat_eq
  have hopc : (opcField w).toNat = w.toNat % 2 ^ 8 := rfl
  have hzero : (zeroField w).toNat = w.toNat / 2 ^ 8 := by
    rw [zeroField, BitVec.extractLsb'_toNat, Nat.shiftRight_eq_div_pow]
    exact Nat.mod_eq_of_lt (Nat.div_lt_of_lt_mul w.isLt)
  rw [BitVec.toNat_append, ← Nat.shiftLeft_add_eq_or_of_lt (opcField w).isLt, Nat.shiftLeft_eq, hopc, hzero]
  exact Nat.div_add_mod' _ _

theorem decode_encode (i : Instr) : decode (encode i) = .ok i :=
  match i with
  | .count => Laws.RoundTrip.count.1
  | .build => Laws.RoundTrip.build.1
  | .gentab => Laws.RoundTrip.gentab.1
  | .pack => Laws.RoundTrip.pack.1
  | .unpack => Laws.RoundTrip.unpack.1
  | .chktab => Laws.RoundTrip.chktab.1
  | .encode => Laws.RoundTrip.encode.1
  | .decode => Laws.RoundTrip.decode.1

theorem eq_encode_of_decode {w : Word} {i : Instr} (h : decode w = .ok i) : w = encode i := by
  obtain ⟨hz, hopc⟩ := (decode_eq_ok_iff w i).1 h
  rw [← zeroField_append_opcField w, hz, hopc, encode]

/-- Settles O2: an accepted word's two fields are those of the encoder's word. -/
theorem decodeEncodeAgree : Obligations.DecodeEncodeAgree :=
  ⟨fun i _ => decode_encode i, fun _ _ => eq_encode_of_decode⟩

/-- Settles O3: the accepted words are encoder's words; of the others two have a zero field that is 0, the last has
not. -/
theorem wordsDecode : Obligations.WordsDecode := by
  refine ⟨decode_encode .count, decode_encode .pack, decode_encode .decode, if_pos rfl, if_pos rfl, if_neg ?_⟩
  decide

/-! ## The fields of a record -/

@[simp] theorem fieldBytes_length (n v : Nat) : (fieldBytes n v).length = n := by
  induction n generalizing v with
  | zero => rfl
  | succ n ih => rw [fieldBytes, List.length_cons, ih]

theorem fieldValue_fieldBytes {n v : Nat} (h : v < 256 ^ n) : fieldValue (fieldBytes n v) = v := by
  induction n generalizing v with
  | zero => exact (Nat.lt_one_iff.1 h).symm
  | succ n ih =>
    have hv : v / 256 < 256 ^ n := Nat.div_lt_of_lt_mul (by rwa [pow_succ'] at h)
    rw [fieldBytes, fieldValue, ih hv, BitVec.toNat_ofNat]
    exact Nat.mod_add_div v 256

theorem fieldBytes_eq_map (n v : Nat) :
    fieldBytes n v = (List.range n).map fun j => BitVec.ofNat 8 (v >>> (8 * j)) := by
  induction n generalizing v with
  | zero => rfl
  | succ n ih =>
    have hbyte : ∀ j, (v / 256) >>> (8 * j) = v >>> (8 * (j + 1)) := fun j => by
      rw [Nat.mul_succ, Nat.add_comm, Nat.shiftRight_add, Nat.shiftRight_eq_div_pow v]
    rw [fieldBytes, ih, List.range_succ_eq_map, List.map_cons, List.map_map]
    exact congrArg _ (List.map_congr_left fun j _ => congrArg _ (hbyte j))

/-- Byte `j` of a field, least significant byte first, holds the field's bits from `8*j` up. -/
theorem fieldBytes_toNat {w : Nat} (x : BitVec w) (n : Nat) :
    fieldBytes n x.toNat = (List.range n).map fun j => x.extractLsb' (8 * j) 8 := fieldBytes_eq_map n x.toNat

@[simp] theorem orderedBytes_length (order : TableByteOrder) (bytes : List Byte) :
    (orderedBytes order bytes).length = bytes.length := by
  cases order <;> simp [orderedBytes]

@[simp] theorem orderedBytes_orderedBytes (order : TableByteOrder) (bytes : List Byte) :
    orderedBytes order (orderedBytes order bytes) = bytes := by
  cases order <;> simp [orderedBytes]

/-! ## Records and tables -/

@[simp] theorem recordBytes_length (order : TableByteOrder) (e : Entry) : (recordBytes order e).length = 7 := by
  simp [recordBytes]

theorem entryOfRecord_recordBytes (order : TableByteOrder) {e : Entry} (hpat : e.pat < 2 ^ 16) (hlen : e.len < 2 ^ 8) :
    entryOfRecord order (recordBytes order e) = e := by
  have hsym : e.sym.toNat < 256 ^ 4 := e.sym.isLt
  have symBytes : (recordBytes order e).take 4 = orderedBytes order (fieldBytes 4 e.sym.toNat) := by simp [recordBytes]
  have patBytes : ((recordBytes order e).drop 4).take 2 = orderedBytes order (fieldBytes 2 e.pat) := by
    simp [recordBytes]
  have lenBytes : ((recordBytes order e).drop 6).take 1 = fieldBytes 1 e.len := by
    rw [recordBytes, List.drop_left' (by simp)]
    exact List.take_of_length_le (by simp)
  rw [entryOfRecord, symBytes, patBytes, lenBytes, orderedBytes_orderedBytes, orderedBytes_orderedBytes,
    fieldValue_fieldBytes hsym, fieldValue_fieldBytes hpat, fieldValue_fieldBytes hlen, BitVec.ofNat_toNat,
    BitVec.setWidth_eq]

theorem tableBytes_cons (order : TableByteOrder) (e : Entry) (rest : List Entry) :
    tableBytes order (e :: rest) = recordBytes order e ++ tableBytes order rest := List.flatMap_cons

/-- Settles O5, by induction on the table: the first 7 bytes are the first record, and the reader takes them off. -/
theorem tableRoundTrip : Obligations.TableRoundTrip := by
  intro order table hfit
  induction table with
  | nil => exact ⟨rfl, rfl⟩
  | cons e rest ih =>
    obtain ⟨⟨hpat, hlen⟩, hrest⟩ := List.forall_mem_cons.1 hfit
    obtain ⟨hlength, hread⟩ := ih hrest
    have hrecord := recordBytes_length order e
    rw [tableBytes_cons, List.length_cons]
    constructor
    · rw [List.length_append, hrecord, hlength, Nat.mul_succ, Nat.add_comm]
    · rw [tableOfBytes, List.take_left' hrecord, List.drop_left' hrecord, entryOfRecord_recordBytes order hpat hlen,
        hread]

/-- Settles O4: each field's bytes are its bits by `fieldBytes_toNat`. -/
theorem recordLayout : Obligations.RecordLayout := by
  refine ⟨tableBytes_cons, fun sym pat len => ?_⟩
  have hlen : fieldBytes 1 len.toNat = [len] := by simp [fieldBytes]
  simp only [recordBytes, fieldBytes_toNat sym, fieldBytes_toNat pat, hlen]
  exact ⟨rfl, rfl⟩

end Sys2Proof.Machine
end

section
/-! Lines of a host script as runs (30_encoding.md R102, R103): `WAIT`, `RUN m`, a column of memory writes, `WR name, v`
and `SYMS v0, v1, ...`. -/

namespace Sys2Proof.Machine

/-! ## Runs -/

theorem run_succ {s t : State} (h : step s = .next t) (k : Nat) : core.run (k + 1) s = core.run k t := by
  simp only [Host.Core.run, show core.step s = .next t from h]

theorem run_add {s t : State} {j : Nat} (h : core.run j s = .next t) (k : Nat) :
    core.run (j + k) s = core.run k t := by
  induction j generalizing s with
  | zero => cases h; rw [Nat.zero_add]
  | succ j ih =>
    cases hs : step s with
    | next u =>
      rw [run_succ hs] at h
      rw [Nat.succ_add, run_succ hs]
      exact ih h
    | fault r => cases r
    | refused r => simp only [Host.Core.run, show core.step s = .refused r from hs] at h; cases h

/-! ## `WAIT` -/

/-- The state with another number of host moves to come before the running command's completion. -/
def State.withLatency (s : State) (l : Nat) : State := { s with latency := l }

theorem engineTurn_withLatency_zero {s : State} (h : s.busy = true) : engineTurn (s.withLatency 0) = true := by
  rw [engineTurn, show (s.withLatency 0).busy = true from h]; rfl

theorem step_wait_busy {s : State} {rest : List HostMove} (hb : s.busy = true) (hi : s.inputs = .wait :: rest)
    (ht : engineTurn s = false) : step s = .next (s.withLatency (s.latency - 1)) := by
  refine (step_host hi ht).trans (congrArg _ ((if_pos hb).trans ?_))
  rw [State.withLatency, hi]

theorem step_wait_idle {s : State} {rest : List HostMove} (hb : s.busy = false) (hi : s.inputs = .wait :: rest) :
    step s = .next { s with inputs := rest, latency := s.latency - 1, window := false } :=
  (step_host hi (engineTurn_idle hb)).trans (congrArg _ (if_neg (Bool.eq_false_iff.1 hb)))

/-- While a command runs `WAIT` polls until the engine's turn comes, and changes nothing else (30_encoding.md R102). -/
theorem run_wait_busy {s : State} {rest : List HostMove} (hb : s.busy = true) (hi : s.inputs = .wait :: rest) :
    core.run s.latency s = .next (s.withLatency 0) := by
  generalize hl : s.latency = l
  induction l generalizing s with
  | zero => exact congrArg Host.Outcome.next (show s = s.withLatency 0 by rw [← hl]; rfl)
  | succ l ih =>
    have hturn : engineTurn s = false := by simp [engineTurn, hl, hi]
    exact (run_succ (step_wait_busy hb hi hturn) l).trans (ih hb hi (by simp [State.withLatency, hl]))

theorem finish_idle (i : Instr) (s : State) : (s.finish i (stageOf i s)).busy = false := by
  obtain ⟨e, he⟩ := finish_ends i s
  rw [State.busy, he, busyFlag_completed]

/-- A host that waits for an undisturbed command reaches the state past the `WAIT` with the command's results, whatever
the latency: the polls change nothing a command looks at (`finish_onHost`). -/
theorem run_wait_command {s : State} {i : Instr} {rest : List HostMove} (hb : s.busy = true) (hz : s.hazard = false)
    (hop : s.op = .command i) (hi : s.inputs = .wait :: rest) :
    ∃ t, core.run (s.latency + 2) s = .next t ∧ t.inputs = rest ∧ t.window = false ∧
      t.status = (s.finish i (stageOf i s)).status ∧ t.regs = (s.finish i (stageOf i s)).regs ∧
      t.mem = (s.finish i (stageOf i s)).mem := by
  have hend := (step_engine (engineTurn_withLatency_zero hb) hz hop).trans (exec_eq i _)
  have hwait := step_wait_idle (finish_idle i _) ((framed_finish i (s.withLatency 0)).inputs.trans hi)
  refine ⟨_, (run_add (run_wait_busy hb hi) 2).trans ((run_succ hend 1).trans (run_succ hwait 0)), rfl, rfl, ?_⟩
  exact finish_onHost i s (s.withLatency 0)

/-- Settles O21: the launch is one step, `run_wait_command` the rest; the moves taken off the host's list are nothing
`exec` looks at. -/
theorem runLineRunsCommand : Obligations.RunLineRunsCommand := by
  intro s i rest hidle hi
  let launched : State := State.launch { s with inputs := .wait :: rest, latency := s.latency - 1 } (encode i)
  have hlaunch : step s = .next launched :=
    (step_host hi (engineTurn_idle hidle)).trans (congrArg _ (if_neg (Bool.eq_false_iff.1 hidle)))
  have hop : launched.op = .command i := opOfWord_of_decode (decode_encode i)
  obtain ⟨t, hrun, hinputs, hwindow, hstatus, hregs, hmem⟩ :=
    run_wait_command (s := launched) busyFlag_launched rfl hop rfl
  obtain ⟨hstatus', hregs', hmem'⟩ := finish_onHost i (s.launch (encode i)) launched
  exact ⟨_, t, _, (run_succ hlaunch _).trans hrun, exec_eq i _, hinputs, hstatus.trans hstatus', hregs.trans hregs',
    hmem.trans hmem', hwindow⟩

/-! ## Entries `n ..` of one field -/

/-- The memory after writes of one field of entries `n ..`. -/
def Memory.writeEntries (m : Memory) (p : Params) (c : Column) : Nat → List Nat → Memory
  | _, [] => m
  | n, v :: vs => (m.writeField p c n v).writeEntries p c (n + 1) vs

theorem fieldAt_congr {s t : State} (hcfg : t.cfg = s.cfg) (hmem : t.mem = s.mem) (c : Column) (k : Nat) :
    t.fieldAt c k = s.fieldAt c k :=
  fieldAt_of_sameSpace hcfg (hmem ▸ Memory.sameSpace_refl _ _) k

theorem fieldAt_writeEntries_other (s : State) {c d : Column} {n k : Nat} (vs : List Nat) (h : d ≠ c ∨ k < n) :
    State.fieldAt { s with mem := s.mem.writeEntries s.cfg c n vs } d k = s.fieldAt d k := by
  induction vs generalizing s n with
  | nil => rfl
  | cons v vs ih =>
    refine (ih { s with mem := s.mem.writeField s.cfg c n v } (h.imp_right Nat.lt_succ_of_lt)).trans ?_
    exact fieldAt_writeField_other s c d n k v (h.imp_right Nat.ne_of_lt)

theorem fieldAt_writeEntries_same (s : State) (c : Column) (n k : Nat) {vs : List Nat} (h : k < vs.length) :
    State.fieldAt { s with mem := s.mem.writeEntries s.cfg c n vs } c (n + k) =
      reduceTo (fieldWidth s.cfg c) vs[k] := by
  induction vs generalizing s n k with
  | nil => cases h
  | cons v vs ih =>
    let written : State := { s with mem := s.mem.writeField s.cfg c n v }
    cases k with
    | zero =>
      exact (fieldAt_writeEntries_other written vs (.inr n.lt_succ_self)).trans (fieldAt_writeField_same s c n v)
    | succ k =>
      rw [show n + (k + 1) = n + 1 + k by omega]
      exact ih written (n + 1) k (Nat.lt_of_succ_lt_succ h)

/-! ## Lines that write, on an idle engine outside the hazard window -/

theorem memIndexWf_of_not_exceeds {p : Params} {c : Column} {n k : Nat}
    (h : exceeds (capacity p (spaceOf c)) n = false) (hk : k < n) : memIndexWf p c k = true := by
  unfold memIndexWf
  cases hcap : capacity p (spaceOf c) with
  | none => rfl
  | some b =>
    rw [hcap] at h
    exact decide_eq_true (hk.trans_le (not_lt.1 (of_decide_eq_false h)))

theorem step_memWrite {s : State} {c : Column} {i v : Nat} {rest : List HostMove} (hb : s.busy = false)
    (hw : s.window = false) (hc : hostWritesSpace (spaceOf c) = true) (hwf : memIndexWf s.cfg c i = true)
    (hi : s.inputs = .memWrite c i v :: rest) :
    step s = .next { s with mem := s.mem.writeField s.cfg c i v, inputs := rest, latency := s.latency - 1 } :=
  (step_host hi (engineTurn_idle hb)).trans <| (if_pos hwf).trans <|
    congrArg _ <| (if_neg (Bool.eq_false_iff.1 hw)).trans (if_pos hc)

theorem run_memWrites {s : State} {c : Column} {n : Nat} {vs : List Nat} {rest : List HostMove}
    (hb : s.busy = false) (hw : s.window = false) (hc : hostWritesSpace (spaceOf c) = true)
    (hwf : ∀ k < n + vs.length, memIndexWf s.cfg c k = true)
    (hi : s.inputs = (numbered n vs).map (fun x => .memWrite c x.1 x.2) ++ rest) :
    core.run vs.length s = .next { s with
      mem := s.mem.writeEntries s.cfg c n vs, inputs := rest, latency := s.latency - vs.length } := by
  induction vs generalizing s n with
  | nil => subst hi; rfl
  | cons v vs ih =>
    rw [List.length_cons] at hwf
    have hstep := step_memWrite hb hw hc (hwf n (by omega)) hi
    have hrest := ih (n := n + 1) (s := { s with
      mem := s.mem.writeField s.cfg c n v, inputs := _, latency := s.latency - 1 })
      hb hw (fun k hk => hwf k (by omega)) rfl
    refine (run_succ hstep vs.length).trans (hrest.trans ?_)
    rw [List.length_cons, Nat.sub_add_eq, Nat.sub_right_comm]
    rfl

theorem regAccessWf_offsetOf (r : CountReg) : regAccessWf 32 (offsetOf r) = true := by cases r <;> rfl

theorem offsetOf_ne_cmd (r : CountReg) : offsetOf r ≠ 0x00 := by cases r <;> decide

theorem writeReg_offsetOf (s : State) {r : CountReg} (v : Word) (h : hostWritesReg r = true) :
    s.writeReg (offsetOf r) v = { s with regs := s.regs.set r v.toNat } := by
  simp [State.writeReg, h]

theorem step_lineWr {s : State} {r : CountReg} {v : Nat} {rest : List HostMove} (hb : s.busy = false)
    (hw : s.window = false) (hr : hostWritesReg r = true) (hi : s.inputs = lineWr r v :: rest) :
    step s = .next { s with regs := s.regs.set r (v % 2 ^ 32), inputs := rest, latency := s.latency - 1 } := by
  refine (step_host hi (engineTurn_idle hb)).trans <| (if_pos (regAccessWf_offsetOf r)).trans <| congrArg _ ?_
  rw [State.writeRegMove, if_neg (offsetOf_ne_cmd r)]
  exact (if_neg (Bool.eq_false_iff.1 hw)).trans (writeReg_offsetOf _ _ hr)

theorem symList_eq {t : State} {vs : List Word} (hlen : t.regs.symLen = vs.length)
    (hsym : ∀ k (hk : k < vs.length), t.fieldAt .sym k = vs[k].toNat) : t.symList = vs := by
  rw [State.symList, hlen]
  exact map_range_getElem vs _ fun k hk => BitVec.eq_of_toNat_eq (hsym k hk)

/-- Settles O22: the symbols are one run of memory writes, by induction on the list, and `SYM_LEN` one step more. -/
theorem symsLineLoads : Obligations.SymsLineLoads := by
  intro s vs rest hb hw hlen hcap hi
  let syms := vs.map BitVec.toNat
  have hsyms : syms.length = vs.length := List.length_map _
  have hrun := run_memWrites (c := .sym) (n := 0) (vs := syms) hb hw rfl
    (fun k hk => memIndexWf_of_not_exceeds (c := .sym) hcap (by omega)) (hi.trans (List.append_assoc _ _ _))
  rw [hsyms] at hrun
  have hstep := step_lineWr (r := .symLen) (v := vs.length) (rest := rest) (s := { s with
    mem := s.mem.writeEntries s.cfg .sym 0 syms, inputs := _, latency := s.latency - vs.length }) hb hw rfl rfl
  refine ⟨_, (run_add hrun 1).trans (run_succ hstep 0), symList_eq (Nat.mod_eq_of_lt hlen) fun k hk => ?_, rfl, rfl,
    fun r hr => get_set_other _ _ _ _ hr.symm, fun c hc k => ?_⟩
  · have hread := fieldAt_writeEntries_same s .sym 0 k (hsyms ▸ hk)
    rw [Nat.zero_add, List.getElem_map] at hread
    exact (fieldAt_congr rfl rfl .sym k).trans (hread.trans (Nat.mod_eq_of_lt vs[k].isLt))
  · exact (fieldAt_congr rfl rfl c k).trans (fieldAt_writeEntries_other s syms (.inl hc))

end Sys2Proof.Machine
end

section
/-! `COUNT`: the output contract and the errors (40_count.md R121 to R126). What is said of the list is said of `freqList`,
the list a success writes; when it succeeds and with which kind it fails are the branches of `countStage_eq`. -/

namespace Sys2Proof.Machine

/-! ## How a stage's result ends the command -/

theorem exec_of_ok {i : Instr} {s t : State} (h : stageOf i s = .ok t) : exec i s = .next t.complete := by
  rw [exec_eq, h, State.finish]

theorem exec_of_raise {i : Instr} {s : State} {e : ErrKind} (h : stageOf i s = .error (.raise e)) :
    ∃ t, exec i s = .next t ∧ t.endsWith e := by
  rw [exec_eq, h]
  exact ⟨_, rfl, raise_status s _ _ e⟩

/-! ## The list -/

/-- Ascending by frequency, equal frequencies in order of first occurrence (40_count.md R124, R125). -/
theorem freqList_sorted (cs : List Word) : (freqList cs).Pairwise fun x y =>
    x.freq < y.freq ∨ (x.freq = y.freq ∧ cs.idxOf x.cp < cs.idxOf y.cp) := by
  have hseen := tallyAll_first_seen cs
  rw [List.pairwise_map] at hseen
  exact sortByFreq_stable (tallyAll_nodup cs [] .nil).of_map hseen

theorem freqList_length_le (cs : List Word) : (freqList cs).length ≤ cs.length := by
  rw [freqList_length]
  exact cs.dedup_sublist.length_le

theorem freqList_length_pos {cs : List Word} (h : 0 < cs.length) : 0 < (freqList cs).length := by
  obtain ⟨c, hc⟩ := List.exists_mem_of_length_pos h
  simpa using List.length_pos_of_mem ((freqList_cps cs c).2 hc)

/-! ## The obligations -/

/-- Settles O28: within capacity `COUNT` writes `freqList` of its input and leaves the entries above it free. -/
theorem countResult : Obligations.CountResult := by
  intro s hpos hn hfit hk
  rw [← freqList_length] at hk
  have hstage : stageOf .count s = .ok (s.start.writeFl (freqList s.symList)) := by
    rw [stageOf, countStage_eq, hn, if_neg Bool.false_ne_true, if_neg hpos.ne', if_pos ⟨hfit, hk⟩]
  have hlist : (s.start.writeFl (freqList s.symList)).complete.flList = freqList s.symList := flList_writeFl _ _
  have hlen := symList_length s
  refine ⟨_, exec_of_ok hstage, rfl, freqList_length_pos (hlen ▸ hpos), hlen ▸ freqList_length_le _,
    freqList_length _, ?_⟩
  rw [hlist]
  exact ⟨freqList_nodup _, freqList_cps _, freqList_freq _, freqList_sorted _, freeFrom_writeFl _ _⟩

/-- Settles O29: the tests of `countStage_eq`, in their order. -/
theorem countErrors : Obligations.CountErrors := by
  intro s
  refine ⟨fun hn => exec_of_raise ?_, fun hn h0 => exec_of_raise ?_, fun hn h0 hover => exec_of_raise ?_⟩ <;>
    rw [stageOf, countStage_eq, hn]
  · rw [if_pos rfl]
  · rw [if_neg Bool.false_ne_true, if_pos h0]
  · rw [if_neg Bool.false_ne_true, if_neg h0, if_neg]
    rintro ⟨hfit, hk⟩
    rcases hover with ⟨c, hc, hbad⟩ | hbad
    · exact absurd (hfit c hc) (Bool.eq_false_iff.1 hbad)
    · rw [freqList_length, hbad] at hk
      cases hk

end Sys2Proof.Machine
end

section
/-! `BUILD`: the merge result, the two-symbol case and the errors (41_build.md R150 to R155). What `NodesOk` says of the list
a success writes is read off `NODE` as the state holds it; the errors are the branches of `buildStage_eq`. -/

namespace Sys2Proof.Machine

/-! ## The list of nodes as `NODE` holds it -/

section
variable {t : State} {l : List Node} (hat : ∀ j < l.length, t.nodeAt j = nth l j)
include hat

theorem aliveAt_iff_aliveIn {j x : Nat} (hj : j ≤ l.length) : aliveAt t j x ↔ aliveIn l j x := by
  refine and_congr_right fun _ => forall₂_congr fun q hq => ?_
  rw [isChild, hat q (by omega)]

theorem keyLe_iff_keyLeIn {x y : Nat} (hx : x < l.length) (hy : y < l.length) : keyLe t x y ↔ keyLeIn l x y := by
  rw [keyLe, hat x hx, hat y hy]

/-- Node `j` of the state is the merge of the two lowest nodes of the collection (41_build.md R143). -/
theorem merged_of_innerOk {j : Nat} (hj : j < l.length) (h : InnerOk l j) :
    (t.nodeAt j).leaf = false ∧ (t.nodeAt j).sym = 0 ∧
      aliveAt t j (t.nodeAt j).left ∧ aliveAt t j (t.nodeAt j).right ∧ (t.nodeAt j).left ≠ (t.nodeAt j).right ∧
      (t.nodeAt j).freq = (t.nodeAt (t.nodeAt j).left).freq + (t.nodeAt (t.nodeAt j).right).freq ∧
      (∀ x, aliveAt t j x → keyLe t (t.nodeAt j).left x) ∧
      ∀ x, aliveAt t j x → x ≠ (t.nodeAt j).left → keyLe t (t.nodeAt j).right x := by
  have hleft : (nth l j).left < l.length := h.leftAlive.1.trans hj
  have hright : (nth l j).right < l.length := h.rightAlive.1.trans hj
  simp only [hat j hj, hat _ hleft, hat _ hright, aliveAt_iff_aliveIn hat hj.le]
  exact ⟨h.leaf, h.sym, h.leftAlive, h.rightAlive, h.ne, h.freq,
    fun x hx => (keyLe_iff_keyLeIn hat hleft (hx.1.trans hj)).2 (h.leftLowest x hx),
    fun x hx hne => (keyLe_iff_keyLeIn hat hright (hx.1.trans hj)).2 (h.rightLowest x hx hne)⟩

end

theorem nodeAt_writeNodes_nth (s : State) (l : List Node) (r : Nat) : ∀ j < l.length,
    (s.writeNodes l r).nodeAt j = nth l j := by
  intro j hj
  rw [nodeAt_writeNodes _ _ _ _ hj, nth, List.getD_eq_getElem _ _ hj]

/-! ## The obligations -/

/-- Settles O30: the nodes a success writes meet `NodesOk`, and the state holds them. -/
theorem buildMergesLowest : Obligations.BuildMergesLowest := by
  intro s hpos hk hfit
  have hbuild := (buildStage_eq s).2.2 hk hpos.ne'
  rw [if_pos hfit] at hbuild
  obtain ⟨l, hstage, hnodes, hlen, htotal⟩ := hbuild
  have hat := nodeAt_writeNodes_nth s.start l (2 * s.regs.flLen - 2)
  have htree := buildStage_tree hstage
  refine ⟨_, exec_of_ok (i := .build) hstage, rfl, hlen, rfl, fun j hj => ?_, fun j hj hjl => ?_, ?_, htree,
    freeFrom_writeNodes s.start l (2 * s.regs.flLen - 2)⟩
  · have hleaf := hnodes.leaves j (by rwa [flList_length])
    simp only [State.flList, List.getElem_map, List.getElem_range] at hleaf
    exact (hat j (by omega)).trans hleaf
  · exact merged_of_innerOk hat hjl (hnodes.inner j (by rwa [flList_length]) hjl)
  · exact (congrArg Node.freq (hat (2 * s.regs.flLen - 2) (by omega))).trans htotal

/-- Settles O32: the tests of `buildStage_eq`, in their order. -/
theorem buildErrors : Obligations.BuildErrors := by
  intro s
  obtain ⟨htooLong, hempty, hloop⟩ := buildStage_eq s
  refine ⟨fun hk => exec_of_raise (htooLong hk), fun hk h0 => exec_of_raise (hempty hk h0), fun hk h2 hsum => ?_⟩
  have hraise := hloop hk (by omega)
  rw [if_neg] at hraise
  · exact exec_of_raise hraise
  · rintro (h1 | hfit)
    · omega
    · rw [hfit] at hsum
      cases hsum

/-- Settles O31: the one merge of `buildMergesLowest` has nodes 0 and 1 to take, and takes the lower key first. -/
theorem buildTwoSymbols : Obligations.BuildTwoSymbols := by
  intro s hlen hk hfit
  have hsum : (s.flList.map Symbol.freq).sum = (s.flAt 0).freq + (s.flAt 1).freq := by
    simp [State.flList, hlen, List.range_succ]
  obtain ⟨t, hexec, hok, hcnt, hroot, hleaves, hmerged, -⟩ :=
    buildMergesLowest s (by omega) (by rwa [hlen]) (.inr (by rwa [hsum]))
  rw [hlen] at hcnt hroot hleaves
  obtain ⟨hleaf, hsym, ⟨hleft, -⟩, hright, hne, hfreq, hlowest, -⟩ := hmerged 2 hlen.le (by omega)
  have hle := hlowest _ hright
  replace hright := hright.1
  have h0 : (t.nodeAt 0).freq = (s.flAt 0).freq := congrArg Node.freq (hleaves 0 (by omega))
  have h1 : (t.nodeAt 1).freq = (s.flAt 1).freq := congrArg Node.freq (hleaves 1 (by omega))
  refine ⟨t, hexec, hok, hcnt, hroot, ?_⟩
  generalize t.nodeAt 2 = n at *
  obtain ⟨leaf, freq, sym, left, right⟩ := n
  dsimp only at *
  obtain ⟨rfl, rfl⟩ | ⟨rfl, rfl⟩ : (left = 0 ∧ right = 1) ∨ (left = 1 ∧ right = 0) := by omega
  · have hfirst : (s.flAt 0).freq ≤ (s.flAt 1).freq := by omega
    rw [if_pos hfirst, if_pos hfirst, hleaf, hsym, hfreq, h0, h1]
  · have hsecond : ¬ (s.flAt 0).freq ≤ (s.flAt 1).freq := by omega
    rw [if_neg hsecond, if_neg hsecond, hleaf, hsym, hfreq, h0, h1, Nat.add_comm]

end Sys2Proof.Machine
end

section
/-! `GENTAB`: the paths it writes, the single leaf and the errors (42_gentab.md R171 to R179), and the `ENCODE` whose
codes are sure to fit (R178). What `GENTAB` does on a tree is the branches of `gentabStage_eq`; what it writes there is
`TableOk`. -/

namespace Sys2Proof.Machine

/-! ## The table as `CT` holds it -/

theorem ctAt_writeCt (s : State) (l : List Entry) (i : Nat) (hi : i < l.length) : (s.writeCt l).ctAt i = l[i] := by
  simp [State.ctAt, read_ofList, hi]

theorem writeCt_injective {s : State} {l m : List Entry} (h : s.writeCt l = s.writeCt m) : l = m := by
  rw [← ctList_writeCt s l, h, ctList_writeCt]

/-! ## The leaves of the tree in `NODE` -/

/-- The paths of the whole tree end in its leaves, the nodes below `(NODE_CNT + 1) / 2` (10_state.md R36), each once. -/
theorem paths_ends_perm {s : State} (h : TreeOk s) {u : HTree} (hu : u.Rep s)
    (hperm : u.nodes.Perm (List.range s.regs.nodeCnt)) :
    (u.paths.map Prod.snd).Perm (List.range ((s.regs.nodeCnt + 1) / 2)) := by
  obtain ⟨hodd, -, hleaf, -⟩ := h
  rw [paths_leaves hu, ← filter_range_lt s.regs.nodeCnt _ (by omega)]
  refine (hperm.filter _).trans (.of_eq (List.filter_congr fun j hj => ?_))
  rw [Bool.eq_iff_iff, hleaf j (List.mem_range.1 hj), decide_eq_true_iff]

/-- A tree of `k` leaves is at most `k - 1` deep. -/
theorem walk_length_lt {s : State} (h : TreeOk s) {bs : List Bool} {j : Nat} (hw : walk s s.regs.root bs = some j)
    (hj : (s.nodeAt j).leaf = true) : bs.length < (s.regs.nodeCnt + 1) / 2 := by
  obtain ⟨u, hu, htop, hperm⟩ := root_tree h
  have hcount := (paths_ends_perm h hu hperm).length_eq
  rw [List.length_map, List.length_range] at hcount
  rw [← hcount]
  exact u.path_lt_leaves _ (walk_paths hu (htop ▸ hw) hj)

/-! ## Success -/

theorem gentabStage_leaf {s : State} (h : TreeOk s) (hleaf : (s.nodeAt s.regs.root).leaf = true)
    (hfit : codeTooLong s.cfg 1 = false) :
    gentabStage s = .ok (s.start.writeCt [{ sym := (s.nodeAt s.regs.root).sym, pat := 0, len := 1 }]) := by
  obtain ⟨u, -, -, -, hstage⟩ := gentabStage_eq h
  rw [hstage, if_pos hleaf, hfit, if_neg Bool.false_ne_true]

/-- The traversal of a tree all of whose codes fit (42_gentab.md R171, R177). -/
theorem gentabStage_inner {s : State} (h : TreeOk s) (hinner : (s.nodeAt s.regs.root).leaf = false)
    (hfit : ∀ bs j, walk s s.regs.root bs = some j → (s.nodeAt j).leaf = true → codeTooLong s.cfg bs.length = false) :
    ∃ u : HTree, u.Rep s ∧ u.top = s.regs.root ∧ u.nodes.Perm (List.range s.regs.nodeCnt) ∧
      gentabStage s = .ok (s.start.writeCt (u.entries s 0 0)) := by
  obtain ⟨u, hu, htop, hperm, hstage⟩ := gentabStage_eq h
  refine ⟨u, hu, htop, hperm, ?_⟩
  rw [hstage, hinner, if_neg Bool.false_ne_true, if_neg]
  rintro ⟨x, hx, hlong⟩
  obtain ⟨hw, hleaf, -⟩ := paths_walk hu x hx
  rw [hfit x.1 x.2 (htop ▸ hw) hleaf] at hlong
  cases hlong

/-- Entry `i` carries the path to its leaf and the leaf's symbol (42_gentab.md R172). -/
theorem entries_getElem (s : State) (u : HTree) {i : Nat} (hi : i < (u.entries s 0 0).length) :
    ∃ x ∈ u.paths, (u.paths.map Prod.snd)[i]? = some x.2 ∧ (u.entries s 0 0)[i].code = x.1 ∧
      (u.entries s 0 0)[i].sym = (s.nodeAt x.2).sym := by
  have hp : i < u.paths.length := by rwa [HTree.entries, List.length_map] at hi
  refine ⟨u.paths[i], List.getElem_mem hp, by simp [hp], ?_, by simp [HTree.entries]⟩
  simp [HTree.entries, Entry.code, codeBits_bitsVal]

/-! ## The obligations on `GENTAB` -/

/-- Settles O33: the leaves stand in the order of the tree's paths, an entry's code is its path, and the rest is
`TableOk` of the entries. -/
theorem gentabWritesPaths : Obligations.GentabWritesPaths := by
  intro s htree hinner hfit
  obtain ⟨u, hu, htop, hperm, hstage⟩ := gentabStage_inner htree hinner hfit
  obtain ⟨l, hl, htable⟩ := gentabStage_table htree hstage
  obtain rfl := writeCt_injective hl
  have hat : ∀ i (hi : i < (u.entries s 0 0).length),
      (s.start.writeCt (u.entries s 0 0)).complete.ctAt i = (u.entries s 0 0)[i] := ctAt_writeCt s.start _
  refine ⟨_, u.paths.map Prod.snd, exec_of_ok (i := .gentab) hstage, rfl, htable.length, ?_, fun i hi => ?_,
    fun k hk i hik => ?_, freeFrom_writeCt s.start _⟩
  · exact (paths_ends_perm htree hu hperm).trans (.of_eq (congrArg List.range htable.length.symm))
  · obtain ⟨x, hx, hend, hcode, hsym⟩ := entries_getElem s u hi
    obtain ⟨hw, hleaf, -⟩ := paths_walk hu x hx
    obtain ⟨hpat, hpos, hlong⟩ := htable.wf _ (List.getElem_mem hi)
    rw [hat i hi, hcode, ← htop]
    exact ⟨x.2, hend, hleaf, hw, hsym, hpat, hpos, (Bool.or_eq_false_iff.1 hlong).1⟩
  · rw [hat k hk, hat i (hik.trans hk)]
    exact List.pairwise_iff_getElem.1 htable.parts i k (hik.trans hk) hk hik

/-- Settles O34: the branch of `gentabStage_eq` for a root that is a leaf. -/
theorem gentabSingleLeaf : Obligations.GentabSingleLeaf := by
  intro s htree hleaf hfit
  exact ⟨_, exec_of_ok (i := .gentab) (gentabStage_leaf htree hleaf hfit), rfl, rfl,
    ctAt_writeCt s.start [_] 0 Nat.zero_lt_one, freeFrom_writeCt s.start _⟩

/-- Settles O35: on a tree the branches of `gentabStage_eq`, a leaf that is too deep being the end of a path; without
one the tests of `gentabStage_def`. -/
theorem gentabErrors : Obligations.GentabErrors := by
  intro s
  refine ⟨fun h0 => exec_of_raise (gentabStage_empty h0),
    fun htree hinner ⟨bs, j, hw, hleaf, hlong⟩ => exec_of_raise ?_,
    fun htree hleaf hlong => exec_of_raise ?_, fun hcap => exec_of_raise ?_⟩ <;>
    rw [stageOf]
  · obtain ⟨u, hu, htop, -, hstage⟩ := gentabStage_eq htree
    rw [hstage, hinner, if_neg Bool.false_ne_true, if_pos ⟨(bs, j), walk_paths hu (htop ▸ hw) hleaf, hlong⟩]
  · obtain ⟨u, -, -, -, hstage⟩ := gentabStage_eq htree
    rw [hstage, if_pos hleaf, if_pos hlong]
  · rw [gentabStage_def, if_pos hcap]
    by_cases h0 : s.regs.nodeCnt = 0
    · rw [if_pos h0, if_pos h0]
    · rw [if_neg h0, if_neg h0]

/-! ## `ENCODE` with `L_MAX` its only capacity -/

theorem codeTooLong_eq_false {p : Params} {l n : Nat} (hl : p.lMax = some l) (h : n ≤ l) (h8 : n ≤ 255) :
    codeTooLong p n = false := by
  simpa [codeTooLong, exceeds, lenWidth, fits, hl] using ⟨h, Nat.lt_succ_of_le h8⟩

theorem countStage_uncapped {s : State} (hn : s.cfg.nMax = none) (hk : s.cfg.kMax = none) (hf : s.cfg.freqW = none)
    (h0 : s.regs.symLen ≠ 0) : countStage s = .ok (s.start.writeFl (freqList s.symList)) := by
  simp [countStage_eq, exceeds, fits, hn, hk, hf, h0]

/-- `BUILD` without `K_MAX` and `FREQ_W`: the nodes of `k` leaves are `2k - 1` (41_build.md R146). -/
theorem buildStage_uncapped {s : State} (hk : s.cfg.kMax = none) (hf : s.cfg.freqW = none) (h0 : s.regs.flLen ≠ 0) :
    ∃ t, buildStage s = .ok t ∧ t.regs.nodeCnt = 2 * s.regs.flLen - 1 := by
  have hbuild := (buildStage_eq s).2.2 (by rw [hk]; rfl) h0
  rw [if_pos (.inr (by rw [hf]; rfl))] at hbuild
  obtain ⟨l, hstage, -, hlen, -⟩ := hbuild
  exact ⟨_, hstage, hlen⟩

/-- `GENTAB` with an `L_MAX` that leaves room for the deepest tree of so many leaves (42_gentab.md R178). -/
theorem gentabStage_of_shallow {s : State} (h : TreeOk s) {l : Nat} (hl : s.cfg.lMax = some l) (h1 : 1 ≤ l)
    (h8 : l ≤ 255) (hleaves : (s.regs.nodeCnt + 1) / 2 ≤ l + 1) : ∃ t, gentabStage s = .ok t := by
  have hfit : ∀ n ≤ l, codeTooLong s.cfg n = false := fun n hn => codeTooLong_eq_false hl hn (hn.trans h8)
  cases hroot : (s.nodeAt s.regs.root).leaf with
  | true => exact ⟨_, gentabStage_leaf h hroot (hfit 1 h1)⟩
  | false =>
    obtain ⟨u, -, -, -, hstage⟩ := gentabStage_inner h hroot fun bs j hw hj =>
      hfit bs.length (by have := walk_length_lt h hw hj; omega)
    exact ⟨_, hstage⟩

theorem packStage_uncapped {s : State} (hn : s.cfg.nMax = none) (hk : s.cfg.kMax = none) (hb : s.cfg.bMax = none)
    (h0 : s.regs.symLen ≠ 0) {es : List Entry} (hes : s.symList.map (entryOf s.ctList) = es.map some) :
    ∃ t, packStage s = .ok t := by
  rw [packStage_eq, packLoop_found _ _ _ es _ hes (streamTooLong_zero _)]
  simp [exceeds, streamTooLong, hn, hk, hb, h0]

/-- A tree of at most `L_MAX + 1` leaves is at most `L_MAX` deep, and no other stage can fail. -/
theorem encodeStage_of_few_symbols {s : State} {l : Nat} (hn : s.cfg.nMax = none) (hk : s.cfg.kMax = none)
    (hb : s.cfg.bMax = none) (hf : s.cfg.freqW = none) (hl : s.cfg.lMax = some l) (h1 : 1 ≤ l) (h8 : l ≤ 255)
    (h0 : s.regs.symLen ≠ 0) (hfew : (freqList s.symList).length ≤ l + 1) : ∃ t, encodeStage s = .ok t := by
  have hsyms : 0 < (freqList s.symList).length :=
    freqList_length_pos (by rw [symList_length]; exact Nat.pos_of_ne_zero h0)
  have hcount := countStage_uncapped hn hk hf h0
  obtain ⟨b, hbuild, hcnt⟩ := buildStage_uncapped (s := s.start.writeFl (freqList s.symList)) hk hf hsyms.ne'
  replace hcnt : b.regs.nodeCnt = 2 * (freqList s.symList).length - 1 := hcnt
  have hcfgb : b.cfg = s.cfg := (framed_stage (i := .build) hbuild).cfg
  obtain ⟨c, hgentab⟩ := gentabStage_of_shallow (buildStage_tree hbuild) (hcfgb ▸ hl) h1 h8 (by omega)
  have hcfgc : c.cfg = s.cfg := (framed_stage (i := .gentab) hgentab).cfg.trans hcfgb
  obtain ⟨_, hpipe⟩ := pipeline hcount hbuild hgentab
  obtain ⟨es, hes⟩ := hpipe.found
  have hsymLen : c.regs.symLen = s.regs.symLen := by rw [← symList_length, hpipe.syms, symList_length]
  obtain ⟨t, hpack⟩ := packStage_uncapped (hcfgc ▸ hn) (hcfgc ▸ hk) (hcfgc ▸ hb) (hsymLen ▸ h0) hes
  exact ⟨t, encodeStage_of_stages hcount hbuild hgentab hpack⟩

/-- Settles O47: the success is `encodeStage_of_few_symbols`, and what it leaves is `Encoded`. -/
theorem encodeWithinCodeLength : Obligations.EncodeWithinCodeLength := by
  intro s l hn hk hb hf hl h1 h8 hpos hfew
  rw [← freqList_length] at hfew ⊢
  obtain ⟨t, hstage⟩ := encodeStage_of_few_symbols hn hk hb hf hl h1 h8 (by omega) hfew
  obtain ⟨table, es, henc⟩ := encodeStage_encoded hstage
  refine ⟨_, exec_of_ok (i := .encode) hstage, rfl, ?_, henc.ctLen.trans henc.len, fun e he => ?_⟩
  · exact (flList_length t).symm.trans (congrArg List.length henc.freqs)
  · have hmem : e ∈ table := henc.table ▸ he
    have hfit := (henc.valid.1 e hmem).1
    rw [hl, exceeds, decide_eq_false_iff_not] at hfit
    exact ⟨henc.pos e hmem, not_lt.1 hfit⟩

end Sys2Proof.Machine
end

section
/-! `PACK`: the stream it writes and the errors (43_pack.md R191 to R195). A prefix of the input all of whose symbols
have entries is followed by the symbol that decides; the bytes written are read back by `streamBits_writeStream`. -/

namespace Sys2Proof.Machine

/-! ## The input around a symbol -/

theorem symList_split {s : State} {i : Nat} (hi : i < s.regs.symLen) :
    s.symList.take i ++ s.symAt i :: s.symList.drop (i + 1) = s.symList := by
  have hlt : i < s.symList.length := by rwa [symList_length]
  have hget : s.symList[i] = s.symAt i := by simp [State.symList]
  rw [← hget, ← List.drop_eq_getElem_cons hlt, List.take_append_drop]

/-! ## The loop -/

/-- The symbol that decides ends the loop, whatever follows it (43_pack.md R195). -/
theorem packLoop_append_of_error {p : Params} {table : List Entry} {pre : List Word} {w : PackWork} {a : Abort}
    (h : packLoop p table pre w = .error a) (post : List Word) : packLoop p table (pre ++ post) w = .error a := by
  induction pre generalizing w with
  | nil => cases h
  | cons c cs ih =>
    rw [packLoop] at h
    rw [List.cons_append, packLoop]
    cases hc : packSymbol p table c w with
    | error b => simpa only [hc] using h
    | ok w' =>
      simp only [hc] at h ⊢
      exact ih h

/-- A symbol whose code makes the stream too long, all symbols before it having entries (43_pack.md R195). -/
theorem packLoop_tooLong {p : Params} {table : List Entry} {pre : List Word} {c : Word} {es : List Entry} {e : Entry}
    {w : PackWork} (hes : pre.map (entryOf table) = es.map some) (hc : entryOf table c = some e)
    (hw : streamTooLong p w.bl = false) (hlong : streamTooLong p (w.bl + (lensOf es + e.len)) = true)
    (post : List Word) : packLoop p table (pre ++ c :: post) w = .error (.raise .capacityExceeded) := by
  have hfound : (pre ++ [c]).map (entryOf table) = (es ++ [e]).map some := by simp [hes, hc]
  have hlens : lensOf (es ++ [e]) = lensOf es + e.len := by simp [lensOf]
  rw [List.append_cons]
  refine packLoop_append_of_error ?_ post
  rw [packLoop_found _ _ _ _ _ hfound hw, hlens, if_pos hlong]

/-! ## The stage past its tests -/

theorem packStage_of_loop_error {s : State} {a : Abort} (hn : exceeds s.cfg.nMax s.regs.symLen = false)
    (hk : exceeds s.cfg.kMax s.regs.ctLen = false) (h0 : s.regs.symLen ≠ 0)
    (h : packLoop s.cfg s.ctList s.symList Internal.empty.pack = .error a) : packStage s = .error a := by
  rw [packStage_eq, hn, hk, Bool.or_self, if_neg Bool.false_ne_true, if_neg h0, h]

/-- The converse of `packStage_form`. -/
theorem packStage_of_found {s : State} {es : List Entry} (hn : exceeds s.cfg.nMax s.regs.symLen = false)
    (hk : exceeds s.cfg.kMax s.regs.ctLen = false) (h0 : s.regs.symLen ≠ 0)
    (hes : s.symList.map (entryOf s.ctList) = es.map some) (hfit : streamTooLong s.cfg (lensOf es) = false) :
    packStage s = .ok (s.start.writeStream (packBytes (es.flatMap Entry.code)) (lensOf es)) := by
  rw [packStage_eq, hn, hk, Bool.or_self, if_neg Bool.false_ne_true, if_neg h0,
    packLoop_found _ _ _ es _ hes (streamTooLong_zero _)]
  simp [Internal.empty, hfit]

/-! ## The obligations -/

/-- Settles O36: within capacity `PACK` writes the codes' concatenation, which is read back bit by bit. -/
theorem packResult : Obligations.PackResult := by
  intro s es hpos hn hk hes hfit
  have hlen := flatMap_code_length es
  refine ⟨_, exec_of_ok (i := .pack) (packStage_of_found hn hk hpos.ne' hes hfit), rfl, rfl, rfl,
    streamBits_writeStream s.start _ hlen, fun q hge hlt => ?_, ?_, rfl, rfl⟩
  · have hbyte : q / 8 < ceil8 (lensOf es) := Nat.div_lt_of_lt_mul hlt
    have hpad : (es.flatMap Entry.code).getD q false = false := List.getD_eq_default _ _ (hlen.trans_le hge)
    exact (streamBit_writeStream s.start _ hlen hbyte).trans hpad
  · have hbytes : (packBytes (es.flatMap Entry.code)).length = ceil8 (lensOf es) := by rw [packBytes_length, hlen]
    have hfree := freeFrom_writeStream s.start (packBytes (es.flatMap Entry.code)) (lensOf es)
    rwa [hbytes] at hfree

/-- Settles O37: the tests of `packStage_eq` in their order, then the loop at the symbol that decides. -/
theorem packErrors : Obligations.PackErrors := by
  intro s
  refine ⟨fun hcap => exec_of_raise ?_, fun hn hk h0 => exec_of_raise ?_, fun hn hk i es hi hes => ?_⟩
  · rw [stageOf, packStage_eq, if_pos (Bool.or_eq_true_iff.2 hcap)]
  · rw [stageOf, packStage_eq, hn, hk, Bool.or_self, if_neg Bool.false_ne_true, if_pos h0]
  · have hbl : ∀ n, Internal.empty.pack.bl + n = n := Nat.zero_add
    have hstage : ∀ e : ErrKind, packLoop s.cfg s.ctList s.symList Internal.empty.pack = .error (.raise e) →
        ∃ t, exec .pack s = .next t ∧ t.endsWith e := fun e hloop =>
      exec_of_raise (packStage_of_loop_error hn hk (Nat.ne_zero_of_lt hi) hloop)
    rw [← symList_split hi] at hstage
    refine ⟨fun hnone hfit => hstage _ ?_, fun e hsome hlong => hstage _ ?_⟩
    · rw [packLoop_missing _ _ _ _ _ es _ hes hnone (streamTooLong_zero _), hbl]
      exact if_neg (Bool.eq_false_iff.1 hfit)
    · exact packLoop_tooLong hes hsome (streamTooLong_zero _) (by rw [hbl]; exact hlong) _

end Sys2Proof.Machine
end

section
/-! `UNPACK` and `DECODE`: what they decode, how they end and what they do not look at (44_unpack.md R211 to R230).
Within `B_MAX` and `K_MAX` the decoder has three ends: `decodesStream` and `overflowsOut` each decide one, and without
both of them the stream is truncated. -/

namespace Sys2Proof.Machine

theorem exceeds_zero (cap : Option Nat) : exceeds cap 0 = false := by cases cap <;> rfl

/-! ## The three ends of the stage -/

theorem unpackStage_of_decodes {s : State} (hb : exceeds s.cfg.bMax s.regs.bufLen = false)
    (hk : exceeds s.cfg.kMax s.regs.ctLen = false) (h : s.decodesStream) : ∃ t, unpackStage s = .ok t := by
  obtain ⟨h8, es, hes, hcat, hn⟩ := h
  exact ⟨_, unpackStage_codes hb hk h8 hes hcat hn⟩

theorem decodesStream_of_ok {s t : State} (h : unpackStage s = .ok t) : s.decodesStream := by
  obtain ⟨es, hes, hcat, -, h8, -, -⟩ := unpackStage_form h
  refine ⟨h8, es, hes, hcat, ?_⟩
  rcases unpackStage_room h hes hcat h8 with hn | rfl
  · exact hn
  · exact exceeds_zero _

/-- Capacity passed before the loop. -/
theorem unpackStage_of_exceeds {s : State}
    (h : exceeds s.cfg.bMax s.regs.bufLen = true ∨ exceeds s.cfg.kMax s.regs.ctLen = true) :
    unpackStage s = .error (.raise .capacityExceeded) := by
  rw [unpackStage_eq, if_pos (Bool.or_eq_true_iff.2 h)]

theorem lensOf_le_bitLen {s : State} {es : List Entry} (h : es.flatMap Entry.code <+: s.streamBits) :
    lensOf es ≤ s.regs.bitLen := by
  simpa only [flatMap_code_length, streamBits_length] using h.length_le

/-- The loop raises at the symbol `OUT` has no room for, before it comes to the bits behind it: whatever they are, and
whether or not they have bytes (60_exceptions.md R289). -/
theorem unpackStage_of_overflow {s : State} (h : s.overflowsOut) :
    unpackStage s = .error (.raise .capacityExceeded) := by
  obtain ⟨es, hes, hpre, h8, hx⟩ := h
  have hne : es ≠ [] := by
    rintro rfl
    exact Bool.false_ne_true ((exceeds_zero _).symm.trans hx)
  have hpos : Internal.empty.unpack.pos + lensOf es = lensOf es := Nat.zero_add _
  have hout : Internal.empty.unpack.out + es.length = es.length := Nat.zero_add _
  have hloop := unpackLoop_codes (s := s.start) es hes Internal.empty.unpack (hpos.trans_le h8) ⟨rfl, rfl⟩ rfl hpre
    (s.regs.bitLen - lensOf es)
  rw [hout, if_pos ⟨hne, hx⟩, Nat.add_sub_cancel' (lensOf_le_bitLen hpre)] at hloop
  rw [unpackStage_eq, hloop, ite_self]

theorem overflowsOut_of_capacityExceeded {s : State} (hb : exceeds s.cfg.bMax s.regs.bufLen = false)
    (hk : exceeds s.cfg.kMax s.regs.ctLen = false) (h : unpackStage s = .error (.raise .capacityExceeded)) :
    s.overflowsOut := by
  rw [unpackStage_eq, hb, hk, Bool.or_self, if_neg Bool.false_ne_true] at h
  split at h
  · next a ha =>
    cases h
    have hover := unpackLoop_overflow (decoded_start s.start s.ctList) ha
    exact hover
  · split_ifs at h
    cases h

theorem unpackStage_otherwise {s : State} (hb : exceeds s.cfg.bMax s.regs.bufLen = false)
    (hk : exceeds s.cfg.kMax s.regs.ctLen = false) (hd : ¬ s.decodesStream) (ho : ¬ s.overflowsOut) :
    unpackStage s = .error (.raise .truncatedStream) := by
  cases h : unpackStage s with
  | ok t => exact absurd (decodesStream_of_ok h) hd
  | error a =>
    rcases unpackStage_error h with rfl | ⟨rfl, -⟩
    · rfl
    · exact absurd (overflowsOut_of_capacityExceeded hb hk h) ho

/-! ## `DECODE` against `UNPACK` -/

/-- The two commands have one write set (10_state.md R45), and with a valid table `DECODE` runs `UNPACK`'s stage; with
`BIT_LEN = 0`, where it checks nothing, that stage writes the same empty sequence (46_encode_decode.md R258, R259). -/
theorem exec_decode_eq_unpack {s : State} (hb : exceeds s.cfg.bMax s.regs.bufLen = false)
    (hk : exceeds s.cfg.kMax s.regs.ctLen = false) (h : tableValid s.cfg s.ctList ∨ s.regs.bitLen = 0) :
    exec .decode s = exec .unpack s := by
  by_cases h0 : s.regs.bitLen = 0
  · have hnil : [] = s.streamBits := (List.eq_nil_of_length_eq_zero ((streamBits_length s).trans h0)).symm
    have hunpack := unpackStage_codes (es := []) hb hk (h0 ▸ Nat.zero_le _) (by simp) hnil (exceeds_zero _)
    have hdecode : decodeStage s = .ok (s.writeOut []) := if_pos h0
    exact (exec_of_ok (i := .decode) hdecode).trans (exec_of_ok (i := .unpack) hunpack).symm
  · have hstage : stageOf .decode s = stageOf .unpack s := decodeStage_of_valid h0 hk (h.resolve_right h0)
    rw [exec_eq, exec_eq, hstage]
    rfl

/-! ## Valid tables -/

/-- A command other than `GENTAB` that ends with Ok ran its pseudocode to the end. -/
theorem stage_ok_of_endsOk {i : Instr} {s t : State} (hi : i ≠ .gentab) (h : exec i s = .next t)
    (hok : t.endsWith .ok) : ∃ u, stageOf i s = .ok u := by
  rw [exec_eq] at h
  cases h
  rcases stage_cases i s with hu | ⟨e, -, hne, he, -⟩ | ⟨hg, -⟩
  · exact hu
  · rw [he] at hok
    exact absurd (completedStatus_injective hok) hne
  · exact absurd hg hi

/-- Equal pairs are prefixes of each other, so a valid table holds a pair once (45_chktab.md R242). -/
theorem tableValid.index_unique {p : Params} {table : List Entry} (h : tableValid p table) {j k : Nat} {e f : Entry}
    (he : table[j]? = some e) (hf : table[k]? = some f) (hlen : f.len = e.len) (hpat : f.pat = e.pat) : k = j := by
  obtain ⟨hj, rfl⟩ := List.getElem?_eq_some_iff.1 he
  obtain ⟨hk, rfl⟩ := List.getElem?_eq_some_iff.1 hf
  by_contra hne
  exact h.2.2 k j hk hj hne ⟨hlen.le, by rw [hlen, hpat, Nat.sub_self, pow_zero, Nat.div_one]⟩

theorem matchOf_of_valid {p : Params} {table : List Entry} (h : tableValid p table) {j : Nat} {e : Entry}
    (he : table[j]? = some e) : matchOf table e.pat e.len = some e := by
  obtain ⟨hj, hje⟩ := List.getElem?_eq_some_iff.1 he
  refine List.find?_eq_some_iff_getElem.2 ⟨by simp, j, hj, hje, fun k hk => ?_⟩
  rw [Bool.not_eq_true', Bool.eq_false_iff, ne_eq, Bool.and_eq_true, beq_iff_eq, beq_iff_eq]
  rintro ⟨hlen, hpat⟩
  exact hk.ne (h.index_unique he (List.getElem?_eq_getElem (hk.trans hj)) hlen hpat)

/-! ## Equal results -/

theorem sameResults_of_raise {i : Instr} {s s' t t' : State} {e : ErrKind} (h : stageOf i s = .error (.raise e))
    (h' : stageOf i s' = .error (.raise e)) (ht : exec i s = .next t) (ht' : exec i s' = .next t') :
    sameResults i t t' := by
  rw [exec_eq, h] at ht
  rw [exec_eq, h'] at ht'
  cases ht
  cases ht'
  exact sameResults_raise i s s' e

theorem sameResults_of_ok {i : Instr} {s s' t t' u u' : State} (h : stageOf i s = .ok u) (h' : stageOf i s' = .ok u')
    (hw : agreeOn (writeRegs i) (writeSpaces i) u u') (ht : exec i s = .next t) (ht' : exec i s' = .next t') :
    sameResults i t t' := by
  rw [exec_of_ok h] at ht
  rw [exec_of_ok h'] at ht'
  cases ht
  cases ht'
  exact sameResults_complete hw

/-- With every bit in the buffer the codes' bits are there too. -/
theorem overflowsOut_iff {s : State} (h8 : s.regs.bitLen ≤ 8 * s.regs.bufLen) : s.overflowsOut ↔
    ∃ es : List Entry, (∀ e ∈ es, emits s.ctList e) ∧ es.flatMap Entry.code <+: s.streamBits ∧
      exceeds s.cfg.nMax es.length = true := by
  constructor
  · rintro ⟨es, hes, hpre, -, hx⟩
    exact ⟨es, hes, hpre, hx⟩
  · rintro ⟨es, hes, hpre, hx⟩
    exact ⟨es, hes, hpre, (lensOf_le_bitLen hpre).trans h8, hx⟩

/-! ## The number of symbols -/

theorem unpackStage_outLen_le {s t : State} (h : unpackStage s = .ok t) : t.regs.outLen ≤ s.regs.bitLen := by
  obtain ⟨es, hes, hcat, rfl, -⟩ := unpackStage_form h
  calc (es.map Entry.sym).length = es.length := List.length_map _
    _ ≤ (es.flatMap Entry.code).length := length_le_flatMap_code _ es hes
    _ = s.regs.bitLen := by rw [hcat, streamBits_length]

theorem decodeStage_outLen_le {s t : State} (h : decodeStage s = .ok t) : t.regs.outLen ≤ s.regs.bitLen := by
  rcases decodeStage_form h with ⟨-, rfl⟩ | ⟨-, -, hu⟩
  · exact Nat.zero_le _
  · exact unpackStage_outLen_le hu

/-! ## The obligations -/

/-- Settles O38: the stage's success is `unpackStage_codes`, for `DECODE` through `exec_decode_eq_unpack`. -/
theorem concatenationDecodes : Obligations.ConcatenationDecodes := by
  intro i s es hi hb hk h8 hes hcat hn
  have hunpack := exec_of_ok (i := .unpack) (unpackStage_codes hb hk h8 hes hcat hn)
  have hexec : exec i s = .next (s.start.writeOut (es.map Entry.sym)).complete := by
    rcases hi with rfl | ⟨rfl, hv⟩
    · exact hunpack
    · exact (exec_decode_eq_unpack hb hk (.inl hv)).trans hunpack
  exact ⟨_, hexec, rfl, List.length_map _, outList_writeOut _ _, freeFrom_writeOut s.start (es.map Entry.sym)⟩

/-- Settles O39: an accepted table is valid, which makes its pairs differ and its codes the ones the decoder emits. -/
theorem validTableEmitsAll : Obligations.ValidTableEmitsAll := by
  intro s t hchktab hok
  obtain ⟨u, hu⟩ := stage_ok_of_endsOk (by decide) hchktab hok
  obtain ⟨-, hv, hk⟩ := chktabStage_form hu
  refine ⟨fun j e he => ⟨matchOf_of_valid hv he, fun k f hf hlen hpat => hv.index_unique he hf hlen hpat⟩, ?_⟩
  intro i es hi hes hcat h8 hb hn
  obtain ⟨v, hexec, hend, -, hout, -⟩ := concatenationDecodes i s es (hi.imp_right fun h => ⟨h, hv⟩) hb hk h8
    (fun e he => emits_of_valid hv (hes e he).1 (hes e he).2) hcat hn
  exact ⟨v, hexec, hend, hout⟩

/-- Settles O41: the tests before the loop, and `unpackStage_of_overflow`. -/
theorem unpackCapacity : Obligations.UnpackCapacity := fun _ =>
  ⟨fun h => exec_of_raise (i := .unpack) (unpackStage_of_exceeds h),
    fun es h8 hes hpre hx => exec_of_raise (i := .unpack) (unpackStage_of_overflow ⟨es, hes, hpre, h8, hx⟩)⟩

/-- Settles O40: each of the three ends is the stage's. -/
theorem unpackSucceedsIff : Obligations.UnpackSucceedsIff := by
  intro s hb hk
  refine ⟨_, exec_eq .unpack s, fun hd => ?_, fun ho => ?_, fun hd ho => ?_⟩
  · obtain ⟨t, ht⟩ := unpackStage_of_decodes hb hk hd
    rw [stageOf, ht]
    rfl
  · rw [stageOf, unpackStage_of_overflow ho]
    rfl
  · rw [stageOf, unpackStage_otherwise hb hk hd ho]
    rfl

/-- Settles O42: a success emits codes of a bit or more, and error entry leaves `OUT_LEN` 0. -/
theorem outLenAtMostBitLen : Obligations.OutLenAtMostBitLen := by
  intro i s t hi h
  rw [exec_eq] at h
  cases h
  rcases stage_cases i s with ⟨u, hu⟩ | ⟨e, -, -, he, -⟩ | ⟨rfl, -⟩
  · have hout : u.regs.outLen ≤ s.regs.bitLen := by
      rcases hi with rfl | rfl
      · exact unpackStage_outLen_le hu
      · exact decodeStage_outLen_le hu
    rw [hu]
    exact hout
  · have hout : CountReg.outLen ∈ writeRegs i := by rcases hi with rfl | rfl <;> decide
    rw [he]
    exact (zeroed_get s.regs _ hout).trans_le (Nat.zero_le _)
  · exact absurd hi (by decide)

/-- Settles O43: which of the three ends it is, and the symbols of a success, are told by the first `BIT_LEN` bits and
the table alone. -/
theorem paddingIgnored : Obligations.PaddingIgnored := by
  intro s s' t t' hcfg hct hbits h8 h8' hb hb' ht ht'
  have hlen : s.regs.ctLen = s'.regs.ctLen := by rw [← ctList_length, hct, ctList_length]
  have hdec : s.decodesStream ↔ s'.decodesStream := by
    rw [State.decodesStream, State.decodesStream, and_iff_right h8, and_iff_right h8', hcfg, hct, hbits]
  have hover : s.overflowsOut ↔ s'.overflowsOut := by
    rw [overflowsOut_iff h8, overflowsOut_iff h8', hcfg, hct, hbits]
  rw [hcfg] at hb'
  cases hk : exceeds s.cfg.kMax s.regs.ctLen with
  | true =>
    have hk' : exceeds s'.cfg.kMax s'.regs.ctLen = true := by rw [← hcfg, ← hlen, hk]
    exact sameResults_of_raise (unpackStage_of_exceeds (.inr hk)) (unpackStage_of_exceeds (.inr hk')) ht ht'
  | false =>
    have hk' : exceeds s'.cfg.kMax s'.regs.ctLen = false := by rw [← hcfg, ← hlen, hk]
    by_cases hd : s.decodesStream
    · obtain ⟨-, es, hes, hcat, hn⟩ := hd
      have hstage := unpackStage_codes hb hk h8 hes hcat hn
      rw [hct] at hes
      rw [hbits] at hcat
      rw [hcfg] at hn
      have hstage' := unpackStage_codes hb' hk' h8' hes hcat hn
      exact sameResults_of_ok hstage hstage' (agreeOn_writeOut _ _ _) ht ht'
    by_cases ho : s.overflowsOut
    · exact sameResults_of_raise (unpackStage_of_overflow ho) (unpackStage_of_overflow (hover.1 ho)) ht ht'
    · exact sameResults_of_raise (unpackStage_otherwise hb hk hd ho)
        (unpackStage_otherwise hb' hk' (fun h => hd (hdec.2 h)) fun h => ho (hover.2 h)) ht ht'

end Sys2Proof.Machine
end

section
/-! `CHKTAB`: its verdict, and that it accepts what `GENTAB` writes (45_chktab.md R242 to R250). The verdict is the
branch of `chktabStage_eq`; a generated table is `TableOk`, which makes it valid and no longer than `CT`. -/

namespace Sys2Proof.Machine

/-! ## The verdict -/

theorem chktabStage_of_invalid {s : State} (hk : exceeds s.cfg.kMax s.regs.ctLen = false)
    (hv : ¬ tableValid s.cfg s.ctList) : chktabStage s = .error (.raise .invalidTable) := by
  rw [← malformedTable_eq_false_iff, Bool.not_eq_false] at hv
  rw [chktabStage_eq, hk, if_neg Bool.false_ne_true, if_pos hv]

theorem chktabStage_of_exceeds {s : State} (hk : exceeds s.cfg.kMax s.regs.ctLen = true) :
    chktabStage s = .error (.raise .capacityExceeded) := by
  rw [chktabStage_eq, if_pos hk]

/-- However `CHKTAB` ends, error entry on its empty write set included, it leaves registers and memory (45_chktab.md
R250). -/
theorem finish_chktab_keeps (s : State) :
    (s.finish .chktab (stageOf .chktab s)).regs = s.regs ∧ (s.finish .chktab (stageOf .chktab s)).mem = s.mem := by
  rcases stage_cases .chktab s with ⟨u, hu⟩ | ⟨e, -, -, he, -⟩ | ⟨hgentab, -⟩
  · obtain ⟨rfl, -⟩ := chktabStage_form hu
    rw [hu]
    exact ⟨rfl, rfl⟩
  · rw [he]
    exact ⟨rfl, rfl⟩
  · cases hgentab

/-- Settles O44: the three branches of `chktabStage_eq`, none of which writes anything. -/
theorem chktabVerdict : Obligations.ChktabVerdict := by
  intro s
  obtain ⟨hregs, hmem⟩ := finish_chktab_keeps s
  refine ⟨_, exec_eq .chktab s, hregs, hmem, fun hk => ⟨fun hv => ?_, fun hv => ?_⟩, fun hk => ?_⟩ <;>
    rw [stageOf]
  · rw [chktabStage_of_valid hk hv]
    rfl
  · rw [chktabStage_of_invalid hk hv]
    rfl
  · rw [chktabStage_of_exceeds hk]
    rfl

/-! ## Generated tables -/

/-- The leaves of a tree `NODE` has room for are no more than `K_MAX` (20_memory.md R60). -/
theorem exceeds_leaves {p : Params} {n : Nat} (h : exceeds (capacity p .node) n = false) :
    exceeds p.kMax ((n + 1) / 2) = false := by
  cases hk : p.kMax with
  | none => rfl
  | some k =>
    simp only [capacity, hk, Option.map_some, exceeds, decide_eq_false_iff_not] at h ⊢
    omega

theorem nodeCnt_pos_of_gentab {s t : State} (h : gentabStage s = .ok t) : 0 < s.regs.nodeCnt := by
  by_contra h0
  rw [gentabStage_empty (Nat.eq_zero_of_not_pos h0)] at h
  cases h

/-- The table of a tree is valid and within `K_MAX` (42_gentab.md R177). -/
theorem chktabStage_of_gentab {s t : State} (htree : TreeInv s) (h : gentabStage s = .ok t) :
    chktabStage t.complete = .ok t.complete.start := by
  have hok := htree (nodeCnt_pos_of_gentab h)
  obtain ⟨-, -, -, -, -, -, hcap⟩ := id hok
  obtain ⟨l, rfl, htable⟩ := gentabStage_table hok h
  have hlen : exceeds s.cfg.kMax l.length = false := htable.length ▸ exceeds_leaves hcap
  have hvalid : tableValid s.cfg (s.start.writeCt l).ctList := by
    rw [ctList_writeCt]
    exact tableValid_of_ok htable
  exact chktabStage_of_valid hlen hvalid

/-- Settles O45: the success of `GENTAB` is its stage's, and `CHKTAB` goes on from there to its own. -/
theorem generatedTableAccepted : Obligations.GeneratedTableAccepted := by
  intro s t htree h hok
  rw [exec_eq] at h
  cases h
  obtain ⟨u, hu⟩ := finish_ok_of_endsOk htree hok
  rw [hu]
  exact ⟨_, exec_of_ok (i := .chktab) (chktabStage_of_gentab htree hu), rfl, rfl⟩

end Sys2Proof.Machine
end

section
/-! `ENCODE` and `DECODE` (46_encode_decode.md R256 to R270). A command looks neither at `STATUS` nor at the internal
state, so commands one after another are their stages one after another. What a successful `ENCODE` leaves is `Encoded`:
with its table and its stream both decoders give the symbols of every whole number of codes back. -/

namespace Sys2Proof.Machine

/-! ## A command after a completed command -/

theorem decodeStage_of_empty {s : State} (h0 : s.regs.bitLen = 0) : decodeStage s = .ok (s.writeOut []) := if_pos h0

theorem decodeStage_of_nonempty {s : State} (h0 : s.regs.bitLen ≠ 0) :
    decodeStage s = thenStage (chktabStage s) unpackStage := if_neg h0

/-- Every command initialises the internal state it uses (10_state.md R43). -/
theorem exec_start (i : Instr) (s : State) : exec i s.start = exec i s := by
  cases i with
  | count => rfl
  | build => rfl
  | gentab => rfl
  | pack => rfl
  | unpack => rfl
  | chktab => rfl
  | encode => rfl
  | decode =>
    by_cases h0 : s.regs.bitLen = 0
    · have hstart := exec_of_ok (i := .decode) (decodeStage_of_empty (s := s.start) h0)
      exact hstart.trans (exec_of_ok (i := .decode) (decodeStage_of_empty h0)).symm
    · have hstage : decodeStage s.start = decodeStage s :=
        (decodeStage_of_nonempty (s := s.start) h0).trans (decodeStage_of_nonempty h0).symm
      rw [exec_eq, exec_eq, stageOf, stageOf, hstage]
      rfl

/-- What a stage leaves of the host's side is there already, and completion writes the rest anew. -/
theorem complete_onHost {rs : List CountReg} {sps : List Space} {s t : State} (h : Framed rs sps s t) :
    (t.onHost s.complete).complete = t.complete := by
  obtain ⟨-, hop, hinputs, hobserved, hlatency, hwindow, hhazard, -, -, -⟩ := h
  simp only [State.complete, State.onHost, hop, hinputs, hobserved, hlatency, hwindow, hhazard]

/-- A command launched after a completion ends as from the state that was completed: the two differ in `STATUS` and the
internal state only (46_encode_decode.md R262). -/
theorem exec_complete (i : Instr) (s : State) : exec i s.complete = exec i s := by
  have hside : s.complete = s.start.onHost s.complete := rfl
  rw [← exec_start i s, exec_eq, exec_eq, hside, stage_onHost]
  cases h : stageOf i s.start with
  | ok t => exact congrArg Host.Outcome.next (complete_onHost (s := s.start) (framed_stage h))
  | error a => cases a <;> rfl

/-- What a command's end says of its pseudocode; of `GENTAB`'s only on a tree of 10_state.md R36. -/
theorem stage_of_exec {i : Instr} {s t : State} (hi : i ≠ .gentab ∨ TreeInv s) (h : exec i s = .next t) :
    (∃ u, stageOf i s = .ok u ∧ t = u.complete) ∨
      ∃ e, e ≠ .ok ∧ stageOf i s = .error (.raise e) ∧ t.endsWith e := by
  rw [exec_eq] at h
  cases h
  rcases stage_cases i s with ⟨u, hu⟩ | ⟨e, -, hne, he, -⟩ | ⟨hgentab, hno, -⟩
  · exact .inl ⟨u, hu, by rw [hu, State.finish]⟩
  · exact .inr ⟨e, hne, he, by rw [he]; rfl⟩
  · exact absurd (hi.resolve_left (not_not_intro hgentab)) hno

theorem completes_of_endsOk {i : Instr} {s t : State} (hi : i ≠ .gentab ∨ TreeInv s) (h : exec i s = .next t)
    (hok : t.endsWith .ok) : ∃ u, stageOf i s = .ok u ∧ t = u.complete := by
  rcases stage_of_exec hi h with hu | ⟨e, hne, -, hend⟩
  · exact hu
  · exact absurd (completedStatus_injective (hend.symm.trans hok)) hne

theorem raises_of_endsWith {i : Instr} {s t : State} {e : ErrKind} (hi : i ≠ .gentab ∨ TreeInv s)
    (h : exec i s = .next t) (hne : e ≠ .ok) (hend : t.endsWith e) : stageOf i s = .error (.raise e) := by
  rcases stage_of_exec hi h with ⟨u, -, rfl⟩ | ⟨f, -, hstage, hf⟩
  · exact absurd (completedStatus_injective hend).symm hne
  · rwa [completedStatus_injective (hend.symm.trans hf)]

/-! ## `ENCODE` and its stages -/

/-- Settles O49: each command's success is its stage's, and `exec_complete` lets the next stage start from there. -/
theorem encodeIsFourStages : Obligations.EncodeIsFourStages := by
  intro s a b c d hcount ha hbuild hb hgentab hc hpack hd
  obtain ⟨a, hcountOk, rfl⟩ := completes_of_endsOk (.inl (by decide)) hcount ha
  rw [exec_complete] at hbuild
  obtain ⟨b, hbuildOk, rfl⟩ := completes_of_endsOk (.inl (by decide)) hbuild hb
  rw [exec_complete] at hgentab
  obtain ⟨c, hgentabOk, rfl⟩ := completes_of_endsOk (.inr fun _ => buildStage_tree hbuildOk) hgentab hc
  rw [exec_complete] at hpack
  obtain ⟨d, hpackOk, rfl⟩ := completes_of_endsOk (.inl (by decide)) hpack hd
  exact exec_of_ok (i := .encode) (encodeStage_of_stages hcountOk hbuildOk hgentabOk hpackOk)

/-- `ENCODE` ends early where the first of its stages does (46_encode_decode.md R257). -/
theorem encodeStage_eq_error {s : State} {x : Abort} : encodeStage s = .error x ↔
    countStage s = .error x ∨ ∃ a, countStage s = .ok a ∧
      (buildStage a = .error x ∨ ∃ b, buildStage a = .ok b ∧
        (gentabStage b = .error x ∨ ∃ c, gentabStage b = .ok c ∧ packStage c = .error x)) := by
  cases hcount : countStage s with
  | error y => simp [encodeStage, thenStage, hcount]
  | ok a =>
    cases hbuild : buildStage a with
    | error y => simp [encodeStage, thenStage, hcount, hbuild]
    | ok b => cases hgentab : gentabStage b <;> simp [encodeStage, thenStage, hcount, hbuild, hgentab]

theorem encodeFails_of_stage {s : State} {e : ErrKind} (h : encodeStage s = .error (.raise e)) : encodeFails s e := by
  refine ⟨s.raise (writeRegs .encode) (writeSpaces .encode) e, ?_, rfl, fun r hr => zeroed_get _ _ hr,
    fun sp hsp => freedMem_free _ _ _ hsp⟩
  rw [exec_eq, stageOf, h, State.finish]

/-- Settles O59: the command that fails has a stage that raises, which is where `encodeStage` raises. -/
theorem encodeFailsWithStage : Obligations.EncodeFailsWithStage := by
  intro s a hcount
  refine ⟨fun e hne he => ?_, fun ha b hbuild => ?_⟩
  · have hraise := raises_of_endsWith (.inl (by decide)) hcount hne he
    exact encodeFails_of_stage (encodeStage_eq_error.2 (.inl hraise))
  obtain ⟨a, hcountOk, rfl⟩ := completes_of_endsOk (.inl (by decide)) hcount ha
  rw [exec_complete] at hbuild
  refine ⟨fun e hne he => ?_, fun hb c hgentab => ?_⟩
  · have hraise := raises_of_endsWith (.inl (by decide)) hbuild hne he
    exact encodeFails_of_stage (encodeStage_eq_error.2 (.inr ⟨a, hcountOk, .inl hraise⟩))
  obtain ⟨b, hbuildOk, rfl⟩ := completes_of_endsOk (.inl (by decide)) hbuild hb
  rw [exec_complete] at hgentab
  have htree : TreeInv b := fun _ => buildStage_tree hbuildOk
  refine ⟨fun e hne he => ?_, fun hc d hpack e hne he => ?_⟩
  · have hraise := raises_of_endsWith (.inr htree) hgentab hne he
    exact encodeFails_of_stage (encodeStage_eq_error.2 (.inr ⟨a, hcountOk, .inr ⟨b, hbuildOk, .inl hraise⟩⟩))
  · obtain ⟨c, hgentabOk, rfl⟩ := completes_of_endsOk (.inr htree) hgentab hc
    rw [exec_complete] at hpack
    have hraise := raises_of_endsWith (.inl (by decide)) hpack hne he
    exact encodeFails_of_stage
      (encodeStage_eq_error.2 (.inr ⟨a, hcountOk, .inr ⟨b, hbuildOk, .inr ⟨c, hgentabOk, hraise⟩⟩⟩))

/-- Settles O51: `COUNT` raises, and `DECODE` writes the empty sequence before it checks anything. -/
theorem emptyInputs : Obligations.EmptyInputs := by
  intro s
  refine ⟨fun h0 => exec_of_raise (i := .encode) (encodeStage_eq_error.2 (.inl ?_)), fun h0 => ?_⟩
  · rw [countStage_eq, h0, exceeds_zero, if_neg Bool.false_ne_true, if_pos rfl]
  · exact ⟨_, exec_of_ok (i := .decode) (decodeStage_of_empty h0), rfl, rfl⟩

/-! ## `DECODE` and its checks -/

theorem decodeStage_of_chktab_error {s : State} {a : Abort} (h0 : s.regs.bitLen ≠ 0) (h : chktabStage s = .error a) :
    decodeStage s = .error a := by
  rw [decodeStage_of_nonempty h0, h, thenStage]

/-- Settles O50: the first clause is `exec_decode_eq_unpack`; of the others `CHKTAB` raises the first two, and `UNPACK`
the last. -/
theorem decodeIsCheckedUnpack : Obligations.DecodeIsCheckedUnpack := by
  intro s
  refine ⟨exec_decode_eq_unpack, fun hpos => ⟨fun hk => ?_, fun hk hv => ?_, fun hk hv hb => ?_⟩⟩ <;>
    refine exec_of_raise (i := .decode) ?_
  · exact decodeStage_of_chktab_error hpos.ne' (chktabStage_of_exceeds hk)
  · exact decodeStage_of_chktab_error hpos.ne' (chktabStage_of_invalid hk hv)
  · exact (decodeStage_of_valid hpos.ne' hk hv).trans (unpackStage_of_exceeds (.inl hb))

/-! ## What a successful `ENCODE` leaves -/

theorem Encoded.complete {s t : State} {l es : List Entry} (h : Encoded s t l es) : Encoded s t.complete l es :=
  { h with }

theorem encoded_of_exec {s t : State} (h : exec .encode s = .next t) (hok : t.endsWith .ok) :
    ∃ l es : List Entry, Encoded s t l es := by
  obtain ⟨u, hu, rfl⟩ := encode_ok_of h hok
  obtain ⟨l, es, henc⟩ := encodeStage_encoded hu
  exact ⟨l, es, henc.complete⟩

theorem exceeds_of_le {cap : Option Nat} {m n : Nat} (h : m ≤ n) (hn : exceeds cap n = false) :
    exceeds cap m = false := by
  cases cap with
  | none => rfl
  | some b =>
    simp only [exceeds, decide_eq_false_iff_not] at hn ⊢
    omega

section
variable {s t : State} {l es : List Entry} (h : Encoded s t l es)
include h

theorem Encoded.length_es : es.length = s.regs.symLen := by
  simpa using (congrArg List.length h.found).symm

theorem Encoded.codeOf_syms : s.symList.map t.codeOf = es.map some := by
  rw [← h.found, ← h.table]
  rfl

theorem Encoded.bufFits : exceeds t.cfg.bMax t.regs.bufLen = false := by
  rw [h.cfg, h.bufLen]
  exact bMax_ok h.streamFits

theorem Encoded.ctFits : exceeds t.cfg.kMax t.regs.ctLen = false := by
  rw [h.cfg, h.ctLen]
  exact h.tableFits

theorem Encoded.ctValid : tableValid t.cfg t.ctList := by
  rw [h.cfg, h.table]
  exact h.valid

theorem Encoded.emits_of_mem {e : Entry} (he : e ∈ es) : emits t.ctList e := by
  rw [h.table]
  exact emits_of_valid h.valid (h.mem e he) (h.pos e (h.mem e he))

theorem Encoded.bits_in_buf : t.regs.bitLen ≤ 8 * t.regs.bufLen := by
  rw [h.bitLen, h.bufLen, ceil8]
  omega

/-- Every symbol has a code of a bit or more. -/
theorem Encoded.bitLen_pos : 0 < t.regs.bitLen := by
  have hlen := length_le_flatMap_code _ es fun e he => h.emits_of_mem he
  rw [flatMap_code_length, h.length_es, ← h.bitLen] at hlen
  exact (Nat.pos_of_ne_zero h.symLen).trans_le hlen

theorem Encoded.decodesStream : t.decodesStream := by
  refine ⟨h.bits_in_buf, es, fun e he => h.emits_of_mem he, h.stream.symm, ?_⟩
  rw [h.cfg, h.length_es]
  exact h.symFits

end

/-! ## The two lengths of the stream written anew -/

/-- The state with other values in `BIT_LEN` and `BUF_LEN` (46_encode_decode.md R269). -/
def State.cutTo (s : State) (bits nb : Nat) : State :=
  { s with regs := { s.regs with bitLen := bits, bufLen := nb } }

theorem cutTo_self (s : State) : s.cutTo s.regs.bitLen s.regs.bufLen = s := rfl

theorem streamBits_cutTo {s : State} {bits nb : Nat} (h : bits ≤ s.regs.bitLen) :
    (s.cutTo bits nb).streamBits = s.streamBits.take bits := by
  have hcut : (s.cutTo bits nb).streamBits = (List.range bits).map s.streamBit := rfl
  rw [hcut, State.streamBits, ← List.map_take, List.take_range, Nat.min_eq_left h]

theorem lensOf_take_le (es : List Entry) (m : Nat) : lensOf (es.take m) ≤ lensOf es :=
  ((es.take_sublist m).map Entry.len).sum_le_sum fun _ _ => Nat.zero_le _

/-- The bits up to where a code begins are the codes before it. -/
theorem flatMap_code_take (es : List Entry) (m : Nat) :
    (es.flatMap Entry.code).take (lensOf (es.take m)) = (es.take m).flatMap Entry.code := by
  have hsplit : es.flatMap Entry.code = (es.take m).flatMap Entry.code ++ (es.drop m).flatMap Entry.code := by
    rw [← List.flatMap_append, List.take_append_drop]
  rw [hsplit]
  exact List.take_left' (flatMap_code_length _)

/-- Both decoders give the symbols whose codes are left (46_encode_decode.md R269). -/
theorem Encoded.decodes_take {s t : State} {l es : List Entry} (h : Encoded s t l es) {i : Instr}
    (hi : i = .unpack ∨ i = .decode) (m : Nat) {nb : Nat} (h8 : lensOf (es.take m) ≤ 8 * nb)
    (hnb : nb ≤ t.regs.bufLen) : ∃ u, exec i (t.cutTo (lensOf (es.take m)) nb) = .next u ∧ u.endsWith .ok ∧
      u.outList = s.symList.take m := by
  have hbits : (es.take m).flatMap Entry.code = (t.cutTo (lensOf (es.take m)) nb).streamBits := by
    rw [streamBits_cutTo (h.bitLen ▸ lensOf_take_le es m), h.stream, flatMap_code_take]
  have hroom : exceeds t.cfg.nMax (es.take m).length = false := by
    rw [h.cfg]
    exact exceeds_of_le ((List.length_take_le' m es).trans_eq h.length_es) h.symFits
  obtain ⟨u, hexec, hok, -, hout, -⟩ := concatenationDecodes i (t.cutTo (lensOf (es.take m)) nb) (es.take m)
    (hi.imp_right fun hd => ⟨hd, h.ctValid⟩) (exceeds_of_le hnb h.bufFits) h.ctFits h8
    (fun e he => h.emits_of_mem (List.mem_of_mem_take he)) hbits hroom
  refine ⟨u, hexec, hok, ?_⟩
  rw [hout, List.map_take, map_entryOf_sym h.found]

/-- `DECODE` gives the whole input back: no code is cut off (46_encode_decode.md R263). -/
theorem Encoded.decodes {s t : State} {l es : List Entry} (h : Encoded s t l es) :
    ∃ u, exec .decode t = .next u ∧ u.endsWith .ok ∧ u.outList = s.symList := by
  have hall := h.decodes_take (i := .decode) (.inr rfl) es.length (nb := t.regs.bufLen)
  rw [List.take_length, ← h.bitLen, cutTo_self, h.length_es, ← symList_length, List.take_length] at hall
  exact hall h.bits_in_buf le_rfl

/-- `OUT` has room for all that was encoded, so it overflows with no part of it either. -/
theorem Encoded.not_overflowsOut_cutTo {s t : State} {l es : List Entry} (h : Encoded s t l es) {nb : Nat}
    (hnb : nb ≤ t.regs.bufLen) : ¬ (t.cutTo t.regs.bitLen nb).overflowsOut := by
  rintro ⟨fs, hfs, hpre, h8, hx⟩
  have hwhole : t.overflowsOut := ⟨fs, hfs, hpre, h8.trans (Nat.mul_le_mul_left 8 hnb), hx⟩
  obtain ⟨u, hu⟩ := unpackStage_of_decodes h.bufFits h.ctFits h.decodesStream
  rw [unpackStage_of_overflow hwhole] at hu
  cases hu

/-- Without its last byte the stream is short of a bit at least (46_encode_decode.md R269). -/
theorem Encoded.truncated {s t : State} {l es : List Entry} (h : Encoded s t l es) {i : Instr}
    (hi : i = .unpack ∨ i = .decode) :
    ∃ u, exec i (t.cutTo t.regs.bitLen (t.regs.bufLen - 1)) = .next u ∧ u.endsWith .truncatedStream := by
  have hle : t.regs.bufLen - 1 ≤ t.regs.bufLen := Nat.sub_le _ 1
  have hb := exceeds_of_le hle h.bufFits
  have hmissing : ¬ t.regs.bitLen ≤ 8 * (t.regs.bufLen - 1) := by
    have hpos := h.bitLen_pos
    rw [h.bufLen, ← h.bitLen, ceil8]
    omega
  have hunpack := exec_of_raise (i := .unpack) (unpackStage_otherwise (s := t.cutTo t.regs.bitLen (t.regs.bufLen - 1))
    hb h.ctFits (fun hd => hmissing hd.1) (h.not_overflowsOut_cutTo hle))
  rcases hi with rfl | rfl
  · exact hunpack
  · rwa [exec_decode_eq_unpack (s := t.cutTo t.regs.bitLen (t.regs.bufLen - 1)) hb h.ctFits (.inl h.ctValid)]

/-- Settles O53: `Encoded.truncated` and `Encoded.decodes_take`; every command completes. -/
theorem cutStream : Obligations.CutStream := by
  intro s t hexec hok i hi
  obtain ⟨l, es, henc⟩ := encoded_of_exec hexec hok
  refine ⟨henc.truncated hi, fun m bits nb fs hm hfs hbits h8 hnb => ?_, fun bits nb => ?_⟩
  · rw [List.map_take, henc.codeOf_syms, ← List.map_take] at hfs
    obtain rfl := List.map_injective_iff.2 (Option.some_injective _) hfs
    subst hbits
    exact henc.decodes_take hi m h8 hnb
  · obtain ⟨u, hu, hbusy, hdone, -⟩ := commandFrame i (t.cutTo bits nb)
    exact ⟨u, hu, hbusy, hdone⟩

/-! ## A non-empty input is encoded, or passes a capacity -/

theorem symLen_of_countStage_empty {s : State} (h : countStage s = .error (.raise .emptyInput)) :
    s.regs.symLen = 0 := by
  rw [countStage_eq] at h
  split_ifs at h with hn h0 hfit
  · cases h
  · exact h0
  · cases h

theorem flLen_of_buildStage_empty {s : State} (h : buildStage s = .error (.raise .emptyInput)) : s.regs.flLen = 0 := by
  rw [buildStage_def] at h
  split_ifs at h with hk h0
  · cases h
  · exact h0
  · split at h
    · next hloop =>
      rw [buildLoop_error hloop] at h
      cases h
    · cases h

theorem nodeCnt_of_gentabStage_empty {s : State} (h : gentabStage s = .error (.raise .emptyInput)) :
    s.regs.nodeCnt = 0 := by
  rw [gentabStage_def] at h
  split_ifs at h with h0
  · exact h0
  · cases h
  · cases h
  · cases h
  · split at h
    · next hloop =>
      cases h
      rcases gentabLoop_error hloop with h | ⟨h, -⟩ <;> cases h
    · cases h

theorem symLen_of_packStage_empty {s : State} {es : List Entry} (hes : s.symList.map (entryOf s.ctList) = es.map some)
    (h : packStage s = .error (.raise .emptyInput)) : s.regs.symLen = 0 := by
  rw [packStage_eq, packLoop_found _ _ _ es _ hes (streamTooLong_zero _)] at h
  split_ifs at h with hcap h0 hlong
  · cases h
  · exact h0
  · cases h

/-- Behind a successful `COUNT` no stage finds its input empty. -/
theorem symLen_of_encodeStage_empty {s : State} (h : encodeStage s = .error (.raise .emptyInput)) :
    s.regs.symLen = 0 := by
  rcases encodeStage_eq_error.1 h with hcount | ⟨a, hcountOk, hbuild | ⟨b, hbuildOk, hgentab | ⟨c, hgentabOk, hpack⟩⟩⟩
  · exact symLen_of_countStage_empty hcount
  · obtain ⟨rfl, -, h0, -⟩ := countStage_form hcountOk
    have hpos := freqList_length_pos (cs := s.symList) (by rw [symList_length]; exact Nat.pos_of_ne_zero h0)
    exact absurd (flLen_of_buildStage_empty hbuild) hpos.ne'
  · obtain ⟨hodd, -⟩ := buildStage_tree hbuildOk
    rw [nodeCnt_of_gentabStage_empty hgentab] at hodd
    cases hodd
  · obtain ⟨l, hpipe⟩ := pipeline hcountOk hbuildOk hgentabOk
    obtain ⟨es, hes⟩ := hpipe.found
    rw [← symList_length, ← hpipe.syms, symList_length]
    exact symLen_of_packStage_empty hes hpack

theorem encode_ok_or_capacity {s : State} (h0 : s.regs.symLen ≠ 0) : (∃ t, encodeStage s = .ok t) ∨
    encodeStage s = .error (.raise .capacityExceeded) ∧ ¬ noCapacity s.cfg := by
  rcases stage_cases .encode s with ht | ⟨e, he, hne, h, hcap⟩ | ⟨hi, -⟩
  · exact .inl ht
  · have hkinds : e = .emptyInput ∨ e = .capacityExceeded := by simpa [kindsOf, hne] using he
    rcases hkinds with rfl | rfl
    · exact absurd (symLen_of_encodeStage_empty h) h0
    · exact .inr ⟨h, hcap rfl⟩
  · cases hi

/-- Settles O46: within capacity `ENCODE` succeeds by `encode_ok_or_capacity`, and then `Encoded.decodes`. -/
theorem encodeDecodeRoundTrip : Obligations.EncodeDecodeRoundTrip := by
  intro s hpos hcap
  rcases encode_ok_or_capacity (Nat.pos_iff_ne_zero.1 hpos) with ⟨t, ht⟩ | ⟨hraise, hno⟩
  · obtain ⟨l, es, henc⟩ := encodeStage_encoded ht
    obtain ⟨u, hu, hok, hout⟩ := henc.complete.decodes
    have hlen : u.regs.outLen = s.regs.symLen := by rw [← outList_length, hout, symList_length]
    refine ⟨_, u, exec_of_ok (i := .encode) ht, rfl, hu, hok, hlen, fun i hi => ?_⟩
    rw [State.outList, State.symList, hlen, List.map_inj_left] at hout
    exact hout i (List.mem_range.2 hi)
  · obtain ⟨t, ht, hnot⟩ := hcap.resolve_left hno
    obtain ⟨u, hu, hend⟩ := exec_of_raise (i := .encode) hraise
    rw [hu] at ht
    cases ht
    exact absurd hend hnot

/-! ## The bits of the stream, counted by symbol -/

/-- The length of the code an encoder uses for a symbol. -/
def codeLen (table : List Entry) (c : Word) : Nat := ((entryOf table c).map Entry.len).getD 0

theorem lensOf_eq_sum_codeLen {table : List Entry} {cs : List Word} {es : List Entry}
    (h : cs.map (entryOf table) = es.map some) : lensOf es = (cs.map (codeLen table)).sum := by
  have hlens : cs.map (codeLen table) = (cs.map (entryOf table)).map fun o => (o.map Entry.len).getD 0 := by
    rw [List.map_map]
    rfl
  rw [hlens, h, List.map_map]
  rfl

/-- A sum over a sequence, taken over its frequency list (40_count.md R122). -/
theorem sum_freqList (cs : List Word) (f : Word → Nat) :
    ((freqList cs).map fun x => x.freq * f x.cp).sum = (cs.map f).sum := by
  have hcps : ((freqList cs).map Symbol.cp).toFinset = cs.toFinset := by
    ext c
    rw [List.mem_toFinset, List.mem_toFinset, freqList_cps]
  calc ((freqList cs).map fun x => x.freq * f x.cp).sum
      = (((freqList cs).map Symbol.cp).map fun c => cs.count c • f c).sum := by
        rw [List.map_map]
        exact congrArg List.sum (List.map_congr_left fun x hx => by rw [freqList_freq cs x hx]; rfl)
    _ = ∑ c ∈ cs.toFinset, cs.count c • f c := by rw [← List.sum_toFinset _ (freqList_nodup cs), hcps]
    _ = (cs.map f).sum := (Finset.sum_list_map_count cs f).symm

/-- Settles O48: `BIT_LEN` is the sum of the code lengths over the input, which `sum_freqList` takes over `FL`. -/
theorem bitAccounting : Obligations.BitAccounting := by
  intro s t hexec hok
  obtain ⟨l, es, henc⟩ := encoded_of_exec hexec hok
  rw [henc.freqs]
  refine ⟨fun x hx => ?_, ?_⟩
  · have hmem : x.cp ∈ l.map Entry.sym := henc.cover.mem_iff.2 (List.mem_map_of_mem hx)
    rw [← henc.table] at hmem
    exact entryOf_isSome hmem
  · rw [henc.bitLen, lensOf_eq_sum_codeLen henc.codeOf_syms]
    exact (sum_freqList s.symList (codeLen t.ctList)).symm

/-! ## Copies of one symbol -/

theorem freqList_replicate {n : Nat} (h : n ≠ 0) (c : Word) :
    freqList (List.replicate n c) = [{ cp := c, freq := n }] := by
  have hlen : (freqList (List.replicate n c)).length = 1 := by
    rw [freqList_length, List.replicate_dedup h, List.length_singleton]
  obtain ⟨x, hx⟩ := List.length_eq_one_iff.1 hlen
  have hcp : x.cp = c := List.eq_of_mem_replicate ((freqList_cps (List.replicate n c) x.cp).1 (by simp [hx]))
  have hfreq := freqList_freq (List.replicate n c) x (by simp [hx])
  rw [hcp, List.count_replicate_self] at hfreq
  rw [hx, ← hcp, ← hfreq]

/-- The table of a tree of one node (42_gentab.md R173). -/
theorem ctList_of_one_node {s t : State} (htree : TreeOk s) (h1 : s.regs.nodeCnt = 1) (h : gentabStage s = .ok t) :
    t.ctList = [{ sym := (s.nodeAt s.regs.root).sym, pat := 0, len := 1 }] := by
  obtain ⟨-, hroot, hleaf, -⟩ := id htree
  have hr : (s.nodeAt s.regs.root).leaf = true := (hleaf _ (by omega)).2 (by omega)
  obtain ⟨u, -, -, -, hstage⟩ := gentabStage_eq htree
  rw [hstage, if_pos hr] at h
  split_ifs at h
  cases h
  exact ctList_writeCt _ _

/-- Every bit of the buffer is the stream's, or padding 0 (43_pack.md R194). -/
theorem packStage_streamBit {s t : State} (h : packStage s = .ok t) {q : Nat} (hq : q < 8 * t.regs.bufLen) :
    t.streamBit q = t.streamBits.getD q false := by
  obtain ⟨es, -, rfl, -⟩ := packStage_form h
  have hlen := flatMap_code_length es
  rw [streamBits_writeStream _ _ hlen]
  exact streamBit_writeStream _ _ hlen (Nat.div_lt_of_lt_mul hq)

/-- The table `ENCODE` writes for an input of one distinct symbol (46_encode_decode.md R266). -/
theorem encodeStage_single_entry {s t : State} (h : encodeStage s = .ok t) (h1 : (freqList s.symList).length = 1) :
    ∃ c, t.ctList = [{ sym := c, pat := 0, len := 1 }] := by
  obtain ⟨a, b, u, hcount, hbuild, hgentab, hpack⟩ := encodeStage_form h
  obtain ⟨l, hpipe⟩ := pipeline hcount hbuild hgentab
  have hcnt : b.regs.nodeCnt = 1 := by
    obtain ⟨hodd, -⟩ := hpipe.tree
    have hleaves := hpipe.tableOk.length
    rw [hpipe.len, h1] at hleaves
    omega
  have htable := ctList_of_one_node hpipe.tree hcnt hgentab
  obtain ⟨es, -, rfl, -⟩ := packStage_form hpack
  exact ⟨_, htable⟩

/-- The one entry is the symbol's, and is found for each copy. -/
theorem Encoded.copies {s t : State} {l es : List Entry} (h : Encoded s t l es) {c d : Word} {n : Nat} (hn : n ≠ 0)
    (hsyms : s.symList = List.replicate n c) (htable : t.ctList = [{ sym := d, pat := 0, len := 1 }]) :
    d = c ∧ es = List.replicate n { sym := d, pat := 0, len := 1 } := by
  have hcover := h.cover
  rw [← h.table, htable, hsyms, freqList_replicate hn] at hcover
  obtain rfl : d = c := by simpa using hcover
  have hfound := h.found
  rw [hsyms, ← h.table, htable, List.map_replicate] at hfound
  refine ⟨rfl, List.map_injective_iff.2 (Option.some_injective _) ?_⟩
  rw [← hfound, List.map_replicate]
  simp [entryOf]

/-- Settles O52: `FL` is `freqList_replicate`, the table has one entry, with the code 0, and so the stream is of 0 bits,
as is the padding. -/
theorem copiesOfOneSymbol : Obligations.CopiesOfOneSymbol := by
  intro s t c n hsyms hexec hok
  obtain ⟨u, hu, rfl⟩ := encode_ok_of hexec hok
  obtain ⟨l, es, henc⟩ := encodeStage_encoded hu
  have hn : n ≠ 0 := by
    have hlen := congrArg List.length hsyms
    rw [symList_length, List.length_replicate] at hlen
    exact hlen ▸ henc.symLen
  have hfl : freqList s.symList = [{ cp := c, freq := n }] := by rw [hsyms, freqList_replicate hn]
  obtain ⟨d, htable⟩ := encodeStage_single_entry hu (by rw [hfl, List.length_singleton])
  obtain ⟨rfl, rfl⟩ := henc.copies hn hsyms htable
  have hlens : lensOf (List.replicate n { sym := d, pat := 0, len := 1 }) = n := by simp [lensOf]
  have hbits : u.streamBits = List.replicate n false := by
    have hcode : Entry.code { sym := d, pat := 0, len := 1 } = [false] := by simp [Entry.code, codeBits]
    rw [henc.stream, List.flatMap_replicate, hcode, List.flatten_replicate_singleton]
  obtain ⟨v, hv, hvok, hout⟩ := henc.complete.decodes
  refine ⟨henc.freqs.trans hfl, ?_, htable, henc.bitLen.trans hlens, ?_, fun q hq => ?_, v, hv, hvok, hout.trans hsyms⟩
  · exact henc.nodeCnt.trans (by rw [hfl, List.length_singleton])
  · exact henc.bufLen.trans (by rw [hlens, ceil8])
  · obtain ⟨-, -, w, -, -, -, hpack⟩ := encodeStage_form hu
    have hbit := packStage_streamBit hpack hq
    rw [hbits, List.getD_eq_getElem?_getD, List.getElem?_getD_replicate_default_eq] at hbit
    exact hbit

end Sys2Proof.Machine
end

section
/-! Launch, completion, error entry and reset (60_exceptions.md R282 to R291, 70_reset_and_hazards.md R320 to R334), and
what an access inside the hazard window leaves alone (93_implementation_defined.md U8). -/

namespace Sys2Proof.Machine

/-! ## How a command ends -/

theorem busy_of_endsWith {t : State} {e : ErrKind} (h : t.endsWith e) : t.busy = false := by
  rw [State.busy, h, busyFlag_completed]

theorem doneFlag_of_endsWith {t : State} {e : ErrKind} (h : t.endsWith e) : doneFlag t.status = true := by
  rw [h, doneFlag_completed]

theorem ok_mem_kindsOf (i : Instr) : .ok ∈ kindsOf i := by cases i <;> decide

/-- Settles O24, by the three ends of `finish_cases`. -/
theorem kindsReported : Obligations.KindsReported := by
  intro i s
  rcases finish_cases i s with ⟨u, -, hend⟩ | ⟨e, he, -, hcap, hend⟩ | ⟨-, -, -, hend⟩
  · exact ⟨_, .ok, exec_eq i s, by rw [hend]; rfl, ok_mem_kindsOf i, fun _ => by decide⟩
  · exact ⟨_, e, exec_eq i s, by rw [hend]; rfl, he, fun hno hc => hcap hc hno⟩
  · exact ⟨_, .ok, exec_eq i s, by rw [hend]; rfl, ok_mem_kindsOf i, fun _ => by decide⟩

/-- An end with an error kind is the error entry, in every state: a traversal whose result is free raises too, or
succeeds (assumption log 15). -/
theorem finish_of_endsWith {i : Instr} {s : State} {e : ErrKind} (hend : (s.finish i (stageOf i s)).endsWith e)
    (hne : e ≠ .ok) : s.finish i (stageOf i s) = s.raise (writeRegs i) (writeSpaces i) e := by
  rcases finish_cases i s with ⟨u, -, h⟩ | ⟨f, -, -, -, h⟩ | ⟨-, -, -, h⟩ <;> rw [h] at hend ⊢
  · exact absurd (completedStatus_injective hend).symm hne
  · rw [completedStatus_injective hend]
  · exact absurd (completedStatus_injective hend).symm hne

/-! ## The engine's move -/

theorem step_hazard {s : State} (ht : engineTurn s = true) (hz : s.hazard = true) :
    step s = .next { s.completeUnspecified s.op.touchedRegs s.op.touchedSpaces with hazard := false } := by
  simp [step, ht, engineMove, hz]

theorem step_illegal {s : State} (ht : engineTurn s = true) (hz : s.hazard = false) (hop : s.op = .illegal) :
    step s = .next s.completeIllegal := by
  simp [step, ht, engineMove, hz, hop]

/-- Whatever the host did and whatever is latched, the engine's move completes (70_reset_and_hazards.md R333). -/
theorem step_completes {s : State} (ht : engineTurn s = true) :
    ∃ t e, step s = .next t ∧ t.endsWith e ∧ t.inputs = s.inputs := by
  cases hz : s.hazard with
  | true => exact ⟨_, _, step_hazard ht hz, rfl, rfl⟩
  | false =>
    cases hop : s.op with
    | illegal => exact ⟨_, _, step_illegal ht hz hop, rfl, rfl⟩
    | command i =>
      obtain ⟨e, he⟩ := finish_ends i s
      exact ⟨_, e, (step_engine ht hz hop).trans (exec_eq i s), he, (framed_finish i s).inputs⟩

/-- Settles O25: `finish_of_endsWith`, and the frame of the error entry; an illegal word's completion has an empty write
set. -/
theorem errorEntry : Obligations.ErrorEntry := by
  refine ⟨fun i s t e hexec hend hne => ?_, fun s hop hz ht => ?_⟩
  · rw [exec_eq] at hexec
    cases hexec
    rw [finish_of_endsWith hend hne]
    have hframe := framed_raise s (writeRegs i) (writeSpaces i) e
    exact ⟨fun r => zeroed_get _ _, fun sp => freedMem_free _ _ _, hframe.regs,
      fun c k hc => fieldAt_of_sameSpace hframe.cfg (hframe.mem _ hc) k, rfl⟩
  · exact ⟨_, step_illegal ht hz hop, rfl, rfl, rfl, rfl⟩

/-- Settles O19, by `step_completes`; after a hazard the completion stays in what the command touches. -/
theorem engineAlwaysCompletes : Obligations.EngineAlwaysCompletes := by
  intro s ht
  obtain ⟨t, e, hstep, hend, hinputs⟩ := step_completes ht
  refine ⟨t, hstep, busy_of_endsWith hend, doneFlag_of_endsWith hend, hinputs, fun hz => ?_⟩
  cases hstep.symm.trans (step_hazard ht hz)
  have hframe := framed_completeUnspecified s s.op.touchedRegs s.op.touchedSpaces
  exact ⟨rfl, hframe.regs, fun c k hc => fieldAt_of_sameSpace hframe.cfg (hframe.mem _ hc) k⟩

/-- Settles O20: the polls until the engine's turn (`run_wait_busy`), the completion, and the poll that sees
`BUSY = 0`. -/
theorem waitEnds : Obligations.WaitEnds := by
  intro s rest hb hi
  obtain ⟨t, e, hstep, hend, hinputs⟩ := step_completes (engineTurn_withLatency_zero hb)
  have hwait := step_wait_idle (busy_of_endsWith hend) (hinputs.trans hi)
  have hrun := (run_add (run_wait_busy hb hi) 2).trans ((run_succ hstep 1).trans (run_succ hwait 0))
  exact ⟨s.latency + 2, _, le_rfl, hrun, rfl, busy_of_endsWith hend, doneFlag_of_endsWith hend, rfl⟩

/-! ## Launch and reset -/

theorem step_launch {s : State} {w : Word} {rest : List HostMove} (hi : s.inputs = .regWrite 32 0x00 w :: rest)
    (hidle : s.busy = false) :
    step s = .next (State.launch { s with inputs := rest, latency := s.latency - 1 } w) :=
  (step_host hi (engineTurn_idle hidle)).trans (congrArg _ (if_neg (Bool.eq_false_iff.1 hidle)))

/-- Settles O9: with `BUSY = 0` the write is the launch. -/
theorem launchLatches : Obligations.LaunchLatches := fun _ _ _ hi hidle =>
  ⟨_, step_launch hi hidle, rfl, busyFlag_launched, doneFlag_launched, errField_launched, rfl, rfl, rfl, rfl, rfl⟩

theorem step_cmd_dropped {s : State} {w : Word} {rest : List HostMove}
    (hi : s.inputs = .regWrite 32 0x00 w :: rest) (hb : s.busy = true) (ht : engineTurn s = false) :
    step s = .next { s with inputs := rest, latency := s.latency - 1 } :=
  (step_host hi ht).trans (congrArg _ (if_pos hb))

/-- Settles O10: with `BUSY = 1` the write is nothing but a move taken off the host's list. -/
theorem cmdWhileBusyDropped : Obligations.CmdWhileBusyDropped := fun _ _ _ hi hb ht =>
  ⟨_, step_cmd_dropped hi hb ht, rfl, rfl, rfl, rfl, rfl, rfl, rfl, rfl, rfl⟩

theorem opOfWord_of_refused {w : Word} {r : IllegalWord} (h : decode w = .error r) : opOfWord w = .illegal := by
  simp [opOfWord, h]

/-- Settles O11: a refused word latches `illegal`, whose completion writes `STATUS` alone. -/
theorem illegalWordChangesOnlyStatus : Obligations.IllegalWordChangesOnlyStatus :=
  fun _ _ _ hdecode ht => ⟨_, step_illegal ht rfl (opOfWord_of_refused hdecode), rfl, rfl, rfl⟩

/-- Settles O8: the registers after the event are those of `State.reset`, and an engine that is not busy has no turn. -/
theorem resetEvent : Obligations.ResetEvent := by
  intro s rest hi ht
  obtain ⟨hregs, hidle, -⟩ := resetValues
  exact ⟨_, step_host hi ht, rfl, hregs, hidle, rfl, rfl, engineTurn_idle hidle⟩

/-! ## An access inside the hazard window -/

/-- What the access `m` inside the hazard window leaves alone between `s` and `t`. -/
structure HazardFrame (m : HostMove) (s t : State) : Prop where
  inputs : t.inputs = s.inputs
  cfg : t.cfg = s.cfg
  busy : t.busy = s.busy
  op : t.op = s.op
  window : t.window = s.window
  hazard : s.busy = true → t.hazard = true
  status : m.accessesStatus = false →
    doneFlag t.status = doneFlag s.status ∧ (s.busy = true → t.status = s.status)
  regs : ∀ r, m.accessesReg r = false → s.busy = true ∨ r ∉ s.op.touchedRegs → t.regs.get r = s.regs.get r
  mem : ∀ c k, m.accessesField c k = false → s.busy = true ∨ spaceOf c ∉ s.op.touchedSpaces →
    t.fieldAt c k = s.fieldAt c k

theorem HazardFrame.observe {m : HostMove} {s t : State} (h : HazardFrame m s t) (v : Nat) :
    HazardFrame m s (t.observe v) :=
  { h with mem := fun c k hm hc => (fieldAt_congr rfl rfl c k).trans (h.mem c k hm hc) }

theorem hazardFrame_freeReg {m : HostMove} {offset : Nat} (s : State)
    (hstatus : m.accessesStatus = false → offset ≠ 0x04)
    (hreg : ∀ r, m.accessesReg r = false → countRegAt offset ≠ some r) :
    HazardFrame m s (s.spoil.freeReg offset) := by
  obtain ⟨cfg, op, inputs, window, busy, done, running, regs, mem⟩ := spoil_keeps s
  obtain ⟨cfg', op', inputs', window', hazard', mem', busy', status', regs'⟩ := freeReg_keeps s.spoil offset
  exact
    { inputs := inputs'.trans inputs
      cfg := cfg'.trans cfg
      busy := busy'.trans busy
      op := op'.trans op
      window := window'.trans window
      hazard := fun hb => hazard'.trans (running hb).1
      status := fun hm => by
        rw [status' (hstatus hm)]
        exact ⟨done, fun hb => (running hb).2⟩
      regs := fun r hm hr => (regs' r (hreg r hm)).trans (regs r hr)
      mem := fun c k _ hc => (fieldAt_congr cfg' mem' c k).trans (mem c k hc) }

theorem hazardFrame_freeField {m : HostMove} {c : Column} {i : Nat} (s : State)
    (hfield : ∀ d k, m.accessesField d k = false → d ≠ c ∨ k ≠ i) : HazardFrame m s (s.spoil.freeField c i) := by
  obtain ⟨cfg, op, inputs, window, busy, done, running, regs, mem⟩ := spoil_keeps s
  refine ⟨inputs, cfg, busy, op, window, fun hb => (running hb).1, fun _ => ⟨done, fun hb => (running hb).2⟩,
    fun r _ => regs r, fun d k hm hd => ?_⟩
  calc (s.spoil.freeField c i).fieldAt d k
      = State.fieldAt { s.spoil with mem := (s.spoil.freeField c i).mem } d k := fieldAt_congr rfl rfl d k
    _ = s.spoil.fieldAt d k := fieldAt_writeField_other _ c d i k _ (hfield d k hm)
    _ = s.fieldAt d k := mem d k hd

/-- A register the map of the statements does not show at an offset is not there. -/
theorem countRegAt_ne_of_registerMap {offset : Nat} {r : CountReg}
    (h : (registerMap.any fun x => x.1 == offset && x.2.1 == r) = false) : countRegAt offset ≠ some r := by
  intro hr
  rw [countRegAt_eq_some_iff.1 hr] at h
  cases r <;> exact absurd h (by decide)

theorem ne_of_field_not_accessed {c d : Column} {i k : Nat} (h : (c == d && i == k) = false) : d ≠ c ∨ k ≠ i := by
  rw [Bool.and_eq_false_iff, beq_eq_false_iff_ne, beq_eq_false_iff_ne] at h
  exact h.imp Ne.symm Ne.symm

theorem hostMove_hazard {m : HostMove} {s : State} (hw : s.window = true) (hm : m.allowedInWindow = false)
    (hdef : m.defined s.cfg = true) : ∃ t, hostMove m s = .next t ∧ HazardFrame m s t := by
  cases m with
  | regRead width offset =>
    have h4 : offset ≠ 0x04 := beq_eq_false_iff_ne.1 hm
    have hwf : regAccessWf width offset = true := hdef
    rw [hostMove, if_pos hwf, State.readRegMove, if_neg h4, if_pos hw]
    have hframe : HazardFrame (.regRead width offset) s (s.spoil.freeReg offset) :=
      hazardFrame_freeReg s (fun _ => h4) fun _ => countRegAt_ne_of_registerMap
    exact ⟨_, rfl, hframe.observe _⟩
  | regWrite width offset v =>
    have h0 : offset ≠ 0x00 := beq_eq_false_iff_ne.1 hm
    have hwf : regAccessWf width offset = true := hdef
    rw [hostMove, if_pos hwf, State.writeRegMove, if_neg h0, if_pos hw]
    exact ⟨_, rfl, hazardFrame_freeReg s beq_eq_false_iff_ne.1 fun _ => countRegAt_ne_of_registerMap⟩
  | memRead c i =>
    have hwf : memIndexWf s.cfg c i = true := hdef
    rw [hostMove, if_pos hwf, State.readMemMove, if_pos hw]
    have hframe : HazardFrame (.memRead c i) s (s.spoil.freeField c i) :=
      hazardFrame_freeField s fun _ _ => ne_of_field_not_accessed
    exact ⟨_, rfl, hframe.observe _⟩
  | memWrite c i v =>
    have hwf : memIndexWf s.cfg c i = true := hdef
    rw [hostMove, if_pos hwf, State.writeMemMove, if_pos hw]
    exact ⟨_, rfl, hazardFrame_freeField s fun _ _ => ne_of_field_not_accessed⟩
  | wait => cases hm
  | reset => cases hm

/-- Settles O60, by `hostMove_hazard` in the state with the move taken off the host's list. -/
theorem hazardTouchesOnly : Obligations.HazardTouchesOnly := by
  intro s m rest hi ht hw hm hdef
  obtain ⟨t, hmove, h⟩ := hostMove_hazard (s := { s with inputs := rest, latency := s.latency - 1 }) hw hm hdef
  exact ⟨t, (step_host hi ht).trans hmove, h.inputs, h.cfg, h.busy, h.op, h.window.trans hw, h.hazard, h.status,
    h.regs, fun c k hc hs => (h.mem c k hc hs).trans (fieldAt_congr rfl rfl c k)⟩

end Sys2Proof.Machine
end
